-- ==== Sys2Proof/Word.lean ====
section
/-!
DEFINITION. The plain data of NDCORE: the four widths the spec fixes (00_scope.md R15, R18; 30_encoding.md R58, R67) and
sparse storage arrays (20_memory.md R40).
-/

namespace Sys2Proof

/-- A byte, a value in `0..255` (R15, R19). -/
abbrev Byte := BitVec 8

/-- A SegmentBitmap: bits 13:0 segments, bit 14 underline, bit 15 colon (R58). -/
abbrev Bitmap := BitVec 16

/-- A table code: the 14 segment bits of a character (R13, R58). -/
abbrev Code := BitVec 14

/-- Four bits: the `op` field of a request and the `status` field of a response (R67). -/
abbrev Nibble := BitVec 4

/-- A storage array of cells of `w` bits by index (R40), listed in one canonical form (`Cells.Wf` of Machine/Ops.lean). -/
abbrev Cells (w : Nat) := List (Nat × BitVec w)

end Sys2Proof
end

