-- ==== Sys2Proof/Config.lean ====
section
/-!
DEFINITION. The parameters of NDCORE (00_scope.md section 4, R9 to R13), which the spec leaves OPEN (92_eei_decisions.md
D4), and the free value of the spec (93_implementation_defined.md U2). A model takes one configuration record holding
all parameters: `Config`. The device's own values are constants WITHOUT A BODY: no proof can see them.
-/

namespace Sys2Proof

/-- One configuration record holding every parameter of the block (R9 to R13). -/
structure Config where
  /-- `CAP`, the ring buffer's capacity in bytes (R9). -/
  cap : Nat
  /-- `NUM_TUBES`, the number of display positions (R10). -/
  numTubes : Nat
  /-- `TOKEN_MAX`, the largest number of text bytes of an escape token (R11). -/
  tokenMax : Nat
  /-- `MAX_ARGS`, the largest number of arguments after the command word (R12). -/
  maxArgs : Nat
  /-- `SEGTAB`, 96 entries, entry index `c - 0x20`; `none` is the marker "no code" (R13, R60). -/
  segTab : List (Option Code)
deriving DecidableEq, Repr

/-- `SegLookup`: the table entry of the byte value `c`, for `0x20 <= c <= 0x7F` (R21, R60). -/
def Config.segLookup (cfg : Config) (c : Nat) : Option Code :=
  (cfg.segTab[c - 0x20]?).join

/-- The constraints the spec puts on a configuration: `CAP >= 1` (R9), `MAX_ARGS >= 1` (R12), and on `SEGTAB` (R13):
96 entries; (c) no valid code is `0x3FFF`; (a) upper and lower case letters have the same entry; (b) `!` has no code;
(e) space has a code. Constraint (d), that the table never changes, is a property of the machine. -/
abbrev Config.Admissible (cfg : Config) : Prop :=
  1 ≤ cfg.cap ∧ 1 ≤ cfg.maxArgs ∧ cfg.segTab.length = 96 ∧
  (∀ e ∈ cfg.segTab, e ≠ some 0x3FFF) ∧
  (∀ k < 26, cfg.segLookup (0x61 + k) = cfg.segLookup (0x41 + k)) ∧
  cfg.segLookup 0x21 = none ∧ (cfg.segLookup 0x20).isSome = true

/-- OPEN (R9, D4): `CAP - 1` of the device. -/
opaque Config.deviceCapPred : Nat

/-- OPEN (R10, D4): `NUM_TUBES` of the device. -/
opaque Config.deviceNumTubes : Nat

/-- OPEN (R11, D4): `TOKEN_MAX` of the device. -/
opaque Config.deviceTokenMax : Nat

/-- OPEN (R12, D4): `MAX_ARGS - 1` of the device. -/
opaque Config.deviceMaxArgsPred : Nat

/-- OPEN (R13, D4): the device's entry for a byte value, a code other than `0x3FFF` or "no code". Read for upper-case
letters only where the letter has two cases, never for `!`, and not for space. -/
opaque Config.deviceEntry : Nat → Option (Fin 0x3FFF)

/-- OPEN (R78, D27): the device's code for space. -/
opaque Config.deviceSpace : Fin 0x3FFF

/-- The upper-case letter of a lower-case letter; every other value itself (R13 (a), R55). -/
def Config.foldCase (c : Nat) : Nat := if 0x61 ≤ c ∧ c ≤ 0x7A then c - 0x20 else c

/-- The device's table entry for the byte value `c`, admissible by construction (R13 (a), (b), (c), (e)). -/
def Config.deviceCode (c : Nat) : Option Code :=
  if c = 0x20 then some (BitVec.ofNat 14 Config.deviceSpace.val)
  else if c = 0x21 then none
  else (Config.deviceEntry (Config.foldCase c)).map fun v => BitVec.ofNat 14 v.val

/-- The configuration of the device itself: every parameter is an open constant (D4; log entry 1). -/
def Config.device : Config where
  cap := Config.deviceCapPred + 1
  numTubes := Config.deviceNumTubes
  tokenMax := Config.deviceTokenMax
  maxArgs := Config.deviceMaxArgsPred + 1
  segTab := (List.range 96).map fun i => Config.deviceCode (0x20 + i)

/-- `TESTTAB`, the spec's test table, at the byte value `c` (R17): `!` and DEL have no code, a lower-case letter has that of its
upper case, every other `c` has the code `c - 0x20`. -/
def Config.testCode (c : Nat) : Option Code :=
  if c = 0x21 ∨ c = 0x7F then none else some (BitVec.ofNat 14 (Config.foldCase c - 0x20))

/-- `CFG_REF`, the spec's reference test configuration (R17, D4): a fixture for its examples and vectors, no value of the
device, whose parameters are those of `Config.device`. -/
def Config.reference : Config where
  cap := 64
  numTubes := 8
  tokenMax := 18
  maxArgs := 4
  segTab := (List.range 96).map fun i => Config.testCode (0x20 + i)

/-- `CFG_REF` with another `CAP`, for the vectors that need wrap-around (R17). -/
def Config.referenceWithCap (cap : Nat) : Config := { Config.reference with cap := cap }

/-- FREE VALUE (U2, R82): the number a port shows as `offset` while `ready = 0`, "any value"; one for each count of
operations (log entry 9). -/
opaque Config.freeOffset : Nat → Nat

end Sys2Proof
end

