-- ==== Sys2Proof/Syntax.lean ====
section
/-!
DEFINITION. The instructions: one constructor per row of spec/opcode_table.json, and the forms in which they are
presented to the machine (30_encoding.md R66 to R72).
-/

namespace Sys2Proof

/-- The parse mode of the print decoder (R30); encoding `Start = 0` to `Underline = 4` (R69). -/
inductive PdState where
  | start
  | idle
  | tokenStart
  | token
  | underline
deriving DecidableEq, Repr

/-- The five classes of an argument byte, the columns of the source's state table (R66). -/
inductive ByteClass where
  | lbrace
  | bang
  | rbrace
  | printable
  | nonprintable
deriving DecidableEq, Repr

/-- The operations. -/
inductive Instr where
  /-- `SE.DECODE c`, op `0x0` (R73). -/
  | seDecode (c : Byte)
  /-- `SE.ISPRINT c`, op `0x1` (R74). -/
  | seIsPrint (c : Byte)
  /-- `SE.WITHUL b`, op `0x2` (R75). -/
  | seWithUl (b : Bitmap)
  /-- `SE.WITHCOLON b`, op `0x3` (R76). -/
  | seWithColon (b : Bitmap)
  /-- `SE.DECODEUL c`, op `0x4` (R77). -/
  | seDecodeUl (c : Byte)
  /-- `CB.APPEND bytes`, op `0x5` (R79). -/
  | cbAppend (bytes : List Byte)
  /-- `CB.PENDLEN`, op `0x6` (R80). -/
  | cbPendLen
  /-- `CB.HASCMD`, op `0x7` (R81). -/
  | cbHasCmd
  /-- `CB.CMDLEN`, op `0x8` (R82). -/
  | cbCmdLen
  /-- `CB.EXTRACT destCapacity`, op `0x9` (R83). -/
  | cbExtract (destCapacity : Nat)
  /-- `PD.DECODE argument, tubeCount`, op `0xA` (R87). -/
  | pdDecode (argument : List Byte) (tubeCount : Nat)
  /-- `PD.TOKEN text`, op `0xB` (R121). -/
  | pdToken (text : List Byte)
  /-- `CP.PARSE cmd`, op `0xC` (R124). -/
  | cpParse (cmd : List Byte)
  /-- `RESET`, op `0xD` (R125). -/
  | reset
  /-- `RESERVED.E`, op `0xE`: selects no operation (R126). -/
  | reservedE
  /-- `RESERVED.F`, op `0xF`: selects no operation (R126). -/
  | reservedF
  /-- `CB.APPENDB b`, another spelling of `CB.APPEND [b]` (R72). -/
  | cbAppendB (b : Byte)
  /-- `LINE destCapacity, tubeCount`, the composite of R128. -/
  | line (destCapacity tubeCount : Nat)
  /-- Start, byte `0x7B` (R94). -/
  | pdStartLbrace
  /-- Start, byte `0x21` (R95). -/
  | pdStartBang
  /-- Start, byte `0x7D` (R96). -/
  | pdStartRbrace
  /-- Start, other printable byte (R97). -/
  | pdStartPrintable (c : Byte)
  /-- Start, non-printable byte (R98). -/
  | pdStartNonprintable (c : Byte)
  /-- Idle, byte `0x7B` (R99). -/
  | pdIdleLbrace
  /-- Idle, byte `0x21` (R100). -/
  | pdIdleBang
  /-- Idle, byte `0x7D` (R101). -/
  | pdIdleRbrace
  /-- Idle, other printable byte (R102). -/
  | pdIdlePrintable (c : Byte)
  /-- Idle, non-printable byte (R103). -/
  | pdIdleNonprintable (c : Byte)
  /-- TokenStart, byte `0x7B` (R104). -/
  | pdTokenStartLbrace
  /-- TokenStart, byte `0x21` (R105). -/
  | pdTokenStartBang
  /-- TokenStart, byte `0x7D` (R106). -/
  | pdTokenStartRbrace
  /-- TokenStart, other printable byte (R107). -/
  | pdTokenStartPrintable (c : Byte)
  /-- TokenStart, non-printable byte (R108). -/
  | pdTokenStartNonprintable (c : Byte)
  /-- Token, byte `0x7B` (R109). -/
  | pdTokenLbrace
  /-- Token, byte `0x21` (R110). -/
  | pdTokenBang
  /-- Token, byte `0x7D` (R111). -/
  | pdTokenRbrace
  /-- Token, other printable byte (R112). -/
  | pdTokenPrintable (c : Byte)
  /-- Token, non-printable byte (R113). -/
  | pdTokenNonprintable (c : Byte)
  /-- Underline, byte `0x7B` (R114). -/
  | pdUnderlineLbrace
  /-- Underline, byte `0x21` (R115). -/
  | pdUnderlineBang
  /-- Underline, byte `0x7D` (R116). -/
  | pdUnderlineRbrace
  /-- Underline, other printable byte (R117). -/
  | pdUnderlinePrintable (c : Byte)
  /-- Underline, non-printable byte (R118). -/
  | pdUnderlineNonprintable (c : Byte)
  /-- Token text `0x` and then `digits` (R121, R122). -/
  | tokenHexLower (digits : List Byte)
  /-- Token text `0X` and then `digits` (R121, R122). -/
  | tokenHexUpper (digits : List Byte)
  /-- Token text `0b` and then `digits` (R121, R123). -/
  | tokenBinLower (digits : List Byte)
  /-- Token text `0B` and then `digits` (R121, R123). -/
  | tokenBinUpper (digits : List Byte)
  /-- The byte `0x0D` on the wire: a line terminator (R57). -/
  | wireCr
  /-- The byte `0x0A` on the wire: a line terminator (R57). -/
  | wireLf
  /-- The byte `0x3A` on the wire: the field delimiter (R124). -/
  | wireColon
deriving DecidableEq, Repr

/-- What is presented to the machine to be run next, in the order of arrival. The encodings of the table's five formats
overlap as numbers, so the port a word arrives at says which format it has (log entries 5, 6, 10, 11). -/
inductive Fetch where
  /-- HOST: request records, a stream of nibbles (R67). -/
  | host (nibbles : List Nibble)
  /-- PSEUDO: the composite `LINE`, which has no op code of its own (R72, R128). -/
  | line (destCapacity tubeCount : Nat)
  /-- PD: one byte of a print argument (R66). -/
  | pd (c : Byte)
  /-- TOKEN: the text of an escape token (R63). -/
  | token (text : List Byte)
  /-- WIRE: one byte of the serial stream (R1, R56). -/
  | wire (b : Byte)
deriving DecidableEq, Repr

/-- The state column of a PD row; `none` for a row of another format. -/
def Instr.cellState : Instr → Option PdState
  | .pdStartLbrace | .pdStartBang | .pdStartRbrace | .pdStartPrintable _ | .pdStartNonprintable _ => some .start
  | .pdIdleLbrace | .pdIdleBang | .pdIdleRbrace | .pdIdlePrintable _ | .pdIdleNonprintable _ => some .idle
  | .pdTokenStartLbrace | .pdTokenStartBang | .pdTokenStartRbrace | .pdTokenStartPrintable _
  | .pdTokenStartNonprintable _ => some .tokenStart
  | .pdTokenLbrace | .pdTokenBang | .pdTokenRbrace | .pdTokenPrintable _ | .pdTokenNonprintable _ => some .token
  | .pdUnderlineLbrace | .pdUnderlineBang | .pdUnderlineRbrace | .pdUnderlinePrintable _
  | .pdUnderlineNonprintable _ => some .underline
  | .seDecode _ | .seIsPrint _ | .seWithUl _ | .seWithColon _ | .seDecodeUl _ | .cbAppend _ | .cbPendLen | .cbHasCmd
  | .cbCmdLen | .cbExtract _ | .pdDecode _ _ | .pdToken _ | .cpParse _ | .reset | .reservedE | .reservedF
  | .cbAppendB _ | .line _ _ | .tokenHexLower _ | .tokenHexUpper _ | .tokenBinLower _ | .tokenBinUpper _
  | .wireCr | .wireLf | .wireColon => none

end Sys2Proof
end

