-- ==== Sys2Proof/Machine/Operands.lean ====
section
/-!
DEFINITION. The operand forms: characters (R55), the character table's decode (R73), byte classes (R66), token digits and
values (R63 to R65, R121 to R123), and the colon-separated fields of a command (R56, R124).
-/

namespace Sys2Proof.Machine

/-! ### Characters (R55) -/

/-- Line feed. -/
abbrev chLf : Byte := 0x0A
/-- Carriage return. -/
abbrev chCr : Byte := 0x0D
/-- Space, the first table entry. -/
abbrev chSpace : Byte := 0x20
/-- The underline operator. -/
abbrev chBang : Byte := 0x21
/-- The field delimiter. -/
abbrev chColon : Byte := 0x3A
/-- The byte that opens an escape. -/
abbrev chLbrace : Byte := 0x7B
/-- The byte that closes an escape. -/
abbrev chRbrace : Byte := 0x7D
/-- The command word `print` (R55, R124). -/
abbrev printWord : List Byte := [0x70, 0x72, 0x69, 0x6E, 0x74]

/-- `isTerm`: a terminator byte, `\r` or `\n`, of equal rank (R57). -/
def isTerm (b : Byte) : Bool := b == chCr || b == chLf

/-! ### The segment encoder's functions -/

/-- `SE.DECODE` (R73): the table entry of a byte in `0x20..0x7F`; `none` is `NoCode`. -/
def segDecode (cfg : Config) (c : Byte) : Option Code :=
  if 0x20 ≤ c.toNat ∧ c.toNat ≤ 0x7F then cfg.segLookup c.toNat else none

/-- A code as a bitmap: `zext_16`, both modifier bits 0 (R58, R59). -/
def codeBitmap (v : Code) : Bitmap := v.setWidth 16

/-- `withUnderline`: sets bit 14 (R61, R75). -/
def withUnderline (b : Bitmap) : Bitmap := b ||| 0x4000

/-- `withColon`: sets bit 15 (R61, R76). -/
def withColon (b : Bitmap) : Bitmap := b ||| 0x8000

/-- `decodeUnderlined`: decode, then underline; `NoCode` unchanged (R77, D10). -/
def segDecodeUnderlined (cfg : Config) (c : Byte) : Option Bitmap :=
  (segDecode cfg c).map fun v => withUnderline (codeBitmap v)

/-- `SPACE`, the fill value (R78). A table without a code for space is not admissible (R13 (e)); there it is 0 (log entry
16). -/
def spaceBitmap (cfg : Config) : Bitmap :=
  match segDecode cfg chSpace with
  | some v => codeBitmap v
  | none => 0

/-- The class of an argument byte (R66). -/
def classOf (cfg : Config) (c : Byte) : ByteClass :=
  if c = chLbrace then .lbrace
  else if c = chBang then .bang
  else if c = chRbrace then .rbrace
  else if (segDecode cfg c).isSome then .printable
  else .nonprintable

/-! ### Escape tokens -/

/-- The value of a hexadecimal digit, either letter case (R64, R122), with or without a code in the table (log entry 18). -/
def hexDigit (d : Byte) : Option Bitmap :=
  if 0x30 ≤ d.toNat ∧ d.toNat ≤ 0x39 then some (BitVec.ofNat 16 (d.toNat - 0x30))
  else if 0x41 ≤ d.toNat ∧ d.toNat ≤ 0x46 then some (BitVec.ofNat 16 (d.toNat - 0x41 + 10))
  else if 0x61 ≤ d.toNat ∧ d.toNat ≤ 0x66 then some (BitVec.ofNat 16 (d.toNat - 0x61 + 10))
  else none

/-- The value of a binary digit (R64, R123), with or without a code in the table (log entry 18). -/
def binDigit (d : Byte) : Option Bitmap :=
  if d = 0x30 then some 0
  else if d = 0x31 then some 1
  else none

/-- Digits accumulated most significant first in 16 bits, the overflow discarded (R65); `none` at a byte that is no digit. -/
def accumulate (digit : Byte → Option Bitmap) (bits : Nat) (value : Bitmap) : List Byte → Option Bitmap
  | [] => some value
  | d :: ds =>
    match digit d with
    | some k => accumulate digit bits ((value <<< bits) ||| k) ds
    | none => none

/-- `HexValue` (R122); `none` is TokenError. -/
def hexValue (digits : List Byte) : Option Bitmap := accumulate hexDigit 4 0 digits

/-- `BinValue` (R123); `none` is TokenError. -/
def binValue (digits : List Byte) : Option Bitmap := accumulate binDigit 1 0 digits

/-- `PD.TOKEN`: the value of a token text (R121); `none` is TokenError. Its bytes are judged by their values alone (R121 to R123,
D16), whatever the table says: the model's reading where R70 (c) and R113 say that a byte without a code makes the token fail
(log entry 18). -/
def tokenValue (text : List Byte) : Option Bitmap :=
  match text with
  | z :: base :: digits =>
    if z = 0x30 ∧ (base = 0x78 ∨ base = 0x58) then hexValue digits
    else if z = 0x30 ∧ (base = 0x62 ∨ base = 0x42) then binValue digits
    else none
  | _ => none

/-! ### Commands -/

/-- The fields of a command: the byte strings between its colons, the word first (R124). Never empty. -/
def splitColon : List Byte → List (List Byte)
  | [] => [[]]
  | b :: bs =>
    match splitColon bs with
    | field :: fields => if b = chColon then [] :: field :: fields else (b :: field) :: fields
    | [] => [[]]

end Sys2Proof.Machine
end

