-- ==== Sys2Proof/Machine/State.lean ====
section
/-!
DEFINITION. The state of NDCORE as plain data: every piece of state the spec names (10_state.md; INVENTORY.md lists them),
the responses of operations, and the state after reset. Also the reasons a step can stop.
-/

namespace Sys2Proof.Machine

/-- The eight error kinds, in the order of the taxonomy (R129). -/
inductive ErrKind where
  /-- Append exceeds capacity: destructive, the buffer is cleared (R130). -/
  | bufferOverrun
  /-- Extraction destination too small: non-destructive (R131). -/
  | bufOverrun
  /-- Empty line: informational (R132). -/
  | noopCommand
  /-- Unrecognised command word (R133). -/
  | badCommand
  /-- More than `MAX_ARGS` delimiters (R134). -/
  | tooManyArgs
  /-- No delimiter, or `print` with other than one argument (R135). -/
  | wrongNumArgs
  /-- Malformed escape or non-printable input (R136). -/
  | parseError
  /-- Malformed escape token (R137). -/
  | tokenError
deriving DecidableEq, Repr

/-- The values an operation returns with status OK (R68). -/
inductive Result where
  /-- Nothing: `CB.APPEND` and `RESET`. -/
  | done
  /-- `Code(v)`, or `NoCode` as `none` (R59, R73). -/
  | code (r : Option Code)
  /-- `Code16(w)`, or `NoCode` as `none` (R77). -/
  | code16 (r : Option Bitmap)
  /-- A Boolean (R74, R81). -/
  | boolean (b : Bool)
  /-- A 16-bit value (R75, R76, R121). -/
  | bitmap (b : Bitmap)
  /-- A number (R80). -/
  | number (n : Nat)
  /-- `Ready(t)`, or `NotReady` as `none` (R82). -/
  | cmdLen (r : Option Nat)
  /-- `Ok(0)`: no complete line (R83). -/
  | notReady
  /-- `Ok(L, cmd)`: the `L` bytes of a framed command (R83). -/
  | command (cmd : List Byte)
  /-- The array of `tubeCount` bitmaps (R87). -/
  | bitmaps (out : List Bitmap)
  /-- `Ok(Print, args)` (R124). -/
  | print (args : List (List Byte))
deriving DecidableEq, Repr

/-- The result of an operation: `Ok(values)` or `Err(kind)` (R22). -/
inductive Response where
  | ok (r : Result)
  | err (k : ErrKind)
deriving DecidableEq, Repr

/-- The CommandBuffer: three registers and the byte store (R25). -/
structure CB where
  /-- `cb.head`: index of the oldest unread byte. -/
  head : Nat
  /-- `cb.tail`: index at which the next appended byte is written. -/
  tail : Nat
  /-- `cb.length`: number of unread bytes. -/
  length : Nat
  /-- `cb.mem`: the byte store. -/
  mem : List Host.Cell
deriving DecidableEq, Repr

/-- The print decoder's working registers (R30). -/
structure PD where
  /-- `pd.state`: the parse mode. -/
  state : PdState
  /-- `pd.pos`: index of the next argument byte. -/
  pos : Nat
  /-- `pd.n`: number of bitmaps emitted so far. -/
  n : Nat
  /-- `pd.tlen`: number of bytes in the token buffer. -/
  tlen : Nat
  /-- `pd.tok`: the token text buffer. -/
  tok : Cells 8
  /-- `pd.out`: the output array. -/
  out : Cells 16
  /-- The operand `tubeCount` of the scan in progress (R87); the model's own latch (log entry 4). -/
  tubeCount : Nat
deriving DecidableEq, Repr

/-- How one transition of the print decoder ends (R87, R89). -/
inductive CellOut where
  /-- The scan goes on. -/
  | go (pd : PD)
  /-- `raise k`: `PD.DECODE` ends with `Err(k)`, and nothing of the scan is left (R92). -/
  | raise (k : ErrKind)
  /-- Stop: `PD.DECODE` ends with `Ok(out)` although bytes may be left (R89). -/
  | stop (pd : PD)
deriving DecidableEq, Repr

/-- The whole machine. -/
structure State where
  /-- The parameters of the block, fixed when it is built (R9 to R13, R37); no step changes them. -/
  cfg : Config
  /-- The CommandBuffer, the only state that lives between operations (R25). -/
  cb : CB
  /-- The print decoder's working registers, which hold a scan while it lasts and are at rest otherwise (R30, R31, R155; log
  entry 3). -/
  pd : PD
  /-- The model's own: the response of the last operation (R67), `none` if it returned none (log entry 6). -/
  response : Option Response
  /-- The model's own: what the host presents next, in order (R49, R72; log entry 6). -/
  inbox : List Fetch
  /-- The model's own: how many operations were fetched; it selects the free value of U2 (log entry 9). -/
  opCount : Nat
deriving DecidableEq, Repr

/-- Why a step faults. NDCORE has no fault: every condition is reported as an error kind in the result of the operation
that met it (R22, R36, R140), so no constructor stands here and no step ever faults. -/
inductive Fault where
deriving DecidableEq, Repr

/-- Why a step is refused. -/
inductive Refusal where
  /-- An instruction without a meaning in this model; raised by no arm of `exec`. Safe. -/
  | notModelled (mnemonic : String)
  /-- The request record ends inside its operands: raised by fetching, the spec gives a record that is not one no meaning
  (R67). Safe: the machine stops where the spec says nothing. -/
  | truncatedRequest
  /-- A PD row is presented in a decoder state, or with a byte, for which R88 does not select it: raised by the PD
  meanings, never when the row was read by the decoder. Safe: the hardware cannot do this. -/
  | cellNotSelected
deriving DecidableEq, Repr

/-- The empty CommandBuffer of reset: head, tail and length 0 (R39, R146), no cell written. -/
def CB.empty : CB where
  head := 0
  tail := 0
  length := 0
  mem := []

/-- The print decoder between two scans: `Start`, its counters 0, nothing of an array or a token held (R30, R31, R155; log
entries 3, 4). -/
def PD.rest (cfg : Config) : PD where
  state := .start
  pos := 0
  n := 0
  tlen := 0
  tok := []
  out := []
  tubeCount := cfg.numTubes

/-- The machine right after power-on reset (R39, R146): the empty buffer; the decoder at rest (log entries 3, 4);
no response, nothing presented (log entry 6). -/
def State.reset : State where
  cfg := Config.device
  cb := CB.empty
  pd := PD.rest Config.device
  response := none
  inbox := []
  opCount := 0

end Sys2Proof.Machine
end

