-- ==== Sys2Proof/Machine/Ops.lean ====
section
/-!
DEFINITION. The shared operations over storage and registers: cells, the ring's MemRead and MemWrite (R21, R45), the steps of
the CommandBuffer (R79 to R84), the steps of the print decoder (R87 to R93), and how an operation ends: with a result, or
by raising an error (R22, R140).
-/

namespace Sys2Proof.Machine

/-! ### Cells -/

/-- What an unlisted cell reads as. The spec leaves it unspecified and no rule reads such a cell (R38, R39); the model
fixes 0 (log entry 2). -/
def unlisted (w : Nat) : BitVec w := 0

/-- The canonical form: indices strictly rising, no entry equal to what an unlisted index reads as. -/
abbrev Cells.Wf {w : Nat} (m : Cells w) : Prop :=
  m.Pairwise (fun x y => x.1 < y.1) ∧ ∀ x ∈ m, x.2 ≠ unlisted w

/-- The cell at an index. -/
def Cells.read {w : Nat} (m : Cells w) (a : Nat) : BitVec w :=
  match m with
  | [] => unlisted w
  | (b, v) :: m => if a = b then v else Cells.read m a

/-- `a[i] <- v`, keeping the canonical form. -/
def Cells.write {w : Nat} (m : Cells w) (a : Nat) (v : BitVec w) : Cells w :=
  match m with
  | [] => if v = unlisted w then [] else [(a, v)]
  | (b, u) :: m =>
    if a < b then (if v = unlisted w then (b, u) :: m else (a, v) :: (b, u) :: m)
    else if a = b then (if v = unlisted w then m else (a, v) :: m)
    else (b, u) :: Cells.write m a v

/-- `n` cells from index `a` on. -/
def Cells.readRun {w : Nat} (m : Cells w) (a n : Nat) : List (BitVec w) :=
  (List.range n).map fun k => Cells.read m (a + k)

/-- Consecutive cells from index `a` on. -/
def Cells.writeRun {w : Nat} (m : Cells w) (a : Nat) : List (BitVec w) → Cells w
  | [] => m
  | v :: vs => Cells.writeRun (Cells.write m a v) (a + 1) vs

/-! ### The ring storage (R21, R45) -/

/-- `MemRead(addr, n)`: byte by byte, wrapping at `CAP` (R21). -/
def memRead (cap : Nat) (mem : List Host.Cell) (addr n : Nat) : List Byte :=
  (List.range n).map fun k => Cells.read mem ((addr + k) % cap)

/-- `MemWrite(addr, n, v)`: byte by byte, wrapping at `CAP` (R21). -/
def memWrite (cap : Nat) (mem : List Host.Cell) (addr : Nat) : List Byte → List Host.Cell
  | [] => mem
  | b :: bs => memWrite cap (Cells.write mem (addr % cap) b) (addr + 1) bs

/-- `MemRead` as at most two contiguous copies (R45). -/
def memReadSplit (cap : Nat) (mem : List Host.Cell) (addr n : Nat) : List Byte :=
  Cells.readRun mem addr (min n (cap - addr)) ++ Cells.readRun mem 0 (n - min n (cap - addr))

/-- `MemWrite` as at most two contiguous copies (R45). -/
def memWriteSplit (cap : Nat) (mem : List Host.Cell) (addr : Nat) (bs : List Byte) : List Host.Cell :=
  Cells.writeRun (Cells.writeRun mem addr (bs.take (cap - addr))) 0 (bs.drop (cap - addr))

/-! ### CommandBuffer steps -/

/-- The unread bytes, oldest first (R28). -/
def CB.unread (cap : Nat) (cb : CB) : List Byte := memRead cap cb.mem cb.head cb.length

/-- The empty state of `RESET` and of a failing append: three assignments, the byte store untouched (R39, R79, R125;
log entry 17). -/
def CB.clear (cb : CB) : CB := { cb with head := 0, tail := 0, length := 0 }

/-- The chunk stored at `tail` (R79, no overflow). -/
def CB.store (cap : Nat) (cb : CB) (bytes : List Byte) : CB :=
  { cb with
    mem := memWrite cap cb.mem cb.tail bytes
    tail := (cb.tail + bytes.length) % cap
    length := cb.length + bytes.length }

/-- `CB.APPEND` (R79). -/
def CB.append (cap : Nat) (cb : CB) (bytes : List Byte) : CB × Response :=
  if bytes.length + cb.length > cap then (cb.clear, .err .bufferOverrun)
  else (cb.store cap bytes, .ok .done)

/-- The unread byte at offset `i` from `head` (R81, R82). -/
def CB.byteAt (cap : Nat) (cb : CB) (i : Nat) : Byte := Cells.read cb.mem ((cb.head + i) % cap)

/-- `CB.HASCMD` (R81). -/
def CB.hasCmd (cap : Nat) (cb : CB) : Bool := (List.range cb.length).any fun i => isTerm (cb.byteAt cap i)

/-- `CB.CMDLEN`: the lowest offset of a terminator; `none` is `NotReady` (R82). -/
def CB.cmdLen (cap : Nat) (cb : CB) : Option Nat := (List.range cb.length).find? fun i => isTerm (cb.byteAt cap i)

/-- `n` bytes consumed from the head. -/
def CB.drop (cap : Nat) (cb : CB) (n : Nat) : CB :=
  { cb with head := (cb.head + n) % cap, length := cb.length - n }

/-- One of the two trimming steps (R84, D9). -/
def CB.trimOne (cap : Nat) (cb : CB) : CB :=
  if 0 < cb.length ∧ isTerm (Cells.read cb.mem cb.head) = true then cb.drop cap 1 else cb

/-- `Trim()` (R84). -/
def CB.trim (cap : Nat) (cb : CB) : CB := (cb.trimOne cap).trimOne cap

/-- `CB.EXTRACT` (R83): not ready, then empty line, then destination size (R139). -/
def CB.extract (cap : Nat) (cb : CB) (destCapacity : Nat) : CB × Response :=
  match cb.cmdLen cap with
  | none => (cb, .ok .notReady)
  | some 0 => (cb.trim cap, .err .noopCommand)
  | some (t + 1) =>
    if t + 1 > destCapacity then (cb, .err .bufOverrun)
    else ((cb.drop cap (t + 1)).trim cap, .ok (.command (memRead cap cb.mem cb.head (t + 1))))

/-! ### Print decoder steps -/

/-- One input byte consumed: `pd.pos <- pd.pos + 1` (R87). -/
def PD.consume (pd : PD) : PD := { pd with pos := pd.pos + 1 }

/-- The start of a `PD.DECODE` (R30, R87): the counters cleared; `pd.tok` and `pd.out` are as they were, "without defined
contents", and no rule reads a cell of them before it is written (R38). -/
def PD.begin (pd : PD) (tubeCount : Nat) : PD :=
  { pd with state := .start, pos := 0, n := 0, tlen := 0, tubeCount := tubeCount }

/-- The array delivered: `pd.out[0 .. tubeCount-1]` (R87). -/
def PD.result (pd : PD) : List Bitmap := Cells.readRun pd.out 0 pd.tubeCount

/-- The token text: `pd.tok[0 .. pd.tlen-1]` (R111). -/
def PD.tokenText (pd : PD) : List Byte := Cells.readRun pd.tok 0 pd.tlen

/-- The scan goes on in state `next`. -/
def PD.goTo (pd : PD) (next : PdState) : CellOut := .go { pd with state := next }

/-- `Emit(v)`, then `pd.state <- next`; the scan stops if the array is full (R89). -/
def PD.emit (pd : PD) (v : Bitmap) (next : PdState) : CellOut :=
  if pd.n = pd.tubeCount then .stop pd
  else .go { pd with out := Cells.write pd.out pd.n v, n := pd.n + 1, state := next }

/-- `Buffer(c)`, then `pd.state <- next` (R93). -/
def PD.buffer (tokenMax : Nat) (pd : PD) (c : Byte) (next : PdState) : CellOut :=
  if pd.tlen = tokenMax then .raise .parseError
  else .go { pd with tok := Cells.write pd.tok pd.tlen c, tlen := pd.tlen + 1, state := next }

/-- A byte shown as a character: its code emitted, or ParseError if it has none (R88, R96 to R98). -/
def PD.showChar (cfg : Config) (pd : PD) (c : Byte) (next : PdState) : CellOut :=
  match segDecode cfg c with
  | some v => pd.emit (codeBitmap v) next
  | none => .raise .parseError

/-- A byte shown underlined, or ParseError if it has no code (R114, R117, R118). -/
def PD.showUnderlined (cfg : Config) (pd : PD) (c : Byte) (next : PdState) : CellOut :=
  match segDecodeUnderlined cfg c with
  | some v => pd.emit v next
  | none => .raise .parseError

/-- A closed token: TokenError before any emission, else its value emitted literally (R111). -/
def PD.closeToken (pd : PD) : CellOut :=
  match tokenValue pd.tokenText with
  | some v => pd.emit v .idle
  | none => .raise .tokenError

/-- The bitmap emitted last underlined in place; ParseError if there is none (R100, D13). -/
def PD.underlineLast (pd : PD) : CellOut :=
  if pd.n = 0 then .raise .parseError
  else .go { pd with out := Cells.write pd.out (pd.n - 1) (withUnderline (Cells.read pd.out (pd.n - 1))), state := .idle }

/-- `Fill()`: positions `pd.n .. tubeCount-1` become `SPACE` (R91). -/
def PD.fill (cfg : Config) (pd : PD) : PD :=
  { pd with out := Cells.writeRun pd.out pd.n (List.replicate (pd.tubeCount - pd.n) (spaceBitmap cfg)) }

/-- End of input (R90, R91). -/
def PD.finish (cfg : Config) (pd : PD) : Response :=
  match pd.state with
  | .tokenStart | .token | .underline => .err .parseError
  | .start | .idle => .ok (.bitmaps (pd.fill cfg).result)

/-! ### How an operation ends -/

/-- The registers of the CommandBuffer replaced. -/
def State.setCb (s : State) (cb : CB) : State := { s with cb := cb }

/-- The working registers of the print decoder replaced. -/
def State.setPd (s : State) (pd : PD) : State := { s with pd := pd }

/-- The response of an operation: the status and the results (R67), or none (R126). -/
def State.respond (s : State) (r : Option Response) : State := { s with response := r }

/-- `return v`: the operation ends with `Ok(v)` (R22). -/
def State.succeed (s : State) (r : Result) : State := s.respond (some (.ok r))

/-- `raise k`: THE ENTRY OF AN ERROR, the only kind of exception NDCORE has. The kind goes into the result, nothing is
saved, control goes nowhere and no mode changes (R22, R140). There is nothing to return from: after any error the next
operation is accepted and behaves by its rule (R141). -/
def State.raise (s : State) (k : ErrKind) : State := s.respond (some (.err k))

/-- `return` of a token value, or TokenError (R121). -/
def State.returnToken (s : State) (v : Option Bitmap) : State :=
  match v with
  | some v => s.succeed (.bitmap v)
  | none => s.raise .tokenError

/-- The end of a `PD.DECODE`: the response is all that is left of the scan. The array is "invalidated (not retained by this
core)" and no later operation can read it again (R30, R31, R155). -/
def State.endScan (s : State) (r : Response) : State := (s.setPd (PD.rest s.cfg)).respond (some r)

/-- The end of one transition of the print decoder: the scan goes on and there is no response yet, or `PD.DECODE` ends. -/
def State.settle (s : State) (out : CellOut) : State :=
  match out with
  | .go pd => (s.setPd pd).respond none
  | .raise k => s.endScan (.err k)
  | .stop pd => s.endScan (.ok (.bitmaps pd.result))

end Sys2Proof.Machine
end

