-- ==== Sys2Proof/Machine/CommandBuffer.lean ====
section
/-!
DEFINITION. The five public operations of the CommandBuffer (41_command_buffer.md), the byte-at-a-time spelling of append
(R72), and the bytes with a role on the wire (R57, R124), each of which reaches the block as a one-byte chunk (R3, log
entry 11).
-/

namespace Sys2Proof.Machine

/-- A chunk given to the CommandBuffer (R79). -/
def appendChunk (bytes : List Byte) (s : State) : State :=
  (s.setCb (s.cb.append s.cfg.cap bytes).1).respond (some (s.cb.append s.cfg.cap bytes).2)

/-- `CB.APPEND bytes` (R79). -/
def execCbAppend (bytes : List Byte) (s : State) : Host.Outcome State Fault Refusal :=
  .next (appendChunk bytes s)

/-- `CB.PENDLEN` (R80). -/
def execCbPendLen (s : State) : Host.Outcome State Fault Refusal :=
  .next (s.succeed (.number s.cb.length))

/-- `CB.HASCMD` (R81). -/
def execCbHasCmd (s : State) : Host.Outcome State Fault Refusal :=
  .next (s.succeed (.boolean (s.cb.hasCmd s.cfg.cap)))

/-- `CB.CMDLEN` (R82). -/
def execCbCmdLen (s : State) : Host.Outcome State Fault Refusal :=
  .next (s.succeed (.cmdLen (s.cb.cmdLen s.cfg.cap)))

/-- `CB.EXTRACT destCapacity` (R83). -/
def execCbExtract (destCapacity : Nat) (s : State) : Host.Outcome State Fault Refusal :=
  .next ((s.setCb (s.cb.extract s.cfg.cap destCapacity).1).respond (some (s.cb.extract s.cfg.cap destCapacity).2))

/-- `CB.APPENDB b`: a one-byte chunk (R72). -/
def execCbAppendB (b : Byte) (s : State) : Host.Outcome State Fault Refusal :=
  .next (appendChunk [b] s)

/-- WIRE.CR: the byte `0x0D` arrives; from then on it ends the line it stands after (R57, R81, R82). -/
def execWireCr (s : State) : Host.Outcome State Fault Refusal :=
  .next (appendChunk [chCr] s)

/-- WIRE.LF: the byte `0x0A` arrives; from then on it ends the line it stands after (R57, R81, R82). -/
def execWireLf (s : State) : Host.Outcome State Fault Refusal :=
  .next (appendChunk [chLf] s)

/-- WIRE.COLON: the byte `0x3A` arrives; stored verbatim (R47), it splits the command it stands in (R124). -/
def execWireColon (s : State) : Host.Outcome State Fault Refusal :=
  .next (appendChunk [chColon] s)

end Sys2Proof.Machine
end

