-- ==== Sys2Proof/Machine/CommandParser.lean ====
section
/-!
DEFINITION. The command parser (43_command_parser.md, R124).
-/

namespace Sys2Proof.Machine

/-- `cmdParse` (R124): TooManyArgs, then WrongNumArgs, then BadCommand, in the source's order (D19). -/
def parseCommand (maxArgs : Nat) (cmd : List Byte) : Response :=
  match splitColon cmd with
  | word :: args =>
    if args.length > maxArgs then .err .tooManyArgs
    else if args.length = 0 then .err .wrongNumArgs
    else if word ≠ printWord then .err .badCommand
    else .ok (.print args)
  | [] => .err .wrongNumArgs

/-- `CP.PARSE cmd` (R124). -/
def execCpParse (cmd : List Byte) (s : State) : Host.Outcome State Fault Refusal :=
  .next (s.respond (some (parseCommand s.cfg.maxArgs cmd)))

end Sys2Proof.Machine
end

