-- ==== Sys2Proof/Machine/PrintDecoder.lean ====
section
/-!
DEFINITION. The print decoder (42_print_decoder.md): the 25 cells of its state table (R94 to R118), each as the effect of one
byte on the working registers after the byte was consumed, and as an instruction of its own (R66, log entry 10); the whole
operation `PD.DECODE` (R87), which runs the cells over its argument in one atomic step (R4); and `PD.TOKEN` (R121).
-/

namespace Sys2Proof.Machine

/-! ### The cells -/

/-- Start, byte `0x7B`: opens a bracket (R94). -/
def cellStartLbrace (_cfg : Config) (pd : PD) : CellOut := pd.goTo .tokenStart

/-- Start, byte `0x21`: nothing to underline (R95). -/
def cellStartBang (_cfg : Config) (_pd : PD) : CellOut := CellOut.raise .parseError

/-- Start, byte `0x7D`: an ordinary byte (R96). -/
def cellStartRbrace (cfg : Config) (pd : PD) : CellOut := pd.showChar cfg chRbrace .idle

/-- Start, other printable byte: the first character (R97). -/
def cellStartPrintable (cfg : Config) (c : Byte) (pd : PD) : CellOut := pd.showChar cfg c .idle

/-- Start, non-printable byte: an error (R98). -/
def cellStartNonprintable (_cfg : Config) (_c : Byte) (_pd : PD) : CellOut := CellOut.raise .parseError

/-- Idle, byte `0x7B`: opens a bracket (R99). -/
def cellIdleLbrace (_cfg : Config) (pd : PD) : CellOut := pd.goTo .tokenStart

/-- Idle, byte `0x21`: underlines the bitmap emitted last (R100). -/
def cellIdleBang (_cfg : Config) (pd : PD) : CellOut := pd.underlineLast

/-- Idle, byte `0x7D`: an ordinary byte (R101). -/
def cellIdleRbrace (cfg : Config) (pd : PD) : CellOut := pd.showChar cfg chRbrace .idle

/-- Idle, other printable byte: the next character (R102). -/
def cellIdlePrintable (cfg : Config) (c : Byte) (pd : PD) : CellOut := pd.showChar cfg c .idle

/-- Idle, non-printable byte: an error (R103). -/
def cellIdleNonprintable (_cfg : Config) (_c : Byte) (_pd : PD) : CellOut := CellOut.raise .parseError

/-- TokenStart, byte `0x7B`: the first byte of a token (R104). -/
def cellTokenStartLbrace (cfg : Config) (pd : PD) : CellOut := PD.buffer cfg.tokenMax { pd with tlen := 0 } chLbrace .token

/-- TokenStart, byte `0x21`: starts an underline run (R105). -/
def cellTokenStartBang (_cfg : Config) (pd : PD) : CellOut := pd.goTo .underline

/-- TokenStart, byte `0x7D`: an empty token (R106). -/
def cellTokenStartRbrace (_cfg : Config) (pd : PD) : CellOut := PD.closeToken { pd with tlen := 0 }

/-- TokenStart, other printable byte: the first byte of a token (R107). -/
def cellTokenStartPrintable (cfg : Config) (c : Byte) (pd : PD) : CellOut := PD.buffer cfg.tokenMax { pd with tlen := 0 } c .token

/-- TokenStart, non-printable byte: the first byte of a token (R108). -/
def cellTokenStartNonprintable (cfg : Config) (c : Byte) (pd : PD) : CellOut := PD.buffer cfg.tokenMax { pd with tlen := 0 } c .token

/-- Token, byte `0x7B`: token text (R109). -/
def cellTokenLbrace (cfg : Config) (pd : PD) : CellOut := PD.buffer cfg.tokenMax pd chLbrace .token

/-- Token, byte `0x21`: token text (R110). -/
def cellTokenBang (cfg : Config) (pd : PD) : CellOut := PD.buffer cfg.tokenMax pd chBang .token

/-- Token, byte `0x7D`: closes the token (R111). -/
def cellTokenRbrace (_cfg : Config) (pd : PD) : CellOut := pd.closeToken

/-- Token, other printable byte: token text (R112). -/
def cellTokenPrintable (cfg : Config) (c : Byte) (pd : PD) : CellOut := PD.buffer cfg.tokenMax pd c .token

/-- Token, non-printable byte: token text (R113). -/
def cellTokenNonprintable (cfg : Config) (c : Byte) (pd : PD) : CellOut := PD.buffer cfg.tokenMax pd c .token

/-- Underline, byte `0x7B`: an ordinary byte (R114). -/
def cellUnderlineLbrace (cfg : Config) (pd : PD) : CellOut := pd.showUnderlined cfg chLbrace .underline

/-- Underline, byte `0x21`: nothing to underline (R115). -/
def cellUnderlineBang (_cfg : Config) (_pd : PD) : CellOut := CellOut.raise .parseError

/-- Underline, byte `0x7D`: ends the underline run (R116). -/
def cellUnderlineRbrace (_cfg : Config) (pd : PD) : CellOut := pd.goTo .idle

/-- Underline, other printable byte: an underlined character (R117). -/
def cellUnderlinePrintable (cfg : Config) (c : Byte) (pd : PD) : CellOut := pd.showUnderlined cfg c .underline

/-- Underline, non-printable byte: an error (R118). -/
def cellUnderlineNonprintable (_cfg : Config) (_c : Byte) (_pd : PD) : CellOut := CellOut.raise .parseError

/-- One transition over the byte `c`: the byte is consumed, then the cell for (`pd.state`, class of `c`) acts (R87, R88). -/
def PD.transition (cfg : Config) (pd : PD) (c : Byte) : CellOut :=
  match pd.state, classOf cfg c with
  | .start, .lbrace => cellStartLbrace cfg pd.consume
  | .start, .bang => cellStartBang cfg pd.consume
  | .start, .rbrace => cellStartRbrace cfg pd.consume
  | .start, .printable => cellStartPrintable cfg c pd.consume
  | .start, .nonprintable => cellStartNonprintable cfg c pd.consume
  | .idle, .lbrace => cellIdleLbrace cfg pd.consume
  | .idle, .bang => cellIdleBang cfg pd.consume
  | .idle, .rbrace => cellIdleRbrace cfg pd.consume
  | .idle, .printable => cellIdlePrintable cfg c pd.consume
  | .idle, .nonprintable => cellIdleNonprintable cfg c pd.consume
  | .tokenStart, .lbrace => cellTokenStartLbrace cfg pd.consume
  | .tokenStart, .bang => cellTokenStartBang cfg pd.consume
  | .tokenStart, .rbrace => cellTokenStartRbrace cfg pd.consume
  | .tokenStart, .printable => cellTokenStartPrintable cfg c pd.consume
  | .tokenStart, .nonprintable => cellTokenStartNonprintable cfg c pd.consume
  | .token, .lbrace => cellTokenLbrace cfg pd.consume
  | .token, .bang => cellTokenBang cfg pd.consume
  | .token, .rbrace => cellTokenRbrace cfg pd.consume
  | .token, .printable => cellTokenPrintable cfg c pd.consume
  | .token, .nonprintable => cellTokenNonprintable cfg c pd.consume
  | .underline, .lbrace => cellUnderlineLbrace cfg pd.consume
  | .underline, .bang => cellUnderlineBang cfg pd.consume
  | .underline, .rbrace => cellUnderlineRbrace cfg pd.consume
  | .underline, .printable => cellUnderlinePrintable cfg c pd.consume
  | .underline, .nonprintable => cellUnderlineNonprintable cfg c pd.consume

/-! ### The operations -/

/-- The scan over the argument (R87): transitions until one ends the operation, else the end of input (R90). -/
def PD.scan (cfg : Config) (pd : PD) : List Byte → Response
  | [] => pd.finish cfg
  | c :: cs =>
    match pd.transition cfg c with
    | .go pd => PD.scan cfg pd cs
    | .raise k => .err k
    | .stop pd => .ok (.bitmaps pd.result)

/-- `decode(argument, tubeCount)` (R87). -/
def PD.decode (cfg : Config) (pd : PD) (argument : List Byte) (tubeCount : Nat) : Response :=
  (pd.begin tubeCount).scan cfg argument

/-- `PD.DECODE argument, tubeCount` (R87): the array is in the response and nowhere else afterwards (R31, R155). -/
def execPdDecode (argument : List Byte) (tubeCount : Nat) (s : State) : Host.Outcome State Fault Refusal :=
  .next (s.endScan (s.pd.decode s.cfg argument tubeCount))

/-- `PD.TOKEN text` (R121), for a text of any length (log entry 13), its bytes judged by value (log entry 18). -/
def execPdToken (text : List Byte) (s : State) : Host.Outcome State Fault Refusal :=
  .next (s.returnToken (tokenValue text))

/-- TOKEN.HEX.lower: the token text `0x` and then `digits` (R121, R122). -/
def execTokenHexLower (digits : List Byte) (s : State) : Host.Outcome State Fault Refusal :=
  .next (s.returnToken (hexValue digits))

/-- TOKEN.HEX.upper: the token text `0X` and then `digits` (R121, R122). -/
def execTokenHexUpper (digits : List Byte) (s : State) : Host.Outcome State Fault Refusal :=
  .next (s.returnToken (hexValue digits))

/-- TOKEN.BIN.lower: the token text `0b` and then `digits` (R121, R123). -/
def execTokenBinLower (digits : List Byte) (s : State) : Host.Outcome State Fault Refusal :=
  .next (s.returnToken (binValue digits))

/-- TOKEN.BIN.upper: the token text `0B` and then `digits` (R121, R123). -/
def execTokenBinUpper (digits : List Byte) (s : State) : Host.Outcome State Fault Refusal :=
  .next (s.returnToken (binValue digits))

/-! ### The cells as instructions -/

/-- One PD row as an instruction (log entry 10): it acts where R88 selects it, in its own state and on a byte of its own
class. -/
def runCell (st : PdState) (k : ByteClass) (c : Byte) (cell : Config → PD → CellOut) (s : State) :
    Host.Outcome State Fault Refusal :=
  if s.pd.state = st ∧ classOf s.cfg c = k then .next (s.settle (cell s.cfg s.pd.consume))
  else .refused .cellNotSelected

/-- PD row (R94). -/
def execPdStartLbrace (s : State) : Host.Outcome State Fault Refusal :=
  runCell .start .lbrace chLbrace cellStartLbrace s

/-- PD row (R95). -/
def execPdStartBang (s : State) : Host.Outcome State Fault Refusal :=
  runCell .start .bang chBang cellStartBang s

/-- PD row (R96). -/
def execPdStartRbrace (s : State) : Host.Outcome State Fault Refusal :=
  runCell .start .rbrace chRbrace cellStartRbrace s

/-- PD row (R97). -/
def execPdStartPrintable (c : Byte) (s : State) : Host.Outcome State Fault Refusal :=
  runCell .start .printable c (fun cfg pd => cellStartPrintable cfg c pd) s

/-- PD row (R98). -/
def execPdStartNonprintable (c : Byte) (s : State) : Host.Outcome State Fault Refusal :=
  runCell .start .nonprintable c (fun cfg pd => cellStartNonprintable cfg c pd) s

/-- PD row (R99). -/
def execPdIdleLbrace (s : State) : Host.Outcome State Fault Refusal :=
  runCell .idle .lbrace chLbrace cellIdleLbrace s

/-- PD row (R100). -/
def execPdIdleBang (s : State) : Host.Outcome State Fault Refusal :=
  runCell .idle .bang chBang cellIdleBang s

/-- PD row (R101). -/
def execPdIdleRbrace (s : State) : Host.Outcome State Fault Refusal :=
  runCell .idle .rbrace chRbrace cellIdleRbrace s

/-- PD row (R102). -/
def execPdIdlePrintable (c : Byte) (s : State) : Host.Outcome State Fault Refusal :=
  runCell .idle .printable c (fun cfg pd => cellIdlePrintable cfg c pd) s

/-- PD row (R103). -/
def execPdIdleNonprintable (c : Byte) (s : State) : Host.Outcome State Fault Refusal :=
  runCell .idle .nonprintable c (fun cfg pd => cellIdleNonprintable cfg c pd) s

/-- PD row (R104). -/
def execPdTokenStartLbrace (s : State) : Host.Outcome State Fault Refusal :=
  runCell .tokenStart .lbrace chLbrace cellTokenStartLbrace s

/-- PD row (R105). -/
def execPdTokenStartBang (s : State) : Host.Outcome State Fault Refusal :=
  runCell .tokenStart .bang chBang cellTokenStartBang s

/-- PD row (R106). -/
def execPdTokenStartRbrace (s : State) : Host.Outcome State Fault Refusal :=
  runCell .tokenStart .rbrace chRbrace cellTokenStartRbrace s

/-- PD row (R107). -/
def execPdTokenStartPrintable (c : Byte) (s : State) : Host.Outcome State Fault Refusal :=
  runCell .tokenStart .printable c (fun cfg pd => cellTokenStartPrintable cfg c pd) s

/-- PD row (R108). -/
def execPdTokenStartNonprintable (c : Byte) (s : State) : Host.Outcome State Fault Refusal :=
  runCell .tokenStart .nonprintable c (fun cfg pd => cellTokenStartNonprintable cfg c pd) s

/-- PD row (R109). -/
def execPdTokenLbrace (s : State) : Host.Outcome State Fault Refusal :=
  runCell .token .lbrace chLbrace cellTokenLbrace s

/-- PD row (R110). -/
def execPdTokenBang (s : State) : Host.Outcome State Fault Refusal :=
  runCell .token .bang chBang cellTokenBang s

/-- PD row (R111). -/
def execPdTokenRbrace (s : State) : Host.Outcome State Fault Refusal :=
  runCell .token .rbrace chRbrace cellTokenRbrace s

/-- PD row (R112). -/
def execPdTokenPrintable (c : Byte) (s : State) : Host.Outcome State Fault Refusal :=
  runCell .token .printable c (fun cfg pd => cellTokenPrintable cfg c pd) s

/-- PD row (R113). -/
def execPdTokenNonprintable (c : Byte) (s : State) : Host.Outcome State Fault Refusal :=
  runCell .token .nonprintable c (fun cfg pd => cellTokenNonprintable cfg c pd) s

/-- PD row (R114). -/
def execPdUnderlineLbrace (s : State) : Host.Outcome State Fault Refusal :=
  runCell .underline .lbrace chLbrace cellUnderlineLbrace s

/-- PD row (R115). -/
def execPdUnderlineBang (s : State) : Host.Outcome State Fault Refusal :=
  runCell .underline .bang chBang cellUnderlineBang s

/-- PD row (R116). -/
def execPdUnderlineRbrace (s : State) : Host.Outcome State Fault Refusal :=
  runCell .underline .rbrace chRbrace cellUnderlineRbrace s

/-- PD row (R117). -/
def execPdUnderlinePrintable (c : Byte) (s : State) : Host.Outcome State Fault Refusal :=
  runCell .underline .printable c (fun cfg pd => cellUnderlinePrintable cfg c pd) s

/-- PD row (R118). -/
def execPdUnderlineNonprintable (c : Byte) (s : State) : Host.Outcome State Fault Refusal :=
  runCell .underline .nonprintable c (fun cfg pd => cellUnderlineNonprintable cfg c pd) s

end Sys2Proof.Machine
end

