-- ==== Sys2Proof/Machine/SegEncoder.lean ====
section
/-!
DEFINITION. The five operations of the SegmentEncoder (40_segment_encoder.md). All are pure: they read the table and write
nothing but the response.
-/

namespace Sys2Proof.Machine

/-- `SE.DECODE c` (R73). -/
def execSeDecode (c : Byte) (s : State) : Host.Outcome State Fault Refusal :=
  .next (s.succeed (.code (segDecode s.cfg c)))

/-- `SE.ISPRINT c` (R74). -/
def execSeIsPrint (c : Byte) (s : State) : Host.Outcome State Fault Refusal :=
  .next (s.succeed (.boolean (segDecode s.cfg c).isSome))

/-- `SE.WITHUL b` (R75); every 16-bit value is an operand, the sentinel too (D11). -/
def execSeWithUl (b : Bitmap) (s : State) : Host.Outcome State Fault Refusal :=
  .next (s.succeed (.bitmap (withUnderline b)))

/-- `SE.WITHCOLON b` (R76); every 16-bit value is an operand, the sentinel too (D11). -/
def execSeWithColon (b : Bitmap) (s : State) : Host.Outcome State Fault Refusal :=
  .next (s.succeed (.bitmap (withColon b)))

/-- `SE.DECODEUL c` (R77, D10). -/
def execSeDecodeUl (c : Byte) (s : State) : Host.Outcome State Fault Refusal :=
  .next (s.succeed (.code16 (segDecodeUnderlined s.cfg c)))

end Sys2Proof.Machine
end

