-- ==== Sys2Proof/Machine/System.lean ====
section
/-!
DEFINITION. What belongs to no single unit (44_system.md): `RESET`, the reserved codes, and the line pipeline.
-/

namespace Sys2Proof.Machine

/-- `RESET` (R125): the empty buffer; PD, SE and CP are not affected. -/
def execReset (s : State) : Host.Outcome State Fault Refusal :=
  .next ((s.setCb s.cb.clear).succeed .done)

/-- Code `0xE` selects no operation: all state unchanged, no result returned (R126). -/
def execReservedE (s : State) : Host.Outcome State Fault Refusal :=
  .next (s.respond none)

/-- Code `0xF` selects no operation: all state unchanged, no result returned (R126). -/
def execReservedF (s : State) : Host.Outcome State Fault Refusal :=
  .next (s.respond none)

/-- The dispatch step after `CP.PARSE`: exactly one argument, which is decoded (R128, D20), as by `PD.DECODE`. -/
def dispatchPrint (cfg : Config) (pd : PD) (parsed : Response) (tubeCount : Nat) : PD × Response :=
  match parsed with
  | .ok (.print [argument]) => (PD.rest cfg, pd.decode cfg argument tubeCount)
  | .ok _ => (pd, .err .wrongNumArgs)
  | .err k => (pd, .err k)

/-- The stages after `CB.EXTRACT`: a delivered command is parsed and dispatched, any other outcome is the result (R128). -/
def lineStages (cfg : Config) (pd : PD) (extracted : Response) (tubeCount : Nat) : PD × Response :=
  match extracted with
  | .ok (.command cmd) => dispatchPrint cfg pd (parseCommand cfg.maxArgs cmd) tubeCount
  | r => (pd, r)

/-- The line pipeline on the whole state (R128). -/
def linePipeline (destCapacity tubeCount : Nat) (s : State) : State :=
  let extracted := s.cb.extract s.cfg.cap destCapacity
  let staged := lineStages s.cfg s.pd extracted.2 tubeCount
  ((s.setCb extracted.1).setPd staged.1).respond (some staged.2)

/-- `LINE destCapacity, tubeCount` (R128), the host's composite as one operation (log entry 12). -/
def execLine (destCapacity tubeCount : Nat) (s : State) : Host.Outcome State Fault Refusal :=
  .next (linePipeline destCapacity tubeCount s)

end Sys2Proof.Machine
end

