-- ==== Sys2Proof/Machine/Dispatch.lean ====
section
/-!
DEFINITION. One arm per constructor of Instr, each one direct call of the instruction's own meaning.
-/

namespace Sys2Proof.Machine

def exec (i : Instr) (s : State) : Host.Outcome State Fault Refusal :=
  match i with
  | .seDecode c => Sys2Proof.Machine.execSeDecode c s
  | .seIsPrint c => Sys2Proof.Machine.execSeIsPrint c s
  | .seWithUl b => Sys2Proof.Machine.execSeWithUl b s
  | .seWithColon b => Sys2Proof.Machine.execSeWithColon b s
  | .seDecodeUl c => Sys2Proof.Machine.execSeDecodeUl c s
  | .cbAppend bytes => Sys2Proof.Machine.execCbAppend bytes s
  | .cbPendLen => Sys2Proof.Machine.execCbPendLen s
  | .cbHasCmd => Sys2Proof.Machine.execCbHasCmd s
  | .cbCmdLen => Sys2Proof.Machine.execCbCmdLen s
  | .cbExtract destCapacity => Sys2Proof.Machine.execCbExtract destCapacity s
  | .pdDecode argument tubeCount => Sys2Proof.Machine.execPdDecode argument tubeCount s
  | .pdToken text => Sys2Proof.Machine.execPdToken text s
  | .cpParse cmd => Sys2Proof.Machine.execCpParse cmd s
  | .reset => Sys2Proof.Machine.execReset s
  | .reservedE => Sys2Proof.Machine.execReservedE s
  | .reservedF => Sys2Proof.Machine.execReservedF s
  | .cbAppendB b => Sys2Proof.Machine.execCbAppendB b s
  | .line destCapacity tubeCount => Sys2Proof.Machine.execLine destCapacity tubeCount s
  | .pdStartLbrace => Sys2Proof.Machine.execPdStartLbrace s
  | .pdStartBang => Sys2Proof.Machine.execPdStartBang s
  | .pdStartRbrace => Sys2Proof.Machine.execPdStartRbrace s
  | .pdStartPrintable c => Sys2Proof.Machine.execPdStartPrintable c s
  | .pdStartNonprintable c => Sys2Proof.Machine.execPdStartNonprintable c s
  | .pdIdleLbrace => Sys2Proof.Machine.execPdIdleLbrace s
  | .pdIdleBang => Sys2Proof.Machine.execPdIdleBang s
  | .pdIdleRbrace => Sys2Proof.Machine.execPdIdleRbrace s
  | .pdIdlePrintable c => Sys2Proof.Machine.execPdIdlePrintable c s
  | .pdIdleNonprintable c => Sys2Proof.Machine.execPdIdleNonprintable c s
  | .pdTokenStartLbrace => Sys2Proof.Machine.execPdTokenStartLbrace s
  | .pdTokenStartBang => Sys2Proof.Machine.execPdTokenStartBang s
  | .pdTokenStartRbrace => Sys2Proof.Machine.execPdTokenStartRbrace s
  | .pdTokenStartPrintable c => Sys2Proof.Machine.execPdTokenStartPrintable c s
  | .pdTokenStartNonprintable c => Sys2Proof.Machine.execPdTokenStartNonprintable c s
  | .pdTokenLbrace => Sys2Proof.Machine.execPdTokenLbrace s
  | .pdTokenBang => Sys2Proof.Machine.execPdTokenBang s
  | .pdTokenRbrace => Sys2Proof.Machine.execPdTokenRbrace s
  | .pdTokenPrintable c => Sys2Proof.Machine.execPdTokenPrintable c s
  | .pdTokenNonprintable c => Sys2Proof.Machine.execPdTokenNonprintable c s
  | .pdUnderlineLbrace => Sys2Proof.Machine.execPdUnderlineLbrace s
  | .pdUnderlineBang => Sys2Proof.Machine.execPdUnderlineBang s
  | .pdUnderlineRbrace => Sys2Proof.Machine.execPdUnderlineRbrace s
  | .pdUnderlinePrintable c => Sys2Proof.Machine.execPdUnderlinePrintable c s
  | .pdUnderlineNonprintable c => Sys2Proof.Machine.execPdUnderlineNonprintable c s
  | .tokenHexLower digits => Sys2Proof.Machine.execTokenHexLower digits s
  | .tokenHexUpper digits => Sys2Proof.Machine.execTokenHexUpper digits s
  | .tokenBinLower digits => Sys2Proof.Machine.execTokenBinLower digits s
  | .tokenBinUpper digits => Sys2Proof.Machine.execTokenBinUpper digits s
  | .wireCr => Sys2Proof.Machine.execWireCr s
  | .wireLf => Sys2Proof.Machine.execWireLf s
  | .wireColon => Sys2Proof.Machine.execWireColon s

end Sys2Proof.Machine
end

