-- ==== Sys2Proof/WellFormed.lean ====
section
/-!
DEFINITION. Which terms of `Instr` stand for words of the spec under a configuration: a reserved code selects no operation
(R126), and a PRINTABLE or NONPRINTABLE row holds a byte of that class (R66, opcode_table.json). Every other operand may
have any value.
-/

namespace Sys2Proof

/-- The byte operand of a row belongs to the row's class (R66). -/
def classIs (cfg : Config) (c : Byte) (k : ByteClass) : Bool := Machine.classOf cfg c == k

/-- The check, row by row. -/
def wellFormed (cfg : Config) : Instr → Bool
  | .reservedE | .reservedF => false
  | .pdStartPrintable c | .pdIdlePrintable c | .pdTokenStartPrintable c | .pdTokenPrintable c
  | .pdUnderlinePrintable c => classIs cfg c .printable
  | .pdStartNonprintable c | .pdIdleNonprintable c | .pdTokenStartNonprintable c | .pdTokenNonprintable c
  | .pdUnderlineNonprintable c => classIs cfg c .nonprintable
  | .pdStartLbrace | .pdStartBang | .pdStartRbrace | .pdIdleLbrace | .pdIdleBang | .pdIdleRbrace
  | .pdTokenStartLbrace | .pdTokenStartBang | .pdTokenStartRbrace | .pdTokenLbrace | .pdTokenBang | .pdTokenRbrace
  | .pdUnderlineLbrace | .pdUnderlineBang | .pdUnderlineRbrace => true
  | .seDecode _ | .seIsPrint _ | .seWithUl _ | .seWithColon _ | .seDecodeUl _ => true
  | .cbAppend _ | .cbPendLen | .cbHasCmd | .cbCmdLen | .cbExtract _ | .cbAppendB _ => true
  | .pdDecode _ _ | .pdToken _ | .cpParse _ | .reset | .line _ _ => true
  | .tokenHexLower _ | .tokenHexUpper _ | .tokenBinLower _ | .tokenBinUpper _ => true
  | .wireCr | .wireLf | .wireColon => true

end Sys2Proof
end

