-- ==== Sys2Proof/Decode.lean ====
section
/-!
DEFINITION. The decoder, total on what any port presents, and the encoder. One record of the HOST port is a 4-bit `op` and
its operands (R67, R68); the spec fixes no layout beyond `op` and the widths of bytes and bitmaps, so the rest is the
model's (log entry 5): nibbles from bit 0 upward, a byte as two nibbles, a bitmap as four, a natural number as base-8
digits, least significant first, bit 3 of a nibble saying that another digit follows.
-/

namespace Sys2Proof

/-- What the decoder reads. -/
inductive Decoded where
  /-- An instruction, and the rest of the host's stream. -/
  | instr (i : Instr) (rest : List Nibble)
  /-- Refused by name: a reserved operation code (R126), and the rest of the stream. -/
  | reserved (op : Nibble) (rest : List Nibble)
  /-- Refused by name: the record ends inside its operands. -/
  | truncated
deriving DecidableEq, Repr

/-! ### Reading operands -/

/-- A byte, low nibble first. -/
def takeByte : List Nibble → Option (Byte × List Nibble)
  | lo :: hi :: ns => some (hi ++ lo, ns)
  | _ => none

/-- A bitmap, low byte first. -/
def takeBitmap (ns : List Nibble) : Option (Bitmap × List Nibble) :=
  match takeByte ns with
  | some (lo, ns) =>
    match takeByte ns with
    | some (hi, ns) => some (hi ++ lo, ns)
    | none => none
  | none => none

/-- A natural number, base-8 digits, least significant first; bit 3 says that another digit follows. -/
def takeNat : List Nibble → Option (Nat × List Nibble)
  | [] => none
  | d :: ns =>
    if d.toNat < 8 then some (d.toNat, ns)
    else
      match takeNat ns with
      | some (m, ns) => some (d.toNat - 8 + 8 * m, ns)
      | none => none

/-- `n` bytes. -/
def takeBytes : Nat → List Nibble → Option (List Byte × List Nibble)
  | 0, ns => some ([], ns)
  | n + 1, ns =>
    match takeByte ns with
    | some (b, ns) =>
      match takeBytes n ns with
      | some (bs, ns) => some (b :: bs, ns)
      | none => none
    | none => none

/-- A byte string: its length, then that many bytes (R67). -/
def takeString (ns : List Nibble) : Option (List Byte × List Nibble) :=
  match takeNat ns with
  | some (n, ns) => takeBytes n ns
  | none => none

/-- An instruction of the operand read, or a truncated record. -/
def Decoded.ofOperand {α : Type} (mk : α → Instr) : Option (α × List Nibble) → Decoded
  | some (a, ns) => .instr (mk a) ns
  | none => .truncated

/-! ### The decoders of the ports -/

/-- HOST: one request record (R67, R68); codes `0xE` and `0xF` are refused by name (R126). -/
def decodeHost : List Nibble → Decoded
  | [] => .truncated
  | op :: ns =>
    match op.toNat with
    | 0x0 => .ofOperand .seDecode (takeByte ns)
    | 0x1 => .ofOperand .seIsPrint (takeByte ns)
    | 0x2 => .ofOperand .seWithUl (takeBitmap ns)
    | 0x3 => .ofOperand .seWithColon (takeBitmap ns)
    | 0x4 => .ofOperand .seDecodeUl (takeByte ns)
    | 0x5 => .ofOperand .cbAppend (takeString ns)
    | 0x6 => .instr .cbPendLen ns
    | 0x7 => .instr .cbHasCmd ns
    | 0x8 => .instr .cbCmdLen ns
    | 0x9 => .ofOperand .cbExtract (takeNat ns)
    | 0xA =>
      match takeString ns with
      | some (argument, ns) => .ofOperand (.pdDecode argument) (takeNat ns)
      | none => .truncated
    | 0xB => .ofOperand .pdToken (takeString ns)
    | 0xC => .ofOperand .cpParse (takeString ns)
    | 0xD => .instr .reset ns
    | _ => .reserved op ns

/-- PD: the row that R88 selects for a byte in a state, by the byte's class (R66). -/
def decodePd (cfg : Config) (st : PdState) (c : Byte) : Instr :=
  match st, Machine.classOf cfg c with
  | .start, .lbrace => .pdStartLbrace
  | .start, .bang => .pdStartBang
  | .start, .rbrace => .pdStartRbrace
  | .start, .printable => .pdStartPrintable c
  | .start, .nonprintable => .pdStartNonprintable c
  | .idle, .lbrace => .pdIdleLbrace
  | .idle, .bang => .pdIdleBang
  | .idle, .rbrace => .pdIdleRbrace
  | .idle, .printable => .pdIdlePrintable c
  | .idle, .nonprintable => .pdIdleNonprintable c
  | .tokenStart, .lbrace => .pdTokenStartLbrace
  | .tokenStart, .bang => .pdTokenStartBang
  | .tokenStart, .rbrace => .pdTokenStartRbrace
  | .tokenStart, .printable => .pdTokenStartPrintable c
  | .tokenStart, .nonprintable => .pdTokenStartNonprintable c
  | .token, .lbrace => .pdTokenLbrace
  | .token, .bang => .pdTokenBang
  | .token, .rbrace => .pdTokenRbrace
  | .token, .printable => .pdTokenPrintable c
  | .token, .nonprintable => .pdTokenNonprintable c
  | .underline, .lbrace => .pdUnderlineLbrace
  | .underline, .bang => .pdUnderlineBang
  | .underline, .rbrace => .pdUnderlineRbrace
  | .underline, .printable => .pdUnderlinePrintable c
  | .underline, .nonprintable => .pdUnderlineNonprintable c

/-- TOKEN: the row of the text's first two bytes (R63); a text with no valid ones is `PD.TOKEN`'s to reject (R121). -/
def decodeToken (text : List Byte) : Instr :=
  match text with
  | z :: base :: digits =>
    if z = 0x30 ∧ base = 0x78 then .tokenHexLower digits
    else if z = 0x30 ∧ base = 0x58 then .tokenHexUpper digits
    else if z = 0x30 ∧ base = 0x62 then .tokenBinLower digits
    else if z = 0x30 ∧ base = 0x42 then .tokenBinUpper digits
    else .pdToken text
  | _ => .pdToken text

/-- WIRE: the rows of the three bytes with a role (R57, R124); any other byte is a one-byte chunk (R72). -/
def decodeWire (b : Byte) : Instr :=
  if b = Machine.chCr then .wireCr
  else if b = Machine.chLf then .wireLf
  else if b = Machine.chColon then .wireColon
  else .cbAppendB b

/-- The decoder: what port a thing arrives at gives its format. -/
def decode (cfg : Config) (st : PdState) : Fetch → Decoded
  | .host ns => decodeHost ns
  | .line destCapacity tubeCount => .instr (.line destCapacity tubeCount) []
  | .pd c => .instr (decodePd cfg st c) []
  | .token text => .instr (decodeToken text) []
  | .wire b => .instr (decodeWire b) []

/-! ### The encoder -/

/-- A byte as two nibbles, the low one first. -/
def byteNibbles (b : Byte) : List Nibble := [b.extractLsb' 0 4, b.extractLsb' 4 4]

/-- A bitmap as four nibbles, the low one first. -/
def bitmapNibbles (b : Bitmap) : List Nibble := byteNibbles (b.extractLsb' 0 8) ++ byteNibbles (b.extractLsb' 8 8)

/-- The base-8 digits of `n`, at most `fuel + 1` of them. -/
def natDigits : Nat → Nat → List Nibble
  | 0, n => [BitVec.ofNat 4 (n % 8)]
  | fuel + 1, n => if n < 8 then [BitVec.ofNat 4 n] else BitVec.ofNat 4 (n % 8 + 8) :: natDigits fuel (n / 8)

/-- A natural number; `n` digits are enough. -/
def natNibbles (n : Nat) : List Nibble := natDigits n n

/-- Bytes, one after the other. -/
def bytesNibbles (bs : List Byte) : List Nibble := bs.flatMap byteNibbles

/-- A byte string: its length, then the bytes (R67). -/
def stringNibbles (bs : List Byte) : List Nibble := natNibbles bs.length ++ bytesNibbles bs

/-- The words of an instruction, at the port of its format. -/
def encode : Instr → Fetch
  | .seDecode c => .host (0x0 :: byteNibbles c)
  | .seIsPrint c => .host (0x1 :: byteNibbles c)
  | .seWithUl b => .host (0x2 :: bitmapNibbles b)
  | .seWithColon b => .host (0x3 :: bitmapNibbles b)
  | .seDecodeUl c => .host (0x4 :: byteNibbles c)
  | .cbAppend bytes => .host (0x5 :: stringNibbles bytes)
  | .cbPendLen => .host [0x6]
  | .cbHasCmd => .host [0x7]
  | .cbCmdLen => .host [0x8]
  | .cbExtract destCapacity => .host (0x9 :: natNibbles destCapacity)
  | .pdDecode argument tubeCount => .host (0xA :: (stringNibbles argument ++ natNibbles tubeCount))
  | .pdToken text => .host (0xB :: stringNibbles text)
  | .cpParse cmd => .host (0xC :: stringNibbles cmd)
  | .reset => .host [0xD]
  | .reservedE => .host [0xE]
  | .reservedF => .host [0xF]
  | .cbAppendB b => .host (0x5 :: stringNibbles [b])
  | .line destCapacity tubeCount => .line destCapacity tubeCount
  | .pdStartLbrace | .pdIdleLbrace | .pdTokenStartLbrace | .pdTokenLbrace | .pdUnderlineLbrace => .pd 0x7B
  | .pdStartBang | .pdIdleBang | .pdTokenStartBang | .pdTokenBang | .pdUnderlineBang => .pd 0x21
  | .pdStartRbrace | .pdIdleRbrace | .pdTokenStartRbrace | .pdTokenRbrace | .pdUnderlineRbrace => .pd 0x7D
  | .pdStartPrintable c | .pdIdlePrintable c | .pdTokenStartPrintable c | .pdTokenPrintable c
  | .pdUnderlinePrintable c => .pd c
  | .pdStartNonprintable c | .pdIdleNonprintable c | .pdTokenStartNonprintable c | .pdTokenNonprintable c
  | .pdUnderlineNonprintable c => .pd c
  | .tokenHexLower digits => .token (0x30 :: 0x78 :: digits)
  | .tokenHexUpper digits => .token (0x30 :: 0x58 :: digits)
  | .tokenBinLower digits => .token (0x30 :: 0x62 :: digits)
  | .tokenBinUpper digits => .token (0x30 :: 0x42 :: digits)
  | .wireCr => .wire 0x0D
  | .wireLf => .wire 0x0A
  | .wireColon => .wire 0x3A

/-- The core instruction an instruction's words stand for: `CB.APPENDB b` is another spelling of `CB.APPEND [b]` (R72). -/
def Instr.core : Instr → Instr
  | .cbAppendB b => .cbAppend [b]
  | i => i

/-! ### Words as opcode_table.json numbers them -/

/-- `n` nibbles of a word, from bit 0 upward. -/
def wordNibbles : Nat → Nat → List Nibble
  | 0, _ => []
  | n + 1, w => BitVec.ofNat 4 w :: wordNibbles n (w / 16)

/-- The stream without the zeros that follow its first record. -/
def oneRecord (ns : List Nibble) : List Nibble :=
  match decodeHost ns with
  | .instr _ rest => if rest.all (· == 0) then ns.take (ns.length - rest.length) else ns
  | .reserved _ rest => if rest.all (· == 0) then ns.take (ns.length - rest.length) else ns
  | .truncated => ns

/-- Where a table word is presented (log entry 15). The table numbers its five formats independently and a word does not
say which it has, so: 16 bits that open with the byte `0x30` are token text, first byte in bits 15:8 (the row's own
words); of the 8-bit words above the op codes, `0x3A` is a wire byte and the others are bytes of a print argument; every
other word is a request record, zero above its `nbits` bits; the zeros beyond the record are left off. -/
def fetchOfWord (nbits w : Nat) : Fetch :=
  if nbits = 16 ∧ w / 256 = 0x30 then .token [BitVec.ofNat 8 (w / 256), BitVec.ofNat 8 w]
  else if nbits = 8 ∧ w = 0x3A then .wire (BitVec.ofNat 8 w)
  else if nbits = 8 ∧ 16 ≤ w then .pd (BitVec.ofNat 8 w)
  else .host (oneRecord (wordNibbles ((nbits + 3) / 4) w ++ [0, 0, 0, 0]))

/-- The instruction the decoder reads from a table word, in the decoder's state after reset; `none` where it refuses. -/
def decodeTableWord (nbits w : Nat) : Option Instr :=
  match decode Config.device .start (fetchOfWord nbits w) with
  | .instr i _ => some i
  | .reserved _ _ => none
  | .truncated => none

end Sys2Proof
end

