-- ==== Sys2Proof/Machine/Fetch.lean ====
section
/-!
DEFINITION. Where the next operation comes from: the host presents operations one at a time, in order (R49), in the inbox
(log entry 6).
-/

namespace Sys2Proof.Machine

/-- What is there to be run. -/
inductive Fetched where
  /-- Nothing is presented: NDCORE does not act on its own (R5). -/
  | idle
  /-- An instruction, and the state with it taken off the inbox. -/
  | run (i : Instr) (s : State)
  /-- Nothing the spec gives a meaning. -/
  | refuse (r : Refusal)
deriving DecidableEq, Repr

/-- What is left of the port's item: the rest of a stream of request records goes on (R72). -/
def restOf : List Nibble → List Fetch
  | [] => []
  | n :: ns => [.host (n :: ns)]

/-- The state with the item at the head of the inbox replaced by what is left of it, and one more operation counted. -/
def State.advance (s : State) (rest : List Nibble) : State :=
  { s with inbox := restOf rest ++ s.inbox.tail, opCount := s.opCount + 1 }

/-- The row of a reserved code, which the decoder refuses by name; the hardware does nothing for it (R126, log entry 7). -/
def reservedRow (op : Nibble) : Instr := if op = 0xE then .reservedE else .reservedF

/-- The next operation. -/
def fetchNext (s : State) : Fetched :=
  match s.inbox with
  | [] => .idle
  | item :: _ =>
    match decode s.cfg s.pd.state item with
    | .instr i rest => .run i (s.advance rest)
    | .reserved op rest => .run (reservedRow op) (s.advance rest)
    | .truncated => .refuse .truncatedRequest

/-- The table word of `nbits` bits presented as the next thing to be run, before whatever waits already. -/
def State.present (s : State) (nbits w : Nat) : State :=
  { s with inbox := fetchOfWord nbits w :: s.inbox }

end Sys2Proof.Machine
end

