-- ==== Sys2Proof/Machine/Step.lean ====
section
/-!
DEFINITION. One step: the next operation presented is run to completion (R4, R49); with nothing presented, no state changes
(R5).
-/

namespace Sys2Proof.Machine

/-- One step. -/
def step (s : State) : Host.Outcome State Fault Refusal :=
  match fetchNext s with
  | .idle => .next s
  | .run i t => exec i t
  | .refuse r => .refused r

/-- The table word presented as the next operation (log entries 6, 15). -/
def State.withFetchWord (s : State) (nbits w : Nat) : State := s.present nbits w

end Sys2Proof.Machine
end

