-- ==== Sys2Proof/Machine/Flags.lean ====
section
/-!
DEFINITION. NDCORE has no flags register and no sticky status (R36): every condition is reported in the response of the
operation that met it. This file is that report as it stands on the response port: the 4-bit status (R67, R129) and the
results (R59, R67, R82).
-/

namespace Sys2Proof.Machine

/-- The status code of an error kind (R129, D3). -/
def ErrKind.status : ErrKind → Nibble
  | .bufferOverrun => 1
  | .bufOverrun => 2
  | .noopCommand => 3
  | .badCommand => 4
  | .tooManyArgs => 5
  | .wrongNumArgs => 6
  | .parseError => 7
  | .tokenError => 8

/-- The `status` field of a response; 0 is OK (R67, R129). -/
def Response.status : Response → Nibble
  | .ok _ => 0
  | .err k => k.status

/-- One field of the results on the port (R67). -/
inductive PortField where
  /-- A single bit: a Boolean, `nocode`, `ready`. -/
  | bit (b : Bool)
  /-- A 16-bit value. -/
  | word (b : Bitmap)
  /-- A natural number; its width depends on the parameters (R16, R67). -/
  | number (n : Nat)
  /-- The bytes of a byte string, after their number (R67). -/
  | bytes (bs : List Byte)
deriving DecidableEq, Repr

/-- `NOCODE`, the sentinel on the result ports of `SE.DECODE` and `SE.DECODEUL` only (R14, R59). -/
def noCodeSentinel : Bitmap := 0x3FFF

/-- A decode result on a port: `nocode` and a bitmap (R59, R77). -/
def segPort : Option Bitmap → List PortField
  | some v => [.bit false, .word v]
  | none => [.bit true, .word noCodeSentinel]

/-- The results on the port; `free` is what the port shows where the spec says any value will do (R82, U2). How an `Ok(0)`,
an array of bitmaps and an `Ok(Print, args)` (R124) stand there is the model's choice, the kind `Print` having no field
since it is the only one (log entry 19). -/
def Result.port (free : Nat) : Result → List PortField
  | .done => []
  | .code r => segPort (r.map codeBitmap)
  | .code16 r => segPort r
  | .boolean b => [.bit b]
  | .bitmap b => [.word b]
  | .number n => [.number n]
  | .cmdLen (some t) => [.bit true, .number t]
  | .cmdLen none => [.bit false, .number free]
  | .notReady => [.number 0]
  | .command cmd => [.number cmd.length, .bytes cmd]
  | .bitmaps out => out.map .word
  | .print args => .number args.length :: args.flatMap fun a => [.number a.length, .bytes a]

/-- A response on the port: the status, then the results; an error carries its kind only (R67, R129). -/
def Response.port (free : Nat) (r : Response) : Nibble × List PortField :=
  match r with
  | .ok v => (r.status, v.port free)
  | .err _ => (r.status, [])

/-- What the response port shows, if the last operation returned a response (log entries 6, 9). -/
def State.port (s : State) : Option (Nibble × List PortField) :=
  s.response.map (Response.port (Config.freeOffset s.opCount))

end Sys2Proof.Machine
end

