-- ==== Sys2Proof/Safety.lean ====
section
/-!
DEFINITION. What a good state and a safe step are: the ring invariant of R26, the ranges of the decoder's registers (R30), the
canonical form of the storage arrays, and an admissible configuration (R13). Also the abstract view of the CommandBuffer, a
list of unread bytes, in which 41_command_buffer.md gives every operation a second time (R28).
-/

namespace Sys2Proof.Machine

/-- The invariant of the CommandBuffer (R26), its byte store canonical and inside `0..CAP-1` (R40). -/
abbrev CB.Inv (cap : Nat) (cb : CB) : Prop :=
  cb.length ≤ cap ∧ cb.head < cap ∧ cb.tail < cap ∧ cb.tail = (cb.head + cb.length) % cap ∧
  Cells.Wf cb.mem ∧ ∀ x ∈ cb.mem, x.1 < cap

/-- The ranges of the print decoder's registers (R30), its arrays canonical, the token buffer inside `0..TOKEN_MAX-1`. -/
abbrev PD.Inv (tokenMax : Nat) (pd : PD) : Prop :=
  pd.n ≤ pd.tubeCount ∧ pd.tlen ≤ tokenMax ∧ Cells.Wf pd.tok ∧ Cells.Wf pd.out ∧ ∀ x ∈ pd.tok, x.1 < tokenMax

/-- A good state: every step keeps it. -/
abbrev State.Inv (s : State) : Prop :=
  s.cfg.Admissible ∧ s.cb.Inv s.cfg.cap ∧ s.pd.Inv s.cfg.tokenMax

/-- A safe step: it neither faults nor is refused, and it leaves a good state. -/
def SafeStep (s : State) : Prop := ∃ t, step s = .next t ∧ t.Inv

/-- The unread bytes of a state, oldest first (R28). -/
def State.unread (s : State) : List Byte := s.cb.unread s.cfg.cap

/-! ### The abstract CommandBuffer (R28) -/

/-- `trim2`: the first byte goes if it is a terminator, then the first of what is left (R84). -/
def trimOne : List Byte → List Byte
  | [] => []
  | b :: bs => if isTerm b then bs else b :: bs

/-- The abstract form of `Trim()` (R84). -/
def trim2 (u : List Byte) : List Byte := trimOne (trimOne u)

/-- The abstract form of `CB.APPEND` (R79). -/
def absAppend (cap : Nat) (u bytes : List Byte) : List Byte × Response :=
  if bytes.length + u.length > cap then ([], .err .bufferOverrun) else (u ++ bytes, .ok .done)

/-- The abstract form of `CB.EXTRACT` (R83). -/
def absExtract (u : List Byte) (destCapacity : Nat) : List Byte × Response :=
  match u.findIdx? isTerm with
  | none => (u, .ok .notReady)
  | some 0 => (trim2 u, .err .noopCommand)
  | some (t + 1) =>
    if t + 1 > destCapacity then (u, .err .bufOverrun)
    else (trim2 (u.drop (t + 1)), .ok (.command (u.take (t + 1))))

end Sys2Proof.Machine
end

