-- ==== Sys2Proof/Certificates/Slice0/Obligations.lean ====
section
/-!
DEFINITION. The statements for the provers. R<n> are the rules of spec/; D<n> its own decisions (92_eei_decisions.md); a
statement that rests on a decision of the spec or of this model says so. `s.succeed r`, `s.raise k`, `s.respond none` are
the state `s` with nothing changed but the response, so an equation with one of them is a frame as well.
-/

namespace Sys2Proof.Claims

open Sys2Proof.Machine

/-! ### Terms used in the statements, written from the spec -/

/-- No byte of the string is `\r` or `\n`. -/
def NoTerminator (u : List Byte) : Prop := ∀ b ∈ u, b ≠ 0x0D ∧ b ≠ 0x0A

/-- The byte is `\r` or `\n` (R57). -/
def Terminator (b : Byte) : Prop := b = 0x0D ∨ b = 0x0A

/-- The table gives the byte `c` the code `v` (R60). -/
def HasCode (cfg : Config) (c : Byte) (v : Code) : Prop :=
  0x20 ≤ c.toNat ∧ c.toNat ≤ 0x7F ∧ cfg.segTab[c.toNat - 0x20]? = some (some v)

/-- The byte `c` is no `0x7B`, `0x21` or `0x7D` (R66). -/
def Ordinary (c : Byte) : Prop := c ≠ 0x7B ∧ c ≠ 0x21 ∧ c ≠ 0x7D

/-- Everything but the CommandBuffer and the response is as before. -/
def SameButRing (s t : State) : Prop :=
  t.cfg = s.cfg ∧ t.pd = s.pd ∧ t.inbox = s.inbox ∧ t.opCount = s.opCount

/-- The decoder between two scans, nothing else changed: `Start`, counters 0, no cell of an array or a token left (R30, R31,
R155: not retained; log entry 3, and log entry 4 on `tubeCount`). -/
def atRest (s : State) : State :=
  s.setPd { state := .start, pos := 0, n := 0, tlen := 0, tok := [], out := [], tubeCount := s.cfg.numTubes }

/-- `Emit(v)` in the transition that consumes one byte, the next mode being `next` (R89): the array is full and the scan
stops, the array as it is being the result and the decoder at rest (log entries 3, 4), or `pd.out[pd.n] <- v` and
`pd.n <- pd.n + 1`, with no response yet (log entries 6, 10). -/
def emitted (s : State) (v : Bitmap) (next : PdState) : State :=
  if s.pd.n = s.pd.tubeCount then
    (atRest s).succeed (.bitmaps ((List.range s.pd.tubeCount).map fun i => Cells.read s.pd.out i))
  else
    (s.setPd { s.pd with
      pos := s.pd.pos + 1, out := Cells.write s.pd.out s.pd.n v, n := s.pd.n + 1, state := next }).respond none

/-- `Buffer(c)` in the transition that consumes one byte, `pd.tlen` being `tlen` before it, the next mode Token (R93): ParseError
and the decoder at rest (log entries 3, 4), or one byte more, with no response yet (log entries 6, 10). -/
def buffered (s : State) (tlen : Nat) (c : Byte) : State :=
  if tlen = s.cfg.tokenMax then (atRest s).raise .parseError
  else
    (s.setPd { s.pd with
      pos := s.pd.pos + 1, tok := Cells.write s.pd.tok tlen c, tlen := tlen + 1, state := .token }).respond none

/-- The response of an outcome, if it is a next state with one. -/
def responseOf (o : Host.Outcome State Fault Refusal) : Option Response :=
  match o with
  | .next t => t.response
  | _ => none

/-- `SPACE = SEGTAB[0x20]`, the table's first entry (R78; decision D27); 0 where that is no code, which no admissible table has
(log entry 16). -/
def space (cfg : Config) : Bitmap :=
  match cfg.segTab.head? with
  | some (some v) => v.setWidth 16
  | _ => 0

/-- The bitmaps of a print command: those emitted, cut off at `tubeCount`, then the space bitmap (R89, R91). -/
def padded (cfg : Config) (tubeCount : Nat) (emissions : List Bitmap) : List Bitmap :=
  emissions.take tubeCount ++ List.replicate (tubeCount - emissions.length) (space cfg)

/-- The digit values of R64, as a table: decimal digits, `A..F`, `a..f`. -/
def hexDigitTable : List (Byte × Nat) :=
  [(0x30, 0), (0x31, 1), (0x32, 2), (0x33, 3), (0x34, 4), (0x35, 5), (0x36, 6), (0x37, 7), (0x38, 8), (0x39, 9),
   (0x41, 10), (0x42, 11), (0x43, 12), (0x44, 13), (0x45, 14), (0x46, 15),
   (0x61, 10), (0x62, 11), (0x63, 12), (0x64, 13), (0x65, 14), (0x66, 15)]

/-- The binary digits of R64. -/
def binDigitTable : List (Byte × Nat) := [(0x30, 0), (0x31, 1)]

/-- A number written with the given digits, the first the most significant (R65). -/
def valueOf (base : Nat) (digits : List Nat) : Nat := digits.foldl (fun value k => value * base + k) 0

/-- One PD row after the other over the bytes of an argument, each as the decoder selects it (R66, R88), until one ends the
operation; then the end of input (R90, R91). -/
def runRows : List Byte → State → Host.Outcome State Fault Refusal
  | [], s => .next ((atRest s).respond (some (s.pd.finish s.cfg)))
  | c :: cs, s =>
    match exec (decodePd s.cfg s.pd.state c) s with
    | .next t => if t.response = none then runRows cs t else .next t
    | o => o

/-- The host's loop (R127): `CB.EXTRACT` until it is not ready; the commands delivered and the state left. An empty line is
"call again" (R152). -/
def drain (destCapacity : Nat) : Nat → State → List (List Byte) × State
  | 0, s => ([], s)
  | fuel + 1, s =>
    match exec (.cbExtract destCapacity) s with
    | .next t =>
      match t.response with
      | some (.ok (.command cmd)) => (cmd :: (drain destCapacity fuel t).1, (drain destCapacity fuel t).2)
      | some (.err .noopCommand) => drain destCapacity fuel t
      | _ => ([], t)
    | _ => ([], s)

/-- Chunks appended one by one, the ring drained after each; the commands delivered. -/
def deliver (destCapacity : Nat) : List (List Byte) → State → List (List Byte)
  | [], _ => []
  | chunk :: chunks, s =>
    match exec (.cbAppend chunk) s with
    | .next t =>
      (drain destCapacity (t.cb.length + 1) t).1 ++ deliver destCapacity chunks (drain destCapacity (t.cb.length + 1) t).2
    | _ => []

/-- The instructions that are one of the five spellings of an append, and the chunk each gives to the ring. -/
def chunkOf : Instr → Option (List Byte)
  | .cbAppend bytes => some bytes
  | .cbAppendB b => some [b]
  | .wireCr => some [0x0D]
  | .wireLf => some [0x0A]
  | .wireColon => some [0x3A]
  | _ => none

/-- The instructions that take bytes out of the ring. -/
def Extracts : Instr → Prop
  | .cbExtract _ => True
  | .line _ _ => True
  | _ => False

/-- The errors an instruction may raise: the column "raised by" of R129, `LINE` passing on those of its stages, a PD row
those of `PD.DECODE`, a TOKEN row that of `PD.TOKEN`. -/
def MayRaise (i : Instr) (k : ErrKind) : Prop :=
  match k with
  | .bufferOverrun => chunkOf i ≠ none
  | .bufOverrun | .noopCommand => Extracts i
  | .badCommand | .tooManyArgs | .wrongNumArgs => (∃ cmd, i = .cpParse cmd) ∨ ∃ d n, i = .line d n
  | .parseError => i.cellState ≠ none ∨ (∃ a n, i = .pdDecode a n) ∨ ∃ d n, i = .line d n
  | .tokenError =>
    i.cellState ≠ none ∨ (∃ a n, i = .pdDecode a n) ∨ (∃ d n, i = .line d n) ∨ (∃ text, i = .pdToken text) ∨
    ∃ ds, i = .tokenHexLower ds ∨ i = .tokenHexUpper ds ∨ i = .tokenBinLower ds ∨ i = .tokenBinUpper ds

end Sys2Proof.Claims

open Sys2Proof Sys2Proof.Machine Sys2Proof.Claims

/-! ### SegmentEncoder -/

/-- SE.DECODE (R73) returns the table's entry for a byte in `0x20..0x7F` and NoCode for any other, and nothing but the
response changes; with an admissible table (R13) a code is never `0x3FFF`, `!` has none, space has one (D27), and a
lower-case letter decodes as its upper case. -/
def Obligations.SegDecodeReadsTheTable : Prop :=
  ∀ s : State,
    (∀ c : Byte, exec (.seDecode c) s = .next (s.succeed (.code
      (if 0x20 ≤ c.toNat ∧ c.toNat ≤ 0x7F then (s.cfg.segTab[c.toNat - 0x20]?).join else none)))) ∧
    (s.cfg.Admissible →
      (∀ c : Byte, exec (.seDecode c) s ≠ .next (s.succeed (.code (some 0x3FFF)))) ∧
      exec (.seDecode 0x21) s = .next (s.succeed (.code none)) ∧
      (∃ v, exec (.seDecode 0x20) s = .next (s.succeed (.code (some v)))) ∧
      ∀ c : Byte, 0x61 ≤ c.toNat → c.toNat ≤ 0x7A → exec (.seDecode c) s = exec (.seDecode (c - 0x20)) s)

/-- SE.ISPRINT (R74): true iff SE.DECODE of the byte is not NoCode; under an admissible table
it is false for `!` and true for space; it is false below `0x20` and above `0x7F`. Nothing but the response changes. That
the byte stands as two nibbles behind op `0x1` in a request is the model's choice of layout (log entry 5). -/
def Obligations.PrintableMeansHavingACode : Prop :=
  ∀ s : State, ∀ c : Byte, ∃ b : Bool, exec (.seIsPrint c) s = .next (s.succeed (.boolean b)) ∧
    (∀ rest, decodeHost (0x1 :: (byteNibbles c ++ rest)) = .instr (.seIsPrint c) rest) ∧
    (b = true ↔ exec (.seDecode c) s ≠ .next (s.succeed (.code none))) ∧
    (c.toNat < 0x20 ∨ 0x7F < c.toNat → b = false) ∧
    (s.cfg.Admissible → (c = 0x21 → b = false) ∧ (c = 0x20 → b = true))

/-- SE.WITHUL sets bit 14 and SE.WITHCOLON bit 15 of any 16-bit value (R75, R76, D11), the other fifteen bits unchanged; both
are idempotent and they commute (R61). -/
def Obligations.ModifiersSetTheirBit : Prop :=
  ∀ (s : State) (b : Bitmap), ∃ u k : Bitmap,
    exec (.seWithUl b) s = .next (s.succeed (.bitmap u)) ∧ exec (.seWithColon b) s = .next (s.succeed (.bitmap k)) ∧
    (∀ i < 16, u.getLsbD i = (decide (i = 14) || b.getLsbD i) ∧ k.getLsbD i = (decide (i = 15) || b.getLsbD i)) ∧
    exec (.seWithUl u) s = exec (.seWithUl b) s ∧ exec (.seWithColon k) s = exec (.seWithColon b) s ∧
    exec (.seWithColon u) s = exec (.seWithUl k) s

/-- SE.DECODEUL (R77): the code of SE.DECODE with bit 14 set and bit 15 clear; NoCode is propagated unchanged, which is the
spec's decision D10. -/
def Obligations.DecodeUnderlinedKeepsNoCode : Prop :=
  ∀ (s : State) (c : Byte), ∃ r : Option Code, ∃ r' : Option Bitmap,
    exec (.seDecode c) s = .next (s.succeed (.code r)) ∧ exec (.seDecodeUl c) s = .next (s.succeed (.code16 r')) ∧
    (r' = none ↔ r = none) ∧
    ∀ v w, r = some v → r' = some w → w.getLsbD 14 = true ∧ w.getLsbD 15 = false ∧
      ∀ i < 14, w.getLsbD i = v.getLsbD i

/-! ### CommandBuffer -/

/-- CB.APPEND of a chunk that fits (R79): the chunk goes behind the unread bytes; `tail` and `length` advance, `head` stays;
byte `k` of the chunk stands at index `(tail + k) mod CAP` and every other cell is as before. An empty chunk is one that
fits whenever the ring does (D28). -/
def Obligations.AppendStoresTheChunkAtTail : Prop :=
  ∀ (s : State) (bytes : List Byte), s.cb.Inv s.cfg.cap → bytes.length + s.cb.length ≤ s.cfg.cap →
    ∃ t, exec (.cbAppend bytes) s = .next t ∧ t.response = some (.ok .done) ∧ SameButRing s t ∧
      t.unread = s.unread ++ bytes ∧ t.cb.head = s.cb.head ∧
      t.cb.tail = (s.cb.tail + bytes.length) % s.cfg.cap ∧ t.cb.length = s.cb.length + bytes.length ∧
      (∀ (k : Nat) (h : k < bytes.length), Cells.read t.cb.mem ((s.cb.tail + k) % s.cfg.cap) = bytes[k]) ∧
      ∀ a, (∀ k < bytes.length, a ≠ (s.cb.tail + k) % s.cfg.cap) → Cells.read t.cb.mem a = Cells.read s.cb.mem a

/-- CB.APPEND of a chunk that does not fit (R79, R130) raises BufferOverrun and leaves no unread byte, old or new; that
`head` and `tail` become 0 is the spec's decision D7. The byte store is untouched, and CB.PENDLEN then gives 0 (R86 P4). -/
def Obligations.AppendThatOverflowsClearsTheRing : Prop :=
  ∀ (s : State) (bytes : List Byte), bytes.length + s.cb.length > s.cfg.cap →
    ∃ t, exec (.cbAppend bytes) s = .next t ∧ t.response = some (.err .bufferOverrun) ∧ SameButRing s t ∧
      t.unread = [] ∧ t.cb = { head := 0, tail := 0, length := 0, mem := s.cb.mem } ∧
      exec .cbPendLen t = .next (t.succeed (.number 0))

/-- CB.PENDLEN (R80), op `0x6`, returns `cb.length`, the number of unread bytes, at most `CAP` under the ring invariant;
CB.HASCMD (R81), op `0x7`, whether one of the unread bytes is a terminator of either kind. Nothing but the response
changes. -/
def Obligations.PendLenAndHasCmdReadTheUnreadBytes : Prop :=
  ∀ s : State,
    (∀ rest, decodeHost (0x6 :: rest) = .instr .cbPendLen rest ∧ decodeHost (0x7 :: rest) = .instr .cbHasCmd rest) ∧
    exec .cbPendLen s = .next (s.succeed (.number s.cb.length)) ∧ s.cb.length = s.unread.length ∧
    (s.cb.Inv s.cfg.cap → s.cb.length ≤ s.cfg.cap) ∧
    ∃ b : Bool, exec .cbHasCmd s = .next (s.succeed (.boolean b)) ∧ (b = true ↔ ∃ x ∈ s.unread, Terminator x)

/-- CB.CMDLEN (R82) is Ready with the lowest offset of a terminator of either kind among the unread bytes, and NotReady (the
spec's decision D8) if there is none; nothing but the response changes. -/
def Obligations.CmdLenIsTheFirstTerminator : Prop :=
  ∀ s : State,
    (∀ (cmd rest : List Byte) (b : Byte), s.unread = cmd ++ b :: rest → NoTerminator cmd → Terminator b →
      exec .cbCmdLen s = .next (s.succeed (.cmdLen (some cmd.length)))) ∧
    (NoTerminator s.unread → exec .cbCmdLen s = .next (s.succeed (.cmdLen none)))

/-- CB.EXTRACT with no terminator unread (R83, case 1) is Ok(0), whatever the destination, and changes nothing. -/
def Obligations.ExtractNotReadyChangesNothing : Prop :=
  ∀ (s : State) (destCapacity : Nat), NoTerminator s.unread →
    exec (.cbExtract destCapacity) s = .next (s.succeed .notReady)

/-- CB.EXTRACT with a terminator first (R83, case 2; R132) reports NoopCommand whatever the destination, delivers no byte,
and consumes that terminator and the next byte too if it is one; `tail` and the byte store are untouched. -/
def Obligations.ExtractOfAnEmptyLineTrims : Prop :=
  ∀ (s : State) (destCapacity : Nat) (b : Byte) (rest : List Byte), s.cb.Inv s.cfg.cap →
    s.unread = b :: rest → Terminator b →
    ∃ t, exec (.cbExtract destCapacity) s = .next t ∧ t.response = some (.err .noopCommand) ∧ SameButRing s t ∧
      t.cb.tail = s.cb.tail ∧ t.cb.mem = s.cb.mem ∧
      (∀ b' rest', rest = b' :: rest' → Terminator b' → t.unread = rest') ∧
      (NoTerminator (rest.take 1) → t.unread = rest)

/-- CB.EXTRACT of a framed command of at least one byte that is longer than the destination (R83, case 3; R131) raises
BufOverrun and changes nothing, neither the command nor its terminators. -/
def Obligations.ExtractIntoTooSmallChangesNothing : Prop :=
  ∀ (s : State) (destCapacity : Nat) (cmd rest : List Byte) (b : Byte), s.unread = cmd ++ b :: rest → cmd ≠ [] →
    NoTerminator cmd → Terminator b → cmd.length > destCapacity →
    exec (.cbExtract destCapacity) s = .next (s.raise .bufOverrun)

/-- CB.EXTRACT of a framed command that fits (R83, case 4), up to `L = destCapacity`: the command bytes are delivered and
consumed with the terminator after them, and with the byte after that if it is a terminator too (R84); `head` moves by the
number of bytes consumed, `tail` and the byte store are untouched. -/
def Obligations.ExtractDeliversTheFirstLine : Prop :=
  ∀ (s : State) (destCapacity : Nat) (cmd rest : List Byte) (b : Byte), s.cb.Inv s.cfg.cap →
    s.unread = cmd ++ b :: rest → cmd ≠ [] → NoTerminator cmd → Terminator b → cmd.length ≤ destCapacity →
    ∃ t, exec (.cbExtract destCapacity) s = .next t ∧ t.response = some (.ok (.command cmd)) ∧ SameButRing s t ∧
      t.cb.tail = s.cb.tail ∧ t.cb.mem = s.cb.mem ∧
      t.cb.head = (s.cb.head + (s.cb.length - t.cb.length)) % s.cfg.cap ∧
      (∀ b' rest', rest = b' :: rest' → Terminator b' → t.unread = rest') ∧
      (NoTerminator (rest.take 1) → t.unread = rest)

/-- R29: a command is reported only if an unread byte is a terminator, and what is reported is the unread bytes before the
first one; so it holds no terminator (R86 P2). For CB.EXTRACT, CB.CMDLEN and CB.HASCMD. -/
def Obligations.NoCommandIsReportedEarly : Prop :=
  ∀ s : State,
    (∀ destCapacity t cmd, exec (.cbExtract destCapacity) s = .next t → t.response = some (.ok (.command cmd)) →
      ∃ b rest, s.unread = cmd ++ b :: rest ∧ Terminator b ∧ NoTerminator cmd) ∧
    (∀ t n, exec .cbCmdLen s = .next t → t.response = some (.ok (.cmdLen (some n))) →
      ∃ b rest, s.unread = s.unread.take n ++ b :: rest ∧ Terminator b ∧ NoTerminator (s.unread.take n)) ∧
    ∀ t, exec .cbHasCmd s = .next t → t.response = some (.ok (.boolean true)) → ¬NoTerminator s.unread

/-- R28: the register-level CommandBuffer refines the list of unread bytes. In every state with the ring invariant, each CB
operation and RESET answers a next state whose response and unread bytes are those the abstract forms of R79 to R84 and
R125 compute from the unread bytes, the operands and `CAP` alone, and the invariant holds again. -/
def Obligations.CommandBufferRefinesAByteList : Prop :=
  ∀ s : State, s.cb.Inv s.cfg.cap →
    (∀ bytes, ∃ t, exec (.cbAppend bytes) s = .next t ∧ t.cb.Inv s.cfg.cap ∧
      (t.unread, t.response) = ((absAppend s.cfg.cap s.unread bytes).1, some (absAppend s.cfg.cap s.unread bytes).2)) ∧
    (∀ d, ∃ t, exec (.cbExtract d) s = .next t ∧ t.cb.Inv s.cfg.cap ∧
      (t.unread, t.response) = ((absExtract s.unread d).1, some (absExtract s.unread d).2)) ∧
    exec .cbPendLen s = .next (s.succeed (.number s.unread.length)) ∧
    exec .cbHasCmd s = .next (s.succeed (.boolean (s.unread.any isTerm))) ∧
    exec .cbCmdLen s = .next (s.succeed (.cmdLen (s.unread.findIdx? isTerm))) ∧
    ∃ t, exec .reset s = .next t ∧ t.cb.Inv s.cfg.cap ∧ t.unread = []

/-- R45: at most two contiguous copies make the same run as the byte-by-byte MemRead and MemWrite of R21. -/
def Obligations.RunsAreAtMostTwoCopies : Prop :=
  ∀ (cap addr : Nat) (mem : List Host.Cell), addr < cap →
    (∀ n ≤ cap, memReadSplit cap mem addr n = memRead cap mem addr n) ∧
    ∀ bs : List Byte, bs.length ≤ cap → memWriteSplit cap mem addr bs = memWrite cap mem addr bs

/-- R86 P1, chunking invariance under its premises (90_conflicts.md C4): no append fails (here: the bytes fit at once), every
destination is large enough, and no complete line waits at the start. The commands delivered when bytes come in chunks, the ring drained after each, are those delivered when they come as
one chunk. An inference the spec marks as derived. -/
def Obligations.DeliveredCommandsAreChunkingInvariant : Prop :=
  ∀ (s : State) (destCapacity : Nat) (chunks : List (List Byte)), s.cb.Inv s.cfg.cap → NoTerminator s.unread →
    chunks.flatten.length + s.cb.length ≤ s.cfg.cap → s.cfg.cap ≤ destCapacity →
    deliver destCapacity chunks s = deliver destCapacity [chunks.flatten] s

/-- R150 (derived there): a full ring without a terminator stays so through every CB.EXTRACT, and every CB.APPEND of one or
more bytes clears it and stores none. -/
def Obligations.FullRingWithoutTerminatorIsStuck : Prop :=
  ∀ s : State, s.cb.Inv s.cfg.cap → s.cb.length = s.cfg.cap → NoTerminator s.unread →
    (∀ destCapacity, exec (.cbExtract destCapacity) s = .next (s.succeed .notReady)) ∧
    ∀ bytes, bytes ≠ [] → ∃ t, exec (.cbAppend bytes) s = .next t ∧ t.response = some (.err .bufferOverrun) ∧
      t.unread = [] ∧ SameButRing s t

/-! ### Print decoder: the rows of the state table -/

/-- R94, R99, R105, R116: `{` in Start and in Idle opens a bracket, `!` directly after it starts an underline run, `}` ends
the run. The byte is consumed, the mode changes, nothing is emitted, buffered or raised. The
count of the byte in `pd.pos` is R87; that a row that goes on leaves no response is the model's choice (log entries 6, 10). -/
def Obligations.BracketRowsChangeTheMode : Prop :=
  ∀ s : State,
    (s.pd.state = .start → exec .pdStartLbrace s =
      .next ((s.setPd { s.pd with pos := s.pd.pos + 1, state := .tokenStart }).respond none)) ∧
    (s.pd.state = .idle → exec .pdIdleLbrace s =
      .next ((s.setPd { s.pd with pos := s.pd.pos + 1, state := .tokenStart }).respond none)) ∧
    (s.pd.state = .tokenStart → exec .pdTokenStartBang s =
      .next ((s.setPd { s.pd with pos := s.pd.pos + 1, state := .underline }).respond none)) ∧
    (s.pd.state = .underline → exec .pdUnderlineRbrace s =
      .next ((s.setPd { s.pd with pos := s.pd.pos + 1, state := .idle }).respond none))

/-- R97, R102, R117: an ordinary byte with a code emits it (underlined in an underline run); Start goes to Idle, Idle and
Underline stay; on a full array the scan stops (R89, decision D14). That a row that goes on leaves no response (log entries 6,
10) and that the decoder is at rest after a stop, in these values (log entries 3, 4), is the model's choice. -/
def Obligations.PrintableRowsEmitTheCode : Prop :=
  ∀ (s : State) (c : Byte) (v : Code), Ordinary c → HasCode s.cfg c v →
    (s.pd.state = .start → exec (.pdStartPrintable c) s = .next (emitted s (v.setWidth 16) .idle)) ∧
    (s.pd.state = .idle → exec (.pdIdlePrintable c) s = .next (emitted s (v.setWidth 16) .idle)) ∧
    (s.pd.state = .underline →
      exec (.pdUnderlinePrintable c) s = .next (emitted s (v.setWidth 16 ||| 0x4000) .underline))

/-- R96, R101, R114: `}` outside a bracket and `{` in an underline run are bytes like any other: shown if the table has a code
for them, else ParseError. The spec's decision D12, and D14 for a full array. That the decoder is at rest after an error or a
stop, in these values (log entries 3, 4), and that a row that goes on leaves no response (log entries 6, 10) is the model's
choice. -/
def Obligations.StrayBracketsAreOrdinaryBytes : Prop :=
  ∀ s : State,
    (s.pd.state = .start →
      (∀ v, HasCode s.cfg 0x7D v → exec .pdStartRbrace s = .next (emitted s (v.setWidth 16) .idle)) ∧
      ((∀ v, ¬HasCode s.cfg 0x7D v) → exec .pdStartRbrace s =
        .next ((atRest s).raise .parseError))) ∧
    (s.pd.state = .idle →
      (∀ v, HasCode s.cfg 0x7D v → exec .pdIdleRbrace s = .next (emitted s (v.setWidth 16) .idle)) ∧
      ((∀ v, ¬HasCode s.cfg 0x7D v) → exec .pdIdleRbrace s =
        .next ((atRest s).raise .parseError))) ∧
    (s.pd.state = .underline →
      (∀ v, HasCode s.cfg 0x7B v →
        exec .pdUnderlineLbrace s = .next (emitted s (v.setWidth 16 ||| 0x4000) .underline)) ∧
      ((∀ v, ¬HasCode s.cfg 0x7B v) → exec .pdUnderlineLbrace s =
        .next ((atRest s).raise .parseError)))

/-- R98, R103, R118: an ordinary byte without a code in Start, Idle or Underline raises ParseError, also when the array is
full; nothing is emitted. That the decoder is at rest afterwards rests on R30, R31 and R92, its values there are the model's
choice (log entries 3, 4). -/
def Obligations.NonprintableRowsRaiseParseError : Prop :=
  ∀ (s : State) (c : Byte), Ordinary c → (∀ v, ¬HasCode s.cfg c v) →
    (s.pd.state = .start → exec (.pdStartNonprintable c) s =
      .next ((atRest s).raise .parseError)) ∧
    (s.pd.state = .idle → exec (.pdIdleNonprintable c) s =
      .next ((atRest s).raise .parseError)) ∧
    (s.pd.state = .underline → exec (.pdUnderlineNonprintable c) s =
      .next ((atRest s).raise .parseError))

/-- R95, R115: `!` in Start and in an underline run raises ParseError whatever the table says: the spec's decision D13. That
the decoder is at rest afterwards rests on R30, R31 and R92, its values there are the model's choice (log entries 3, 4). -/
def Obligations.BangWithNothingToUnderlineRaises : Prop :=
  ∀ s : State,
    (s.pd.state = .start → exec .pdStartBang s =
      .next ((atRest s).raise .parseError)) ∧
    (s.pd.state = .underline → exec .pdUnderlineBang s =
      .next ((atRest s).raise .parseError))

/-- R100: `!` in Idle sets bit 14 of the bitmap emitted last, in place: every other output cell and the count are as before,
the mode stays Idle. With nothing emitted it raises ParseError, the spec's decision D13. The values of the decoder at
rest after the error (log entries 3, 4), and no response where the row goes on (log entries 6, 10), are the model's choice. -/
def Obligations.BangUnderlinesTheLastBitmapInPlace : Prop :=
  ∀ s : State, s.pd.state = .idle → Cells.Wf s.pd.out →
    (s.pd.n = 0 → exec .pdIdleBang s =
      .next ((atRest s).raise .parseError)) ∧
    (1 ≤ s.pd.n → ∃ out, exec .pdIdleBang s =
        .next ((s.setPd { s.pd with pos := s.pd.pos + 1, out := out }).respond none) ∧
      Cells.read out (s.pd.n - 1) = Cells.read s.pd.out (s.pd.n - 1) ||| 0x4000 ∧
      ∀ j, j ≠ s.pd.n - 1 → Cells.read out j = Cells.read s.pd.out j)

/-- R104, R106, R107, R108: after `{`, any byte but `!` and `}` empties the token buffer and becomes its first byte (ParseError
only if `TOKEN_MAX = 0`), the table playing no part beyond which row it is; `}` is an empty token and raises TokenError. The
spec's decisions D12 and, on what does not fit, D17. The values of the decoder at rest after an error (log entries 3, 4), and
no response where a row goes on (log entries 6, 10), are the model's choice. -/
def Obligations.TokenStartRowsOpenTheToken : Prop :=
  ∀ s : State, s.pd.state = .tokenStart →
    exec .pdTokenStartLbrace s = .next (buffered s 0 0x7B) ∧
    exec .pdTokenStartRbrace s = .next ((atRest s).raise .tokenError) ∧
    (∀ c v, Ordinary c → HasCode s.cfg c v → exec (.pdTokenStartPrintable c) s = .next (buffered s 0 c)) ∧
    ∀ c, Ordinary c → (∀ v, ¬HasCode s.cfg c v) → exec (.pdTokenStartNonprintable c) s = .next (buffered s 0 c)

/-- R109, R110, R112, R113 with R93: inside a token every byte but `}` is token text, printable or not; the byte that does not
fit raises ParseError, and what does not fit is the spec's decision D17. The values of the decoder at rest after
the error (log entries 3, 4), and no response where a row goes on (log entries 6, 10), are the model's choice. -/
def Obligations.TokenTextRowsBuffer : Prop :=
  ∀ s : State, s.pd.state = .token →
    exec .pdTokenLbrace s = .next (buffered s s.pd.tlen 0x7B) ∧
    exec .pdTokenBang s = .next (buffered s s.pd.tlen 0x21) ∧
    (∀ c v, Ordinary c → HasCode s.cfg c v → exec (.pdTokenPrintable c) s = .next (buffered s s.pd.tlen c)) ∧
    ∀ c, Ordinary c → (∀ v, ¬HasCode s.cfg c v) → exec (.pdTokenNonprintable c) s = .next (buffered s s.pd.tlen c)

/-- R111: `}` closes the token: TokenError if PD.TOKEN rejects the text `pd.tok[0 .. pd.tlen-1]`, decided before any emission,
else its 16-bit value is emitted literally and the mode is Idle; on a full array the scan stops (R89, D14). The values of the
decoder at rest after an error or a stop (log entries 3, 4), and no response where the row goes on (log entries 6, 10), are
the model's choice. -/
def Obligations.ClosingBraceEmitsTheTokenValue : Prop :=
  ∀ (s : State) (text : List Byte), s.pd.state = .token →
    text = (List.range s.pd.tlen).map (fun i => Cells.read s.pd.tok i) →
    (∀ v, responseOf (exec (.pdToken text) s) = some (.ok (.bitmap v)) →
      exec .pdTokenRbrace s = .next (emitted s v .idle)) ∧
    (responseOf (exec (.pdToken text) s) = some (.err .tokenError) →
      exec .pdTokenRbrace s = .next ((atRest s).raise .tokenError)) ∧
    ∃ t, exec .pdTokenRbrace s = .next t ∧ t.cb = s.cb ∧ t.cfg = s.cfg

/-! ### Print decoder: whole arguments -/

/-- A text of ordinary bytes with codes gives their codes in order, cut off at `tubeCount`, then SPACE (R97, R102, R89, R91,
scenario 1 of the source), which is the code the table gives the byte `0x20` (R78, D27); the empty argument gives SPACE
everywhere (D15); where it is cut off is D14. The ring is not touched. -/
def Obligations.PlainTextGivesItsCodesThenSpaces : Prop :=
  ∀ (s : State) (text : List (Byte × Code)) (tubeCount : Nat), Cells.Wf s.pd.out →
    (∀ x ∈ text, Ordinary x.1 ∧ HasCode s.cfg x.1 x.2) →
    ∃ t, exec (.pdDecode (text.map (·.1)) tubeCount) s = .next t ∧
      t.response = some (.ok (.bitmaps (padded s.cfg tubeCount (text.map fun x => x.2.setWidth 16)))) ∧
      (∀ v, HasCode s.cfg 0x20 v → t.response = some (.ok (.bitmaps
        ((text.map fun x => x.2.setWidth 16).take tubeCount ++
          List.replicate (tubeCount - text.length) (v.setWidth 16))))) ∧
      t.cfg = s.cfg ∧ t.cb = s.cb ∧ t.inbox = s.inbox

/-- PD.DECODE (R87) of any argument answers a next state, and its response is an array of exactly `tubeCount` bitmaps,
ParseError or TokenError; it touches neither the ring nor the parameters, and the decoder keeps nothing of the scan: no array
or token is left that a later operation could read (R30, R31, R155); its values at rest are the model's choice (log entries 3, 4). -/
def Obligations.PdDecodeGivesTubeCountBitmapsOrAnError : Prop :=
  ∀ (s : State) (argument : List Byte) (tubeCount : Nat), ∃ t, exec (.pdDecode argument tubeCount) s = .next t ∧
    t.cfg = s.cfg ∧ t.cb = s.cb ∧ t.inbox = s.inbox ∧
    t.pd = { state := .start, pos := 0, n := 0, tlen := 0, tok := [], out := [], tubeCount := s.cfg.numTubes } ∧
    ((∃ out, t.response = some (.ok (.bitmaps out)) ∧ out.length = tubeCount) ∨
      t.response = some (.err .parseError) ∨ t.response = some (.err .tokenError))

/-- A bracketed token of at most `TOKEN_MAX` bytes (R93, R111, R121): the argument gives the token's value literally and then
SPACE, or TokenError if PD.TOKEN rejects the text. The text does not begin with `!` and holds no `}` (R71). That `}` right
after `{` is a token with the empty text is decision D12; that no code of the table is needed for a token's bytes is the
model's reading (log entry 18). -/
def Obligations.EscapeTokenArgumentGivesItsValue : Prop :=
  ∀ (s : State) (text : List Byte) (tubeCount : Nat), Cells.Wf s.pd.out → Cells.Wf s.pd.tok →
    (0x7D : Byte) ∉ text → text.head? ≠ some 0x21 → text.length ≤ s.cfg.tokenMax → 1 ≤ tubeCount →
    (∀ v, responseOf (exec (.pdToken text) s) = some (.ok (.bitmap v)) →
      responseOf (exec (.pdDecode (0x7B :: text ++ [0x7D]) tubeCount) s) =
        some (.ok (.bitmaps (padded s.cfg tubeCount [v])))) ∧
    (responseOf (exec (.pdToken text) s) = some (.err .tokenError) →
      responseOf (exec (.pdDecode (0x7B :: text ++ [0x7D]) tubeCount) s) = some (.err .tokenError))

/-- A token text longer than `TOKEN_MAX` is ParseError, whatever the text, whatever follows it, and before any `}` is seen
(R93; the moment of the test is the spec's decision D17). -/
def Obligations.OverlongTokenRaisesParseError : Prop :=
  ∀ (s : State) (text rest : List Byte) (tubeCount : Nat), (0x7D : Byte) ∉ text → text.head? ≠ some 0x21 →
    text.length > s.cfg.tokenMax →
    responseOf (exec (.pdDecode (0x7B :: text ++ rest) tubeCount) s) = some (.err .parseError)

/-- An underline run of ordinary bytes with codes underlines every one of them (R105, R117, R116), then SPACE (R91). -/
def Obligations.UnderlineRunUnderlinesEveryCharacter : Prop :=
  ∀ (s : State) (text : List (Byte × Code)) (tubeCount : Nat), Cells.Wf s.pd.out →
    (∀ x ∈ text, Ordinary x.1 ∧ HasCode s.cfg x.1 x.2) →
    responseOf (exec (.pdDecode ([0x7B, 0x21] ++ text.map (·.1) ++ [0x7D]) tubeCount) s) =
      some (.ok (.bitmaps (padded s.cfg tubeCount (text.map fun x => x.2.setWidth 16 ||| 0x4000))))

/-- `!` after a text of ordinary bytes with codes underlines the last of them in place, and a second `!` changes nothing more
(R100; 90_conflicts.md C6). -/
def Obligations.BangAfterATextUnderlinesItsLastCharacter : Prop :=
  ∀ (s : State) (text : List (Byte × Code)) (last : Byte × Code) (bangs tubeCount : Nat), Cells.Wf s.pd.out →
    (∀ x ∈ text ++ [last], Ordinary x.1 ∧ HasCode s.cfg x.1 x.2) → text.length < tubeCount →
    responseOf (exec (.pdDecode ((text ++ [last]).map (·.1) ++ List.replicate (bangs + 1) 0x21) tubeCount) s) =
      some (.ok (.bitmaps (padded s.cfg tubeCount
        ((text.map fun x => x.2.setWidth 16) ++ [last.2.setWidth 16 ||| 0x4000]))))

/-- An argument that ends inside a bracket is ParseError (R90, the spec's decision D15): a text of ordinary bytes with codes
that fits the array, then `{` and what follows it without a `}`, and room in the array for as much. So neither is a Stop
before the end (R89), after which the bracket would never be seen. -/
def Obligations.UnclosedBracketRaisesParseError : Prop :=
  ∀ (s : State) (text : List (Byte × Code)) (body : List Byte) (tubeCount : Nat),
    (∀ x ∈ text, Ordinary x.1 ∧ HasCode s.cfg x.1 x.2) → (0x7D : Byte) ∉ body →
    text.length ≤ tubeCount → (body.head? = some 0x21 → text.length + body.tail.length ≤ tubeCount) →
    responseOf (exec (.pdDecode (text.map (·.1) ++ 0x7B :: body) tubeCount) s) = some (.err .parseError)

/-- Once a text has one character more than `tubeCount`, no later byte is looked at (R89): whatever follows, the array is the
first `tubeCount` codes. When the scan stops is the spec's decision D14. -/
def Obligations.BytesAfterAStopAreNotLookedAt : Prop :=
  ∀ (s : State) (text : List (Byte × Code)) (rest : List Byte), Cells.Wf s.pd.out →
    (∀ x ∈ text, Ordinary x.1 ∧ HasCode s.cfg x.1 x.2) → text ≠ [] →
    responseOf (exec (.pdDecode (text.map (·.1) ++ rest) (text.length - 1)) s) =
      some (.ok (.bitmaps ((text.map fun x => x.2.setWidth 16).take (text.length - 1))))

/-- R87, R66: PD.DECODE in one atomic step is the rows of the state table run one by one over the argument, each as the
decoder selects it, from the cleared registers to the row that ends it or to the end of input. A row as an instruction of its own, and a response
of none as the sign that the scan goes on, are the model's choice (log entries 6, 10), and so are the values of the decoder
at rest after it (log entries 3, 4). -/
def Obligations.RowsOneByOneMakePdDecode : Prop :=
  ∀ (s : State) (argument : List Byte) (tubeCount : Nat),
    exec (.pdDecode argument tubeCount) s =
      runRows argument ((s.setPd { s.pd with
        state := .start, pos := 0, n := 0, tlen := 0, tubeCount := tubeCount }).respond none)

/-! ### Tokens -/

/-- PD.TOKEN (R121): a text that opens with `0x`, `0X`, `0b` or `0B` is decoded as the TOKEN row of that opening on the rest,
any other text, also one of fewer than two bytes, is TokenError; nothing but the response changes. That this holds for a text longer than
`TOKEN_MAX` (R68) is the model's reading (log entry 13). -/
def Obligations.TokenTextOpensWithItsBase : Prop :=
  ∀ (s : State) (digits text : List Byte),
    exec (.pdToken (0x30 :: 0x78 :: digits)) s = exec (.tokenHexLower digits) s ∧
    exec (.pdToken (0x30 :: 0x58 :: digits)) s = exec (.tokenHexUpper digits) s ∧
    exec (.pdToken (0x30 :: 0x62 :: digits)) s = exec (.tokenBinLower digits) s ∧
    exec (.pdToken (0x30 :: 0x42 :: digits)) s = exec (.tokenBinUpper digits) s ∧
    ((∀ base ∈ ([0x78, 0x58, 0x62, 0x42] : List Byte), text.take 2 ≠ [0x30, base]) →
      exec (.pdToken text) s = .next (s.raise .tokenError))

/-- HexValue (R122, R65) on every byte string: hexadecimal digits of either case, the first most significant, give their
value modulo `2^16`, no digits 0; any other byte among them is TokenError. Digit case, bad digits and no digits are the
spec's decision D16. That digits are judged by value alone, and that PD.TOKEN takes a text longer than `TOKEN_MAX`, is the
model's reading (log entries 18, 13). -/
def Obligations.HexDigitsGiveTheirValueInSixteenBits : Prop :=
  ∀ (s : State) (digits : List Byte),
    (∀ ks : List Nat, digits.map (fun d => hexDigitTable.lookup d) = ks.map some →
      exec (.tokenHexLower digits) s = .next (s.succeed (.bitmap (BitVec.ofNat 16 (valueOf 16 ks)))) ∧
      exec (.tokenHexUpper digits) s = .next (s.succeed (.bitmap (BitVec.ofNat 16 (valueOf 16 ks)))) ∧
      exec (.pdToken (0x30 :: 0x78 :: digits)) s =
        .next (s.succeed (.bitmap (BitVec.ofNat 16 (valueOf 16 ks))))) ∧
    ((∃ d ∈ digits, hexDigitTable.lookup d = none) →
      exec (.tokenHexLower digits) s = .next (s.raise .tokenError) ∧
      exec (.tokenHexUpper digits) s = .next (s.raise .tokenError))

/-- BinValue (R123, R65) on every byte string: binary digits, the first most significant, give their value modulo `2^16`, no
digits 0; any other byte among them is TokenError. The mask and no digits are the spec's decision D16.
That digits are judged by value alone, and that PD.TOKEN takes a text longer than `TOKEN_MAX`, is the model's reading (log
entries 18, 13). -/
def Obligations.BinaryDigitsGiveTheirValueInSixteenBits : Prop :=
  ∀ (s : State) (digits : List Byte),
    (∀ ks : List Nat, digits.map (fun d => binDigitTable.lookup d) = ks.map some →
      exec (.tokenBinLower digits) s = .next (s.succeed (.bitmap (BitVec.ofNat 16 (valueOf 2 ks)))) ∧
      exec (.tokenBinUpper digits) s = .next (s.succeed (.bitmap (BitVec.ofNat 16 (valueOf 2 ks)))) ∧
      exec (.pdToken (0x30 :: 0x62 :: digits)) s =
        .next (s.succeed (.bitmap (BitVec.ofNat 16 (valueOf 2 ks))))) ∧
    ((∃ d ∈ digits, binDigitTable.lookup d = none) →
      exec (.tokenBinLower digits) s = .next (s.raise .tokenError) ∧
      exec (.tokenBinUpper digits) s = .next (s.raise .tokenError))

/-! ### Command parser -/

/-- CP.PARSE (R124) of a command with `k` colons: more than `MAX_ARGS` is TooManyArgs, none is WrongNumArgs, a word other than
`print` before the first is BadCommand, in this order; else `k` arguments, none with a colon, which joined with colons after
`print` are the command. Nothing but the response changes. What is counted and the order are the spec's decision D19. -/
def Obligations.ParseSplitsAtEveryColon : Prop :=
  ∀ (s : State) (cmd : List Byte), ∃ r, exec (.cpParse cmd) s = .next (s.respond (some r)) ∧
    (cmd.count 0x3A > s.cfg.maxArgs → r = .err .tooManyArgs) ∧
    (cmd.count 0x3A ≤ s.cfg.maxArgs → cmd.count 0x3A = 0 → r = .err .wrongNumArgs) ∧
    (cmd.count 0x3A ≤ s.cfg.maxArgs → cmd.count 0x3A ≠ 0 →
      cmd.takeWhile (· ≠ 0x3A) ≠ [0x70, 0x72, 0x69, 0x6E, 0x74] → r = .err .badCommand) ∧
    (cmd.count 0x3A ≤ s.cfg.maxArgs → cmd.count 0x3A ≠ 0 →
      cmd.takeWhile (· ≠ 0x3A) = [0x70, 0x72, 0x69, 0x6E, 0x74] →
      ∃ args, r = .ok (.print args) ∧ args.length = cmd.count 0x3A ∧ (∀ a ∈ args, (0x3A : Byte) ∉ a) ∧
        cmd = [0x70, 0x72, 0x69, 0x6E, 0x74] ++ args.flatMap (0x3A :: ·))

/-! ### System -/

/-- RESET (R125, the spec's decision D7): `head`, `tail` and `length` become 0, no unread byte is left, the byte store and
everything else are as before. -/
def Obligations.ResetEmptiesTheRing : Prop :=
  ∀ s : State, ∃ t, exec .reset s = .next t ∧ t.response = some (.ok .done) ∧ SameButRing s t ∧ t.unread = [] ∧
    t.cb = { head := 0, tail := 0, length := 0, mem := s.cb.mem }

/-- R146 (decision D7): after power-on reset the registers of the ring are 0, and after it as after RESET, CB.PENDLEN is 0,
CB.HASCMD false, CB.CMDLEN NotReady, CB.EXTRACT Ok(0), and CB.APPEND of up to `CAP` bytes succeeds. -/
def Obligations.AfterResetTheRingIsEmpty : Prop :=
  State.reset.cb.head = 0 ∧ State.reset.cb.tail = 0 ∧ State.reset.cb.length = 0 ∧
  ∀ s t : State, t = State.reset ∨ exec .reset s = .next t →
    exec .cbPendLen t = .next (t.succeed (.number 0)) ∧ exec .cbHasCmd t = .next (t.succeed (.boolean false)) ∧
    exec .cbCmdLen t = .next (t.succeed (.cmdLen none)) ∧
    (∀ destCapacity, exec (.cbExtract destCapacity) t = .next (t.succeed .notReady)) ∧
    ∀ bytes : List Byte, bytes.length ≤ t.cfg.cap → responseOf (exec (.cbAppend bytes) t) = some (.ok .done)

/-- R126 (decision D26; log entry 7): the decoder refuses the codes `0xE` and `0xF` by name; the rows change no state and
return no result, and a step on such a request record does the same. -/
def Obligations.ReservedCodesChangeNothing : Prop :=
  ∀ (s : State) (rest : List Nibble) (items : List Fetch),
    decodeHost (0xE :: rest) = .reserved 0xE rest ∧ decodeHost (0xF :: rest) = .reserved 0xF rest ∧
    exec .reservedE s = .next (s.respond none) ∧ exec .reservedF s = .next (s.respond none) ∧
    (s.inbox = .host (0xE :: rest) :: items → step s = .next ((s.advance rest).respond none)) ∧
    (s.inbox = .host (0xF :: rest) :: items → step s = .next ((s.advance rest).respond none))

/-- LINE (R128) is its stages run one after the other: CB.EXTRACT; if it delivers no command, that is the outcome; else
CP.PARSE on the bytes delivered; if it fails, that is the outcome; else WrongNumArgs unless there is exactly one argument
(decision D20); else PD.DECODE on the argument. -/
def Obligations.LineRunsItsStagesInOrder : Prop :=
  ∀ (s : State) (destCapacity tubeCount : Nat), ∃ s1, exec (.cbExtract destCapacity) s = .next s1 ∧
    ((∀ cmd, s1.response ≠ some (.ok (.command cmd))) → exec (.line destCapacity tubeCount) s = .next s1) ∧
    ∀ cmd, s1.response = some (.ok (.command cmd)) → ∃ s2, exec (.cpParse cmd) s1 = .next s2 ∧
      (∀ k, s2.response = some (.err k) → exec (.line destCapacity tubeCount) s = .next s2) ∧
      ∀ args, s2.response = some (.ok (.print args)) →
        (args.length ≠ 1 → exec (.line destCapacity tubeCount) s = .next (s2.raise .wrongNumArgs)) ∧
        ∀ argument, args = [argument] →
          exec (.line destCapacity tubeCount) s = exec (.pdDecode argument tubeCount) s2

/-- LINE (R128) consumes the line in every outcome other than NotReady and BufOverrun: of the unread bytes a shorter end is
left, which does not hold the line's terminator; in those two outcomes the ring is unchanged. -/
def Obligations.LineConsumesItsLine : Prop :=
  ∀ (s : State) (destCapacity tubeCount : Nat), s.cb.Inv s.cfg.cap →
    ∃ t r, exec (.line destCapacity tubeCount) s = .next t ∧ t.response = some r ∧ t.cfg = s.cfg ∧
      t.inbox = s.inbox ∧
      (r = .ok .notReady ∨ r = .err .bufOverrun → t.cb = s.cb) ∧
      (r ≠ .ok .notReady → r ≠ .err .bufOverrun → ∃ cmd b rest, s.unread = cmd ++ b :: rest ∧ NoTerminator cmd ∧
        Terminator b ∧ (t.unread = rest ∨ ∃ b', Terminator b' ∧ rest = b' :: t.unread))

/-- A byte on its own reaches the ring as a one-byte chunk, in every state: CB.APPENDB is CB.APPEND of it (R72), and WIRE.CR,
WIRE.LF, WIRE.COLON, whose reading as an arrival is the model's (log entry 11), are CB.APPENDB of their byte. Where it fits it
becomes the newest unread byte; a terminator completes a line (R57, R81), a colon does not. Where it does not fit, each of the
four raises BufferOverrun and leaves no unread byte (R79, R130). -/
def Obligations.BytesOnTheWireArriveOneByOne : Prop :=
  ∀ s : State,
    (∀ b, exec (.cbAppendB b) s = exec (.cbAppend [b]) s) ∧
    exec .wireCr s = exec (.cbAppendB 0x0D) s ∧ exec .wireLf s = exec (.cbAppendB 0x0A) s ∧
    exec .wireColon s = exec (.cbAppendB 0x3A) s ∧
    (∀ b, s.cb.length ≥ s.cfg.cap → ∃ t, exec (.cbAppendB b) s = .next t ∧ t.response = some (.err .bufferOverrun) ∧
      SameButRing s t ∧ t.unread = [] ∧ t.cb = { head := 0, tail := 0, length := 0, mem := s.cb.mem }) ∧
    (s.cb.Inv s.cfg.cap → s.cb.length < s.cfg.cap →
      (∀ b, ∃ t, exec (.cbAppendB b) s = .next t ∧ t.response = some (.ok .done) ∧ SameButRing s t ∧
        t.unread = s.unread ++ [b] ∧ t.cb.head = s.cb.head ∧
        ∀ a, a ≠ s.cb.tail % s.cfg.cap → Cells.read t.cb.mem a = Cells.read s.cb.mem a) ∧
      (∃ t, exec .wireCr s = .next t ∧ exec .cbHasCmd t = .next (t.succeed (.boolean true))) ∧
      (∃ t, exec .wireLf s = .next t ∧ exec .cbHasCmd t = .next (t.succeed (.boolean true))) ∧
      ∃ t, exec .wireColon s = .next t ∧
        responseOf (exec .cbHasCmd t) = responseOf (exec .cbHasCmd s))

/-! ### The machine -/

/-- A step runs the instruction the decoder reads from what is presented next, with that taken off the inbox, the rest of its
stream put back, and one more operation counted. How operations are presented and counted is the model's choice (log entries
6, 9). -/
def Obligations.StepRunsTheDecodedInstruction : Prop :=
  ∀ (s : State) (item : Fetch) (items : List Fetch) (i : Instr) (rest : List Nibble), s.inbox = item :: items →
    decode s.cfg s.pd.state item = .instr i rest →
    step s = exec i { s with
      inbox := (if rest = [] then items else .host rest :: items), opCount := s.opCount + 1 }

/-- R5: with nothing presented, no state changes. -/
def Obligations.StepWithNothingPresentedIdles : Prop :=
  ∀ s : State, s.inbox = [] → step s = .next s

/-- A step never faults, and it is refused only where a request record ends inside its operands: every instruction presented
in full completes, in every state. A PD row given to `exec` completes in the state of its row on a byte of its class, and is
refused as `cellNotSelected` elsewhere (log entry 10; R66, R88), where the decoder never gives it. -/
def Obligations.OnlyATruncatedRequestIsRefused : Prop :=
  ∀ s : State,
    ((∃ t, step s = .next t) ∨
      (step s = .refused .truncatedRequest ∧
        ∃ ns items, s.inbox = .host ns :: items ∧ decodeHost ns = .truncated)) ∧
    ∀ (i : Instr) (st : PdState), i.cellState = some st →
      (s.pd.state = st → wellFormed s.cfg i = true → ∃ t, exec i s = .next t) ∧
      (s.pd.state ≠ st ∨ wellFormed s.cfg i = false → exec i s = .refused .cellNotSelected)

/-- Decode and encode agree: the words of every well-formed instruction, with any operands, decode to the core instruction
they stand for and to nothing more, at the port and, for a PD row, in the state of its row. The layout of request records
beyond the op code is the model's (log entry 5). -/
def Obligations.EncodedInstructionsDecodeToThemselves : Prop :=
  ∀ (cfg : Config) (st : PdState) (i : Instr), wellFormed cfg i = true →
    (∀ st', i.cellState = some st' → st = st') → decode cfg st (encode i) = .instr i.core []

/-- What follows a request record in the host's stream does not change how it is read: the record's words before any rest
decode to the same instruction and leave the rest (R72: a program is the sequence of request records). -/
def Obligations.ARequestRecordIsReadToItsEnd : Prop :=
  ∀ (cfg : Config) (st : PdState) (i : Instr) (ns rest : List Nibble), wellFormed cfg i = true →
    encode i = .host ns → decode cfg st (.host (ns ++ rest)) = .instr i.core rest

/-- Words written out from the encodings of the spec decode to what they stand for: op codes of R68 in bits 3:0, PD bytes of
R94 and R100, token texts of R63, wire bytes of R57. Operand nibbles are laid out as log entry 5 says. -/
def Obligations.WrittenOutWordsDecode : Prop :=
  decodeHost [0x0, 0x8, 0x4] = .instr (.seDecode 0x48) [] ∧
  decodeHost [0x2, 0x1, 0x2, 0x0, 0x8] = .instr (.seWithUl 0x8021) [] ∧
  decodeHost [0x5, 0x2, 0x1, 0x4, 0xA, 0x0] = .instr (.cbAppend [0x41, 0x0A]) [] ∧
  decodeHost [0x9, 0x8, 0x8, 0x1] = .instr (.cbExtract 64) [] ∧
  decodeHost [0xD] = .instr .reset [] ∧
  (∀ cfg, decodePd cfg .start 0x7B = .pdStartLbrace ∧ decodePd cfg .idle 0x21 = .pdIdleBang) ∧
  decodeToken [0x30, 0x78, 0x32] = .tokenHexLower [0x32] ∧ decodeWire 0x0D = .wireCr

/-- The invariant: an admissible configuration (R13), the ring invariant R26 with its byte store canonical, the ranges of the
decoder's registers (R30). Every step keeps it, from every state that has it; and no step changes the configuration (R13 d,
R37). -/
def Obligations.StepKeepsTheInvariant : Prop :=
  ∀ s t : State, s.Inv → step s = .next t → t.Inv ∧ t.cfg = s.cfg

/-- Reset has the invariant, whatever the device's parameters and table are (R13, R26, R39). -/
def Obligations.ResetHasTheInvariant : Prop := State.reset.Inv

/-- R129: an error comes only from the operations that raise it (`LINE` passes on those of its stages). -/
def Obligations.ErrorsComeFromTheirOperations : Prop :=
  ∀ (i : Instr) (s t : State) (k : ErrKind), exec i s = .next t → t.response = some (.err k) → MayRaise i k

/-- R140: an error other than BufferOverrun and NoopCommand leaves the CommandBuffer as it was before the operation. (`LINE`
is several operations: its later stages fail after the line was taken out, R128.) -/
def Obligations.ErrorsLeaveTheRingAlone : Prop :=
  ∀ (i : Instr) (s t : State) (k : ErrKind), exec i s = .next t → t.response = some (.err k) →
    k ≠ .bufferOverrun → k ≠ .noopCommand → (∀ d n, i ≠ .line d n) → t.cb = s.cb

/-- R27 and the table of R39: the byte store is written only by appends; `tail` only by appends and RESET; `head` only by
extractions, RESET and a failing append; no other instruction touches the ring, none the parameters or the inbox; the
decoder's registers are written only by its own operations and LINE. -/
def Obligations.OnlyTheirOperationsWriteTheRing : Prop :=
  ∀ (i : Instr) (s t : State), exec i s = .next t →
    (chunkOf i = none → t.cb.mem = s.cb.mem) ∧
    (chunkOf i = none → i ≠ .reset → t.cb.tail = s.cb.tail) ∧
    (chunkOf i = none → i ≠ .reset → ¬Extracts i → t.cb = s.cb) ∧
    (∀ bytes, chunkOf i = some bytes → bytes.length + s.cb.length ≤ s.cfg.cap → t.cb.head = s.cb.head) ∧
    (i.cellState = none → (∀ a n, i ≠ .pdDecode a n) → (∀ d n, i ≠ .line d n) → t.pd = s.pd) ∧
    t.cfg = s.cfg ∧ t.inbox = s.inbox ∧ t.opCount = s.opCount

/-- R28, R38 (derived there): hidden state never shows. Two good states with the same parameters and the same unread bytes,
however their `head`, `tail`, stale cells and decoder registers differ, answer every operation of the host with the same
response and the same unread bytes. So nothing rests on what an unwritten cell reads as (log entry 2) or on what the decoder's
registers hold between operations (log entry 3). -/
def Obligations.HiddenStateNeverShows : Prop :=
  ∀ (i : Instr) (s t : State), s.Inv → t.Inv → s.cfg = t.cfg → s.unread = t.unread → i.cellState = none →
    ∃ s' t', exec i s = .next s' ∧ exec i t = .next t' ∧ s'.response = t'.response ∧ s'.unread = t'.unread

/-- R129 (decision D3): the status of a response is 0 for OK and 1 to 8 for the eight kinds in the order of the taxonomy; 9
to 15 are never produced. -/
def Obligations.StatusCodesNumberTheTaxonomy : Prop :=
  (∀ r, (Response.ok r).status = 0) ∧ (∀ r : Response, r.status.toNat ≤ 8) ∧
  [ErrKind.bufferOverrun, .bufOverrun, .noopCommand, .badCommand, .tooManyArgs, .wrongNumArgs, .parseError,
    .tokenError].map ErrKind.status = [1, 2, 3, 4, 5, 6, 7, 8]

/-- R59, R77 (decision D5): on the response port SE.DECODE and SE.DECODEUL show `nocode = 1` and `0x3FFF` for NoCode, else
`nocode = 0` and the bitmap; with an admissible table the bitmap alone tells them apart, and SE.DECODEUL's sentinel has bit 14
clear. -/
def Obligations.SentinelMarksNoCodeOnThePort : Prop :=
  ∀ (s : State) (c : Byte), s.cfg.Admissible → ∃ (b b' : Bool) (w w' : Bitmap) (t t' : State),
    exec (.seDecode c) s = .next t ∧ t.port = some (0, [.bit b, .word w]) ∧
    exec (.seDecodeUl c) s = .next t' ∧ t'.port = some (0, [.bit b', .word w']) ∧
    (b = true ↔ ∀ v, ¬HasCode s.cfg c v) ∧ b' = b ∧ (w = 0x3FFF ↔ b = true) ∧ (w' = 0x3FFF ↔ b = true) ∧
    ∀ v, HasCode s.cfg c v → w = v.setWidth 16 ∧ w' = v.setWidth 16 ||| 0x4000

/-- R82, U2: on the response port a CB.CMDLEN that is not ready shows `ready = 0` and an offset that may be any value: the
free value of log entry 9, here whatever number it is; a ready one shows `ready = 1` and the offset. -/
def Obligations.NotReadyPortShowsAFreeOffset : Prop :=
  ∀ s : State, ∃ t, exec .cbCmdLen s = .next t ∧
    (NoTerminator s.unread → ∃ free : Nat, t.port = some (0, [.bit false, .number free])) ∧
    ∀ cmd b rest, s.unread = cmd ++ b :: rest → NoTerminator cmd → Terminator b →
      t.port = some (0, [.bit true, .number cmd.length])
end

