-- ==== Sys2Proof/Laws/Config.lean ====
section
/-!
SUPPORT. The spec's reference configuration `CFG_REF` and its table `TESTTAB` are what R17 says of them.
-/

namespace Sys2Proof

@[simp] theorem Config.referenceWithCap_cap (cap : Nat) : (Config.referenceWithCap cap).cap = cap := rfl
@[simp] theorem Config.referenceWithCap_numTubes (cap : Nat) : (Config.referenceWithCap cap).numTubes = 8 := rfl
@[simp] theorem Config.referenceWithCap_tokenMax (cap : Nat) : (Config.referenceWithCap cap).tokenMax = 18 := rfl
@[simp] theorem Config.referenceWithCap_maxArgs (cap : Nat) : (Config.referenceWithCap cap).maxArgs = 4 := rfl
@[simp] theorem Config.referenceWithCap_segTab (cap : Nat) :
    (Config.referenceWithCap cap).segTab = Config.reference.segTab := rfl

/-- `CFG_REF` itself has `CAP = 64`. -/
theorem Config.referenceWithCap_self : Config.referenceWithCap 64 = Config.reference := rfl

/-- The table has one entry for each byte value in `0x20..0x7F`, which is `TESTTAB`'s. -/
theorem Config.reference_segLookup {c : Nat} (h1 : 0x20 ≤ c) (h2 : c ≤ 0x7F) :
    Config.reference.segLookup c = Config.testCode c := by
  have hi : c - 0x20 < 96 := by omega
  have hc : 0x20 + (c - 0x20) = c := by omega
  simp [Config.segLookup, Config.reference, hi, hc]

/-- R17: `TESTTAB` satisfies the constraints of R13, so `CFG_REF` is admissible, with any `CAP >= 1`. -/
theorem Config.referenceWithCap_admissible {cap : Nat} (h : 1 ≤ cap) : (Config.referenceWithCap cap).Admissible := by
  refine ⟨h, by simp, by simp [Config.reference], ?_, ?_, ?_, ?_⟩
  · intro e he
    simp only [Config.referenceWithCap_segTab, Config.reference, List.mem_map, List.mem_range] at he
    obtain ⟨i, hi, rfl⟩ := he
    unfold Config.testCode Config.foldCase
    split
    · simp
    · intro hv
      injection hv with hv
      have hn := congrArg BitVec.toNat hv
      simp only [BitVec.toNat_ofNat, BitVec.reduceToNat] at hn
      split at hn <;> omega
  · intro k hk
    show Config.reference.segLookup _ = Config.reference.segLookup _
    rw [Config.reference_segLookup (by omega) (by omega), Config.reference_segLookup (by omega) (by omega)]
    have hu : Config.foldCase (0x61 + k) = 0x41 + k := by unfold Config.foldCase; rw [if_pos (by omega)]; omega
    have hl : Config.foldCase (0x41 + k) = 0x41 + k := by unfold Config.foldCase; rw [if_neg (by omega)]
    unfold Config.testCode
    rw [if_neg (by omega), if_neg (by omega), hu, hl]
  · exact Config.reference_segLookup (by decide) (by decide)
  · exact congrArg Option.isSome (Config.reference_segLookup (c := 0x20) (by decide) (by decide))

end Sys2Proof
end

