-- ==== Sys2Proof/Laws/Memory.lean ====
section
/-!
SUPPORT. The storage arrays: reading after writing, the canonical form kept by every write, and what the ring's MemRead and
MemWrite (R21) read and write.
-/

namespace Sys2Proof.Machine

section cells
variable {w : Nat} {m : Cells w}

@[simp] theorem Cells.read_nil (a : Nat) : Cells.read ([] : Cells w) a = unlisted w := rfl

theorem Cells.read_cons (b : Nat) (v : BitVec w) (m : Cells w) (a : Nat) :
    Cells.read ((b, v) :: m) a = if a = b then v else Cells.read m a := rfl

theorem Cells.wf_nil : Cells.Wf ([] : Cells w) := ⟨.nil, by simp⟩

theorem Cells.wf_tail {x : Nat × BitVec w} (h : Cells.Wf (x :: m)) : Cells.Wf m :=
  ⟨(List.pairwise_cons.mp h.1).2, fun y hy => h.2 y (List.mem_cons_of_mem _ hy)⟩

theorem Cells.wf_cons {x : Nat × BitVec w} (hm : Cells.Wf m) (hx : x.2 ≠ unlisted w) (hlt : ∀ y ∈ m, x.1 < y.1) :
    Cells.Wf (x :: m) :=
  ⟨List.pairwise_cons.mpr ⟨hlt, hm.1⟩, by
    intro y hy
    rcases List.mem_cons.mp hy with rfl | hy
    exacts [hx, hm.2 y hy]⟩

/-- An index below every listed one is unlisted. -/
theorem Cells.read_of_lt {a : Nat} (h : ∀ x ∈ m, a < x.1) : Cells.read m a = unlisted w := by
  induction m with
  | nil => rfl
  | cons x m ih =>
    obtain ⟨b, v⟩ := x
    have hb : a < b := h (b, v) List.mem_cons_self
    rw [Cells.read_cons, if_neg (Nat.ne_of_lt hb)]
    exact ih fun y hy => h y (List.mem_cons_of_mem _ hy)

/-- The entries of a written array: those before, and the written one. -/
theorem Cells.mem_write {a : Nat} {v : BitVec w} {x : Nat × BitVec w} (h : x ∈ Cells.write m a v) :
    x ∈ m ∨ (x = (a, v) ∧ v ≠ unlisted w) := by
  induction m with
  | nil =>
    simp only [Cells.write] at h
    split at h <;> simp_all
  | cons y m ih =>
    obtain ⟨b, u⟩ := y
    simp only [Cells.write] at h
    split_ifs at h <;> simp only [List.mem_cons] at h ⊢
    · tauto
    · tauto
    · tauto
    · tauto
    · rcases h with h | h
      · tauto
      · rcases ih h with h | h <;> tauto

/-- Every write keeps the canonical form. -/
theorem Cells.write_wf (h : Cells.Wf m) (a : Nat) (v : BitVec w) : Cells.Wf (Cells.write m a v) := by
  induction m with
  | nil =>
    simp only [Cells.write]
    split
    · exact Cells.wf_nil
    · exact Cells.wf_cons Cells.wf_nil ‹_› (by simp)
  | cons y m ih =>
    obtain ⟨b, u⟩ := y
    have hm := Cells.wf_tail h
    have hlt := (List.pairwise_cons.mp h.1).1
    have hu : u ≠ unlisted w := h.2 (b, u) List.mem_cons_self
    simp only [Cells.write]
    split_ifs with h1 h2 h3 h4
    · exact h
    · refine Cells.wf_cons h h2 fun z hz => ?_
      rcases List.mem_cons.mp hz with rfl | hz
      · exact h1
      · exact Nat.lt_trans h1 (hlt z hz)
    · exact hm
    · exact Cells.wf_cons hm h4 (h3 ▸ hlt)
    · refine Cells.wf_cons (ih hm) hu fun z hz => ?_
      rcases Cells.mem_write hz with hz | ⟨rfl, -⟩
      · exact hlt z hz
      · exact Nat.lt_of_le_of_ne (Nat.le_of_not_lt h1) (Ne.symm h3)

/-- Reading after a write: the written index gives the written value, every other index reads as before. -/
theorem Cells.read_write (h : Cells.Wf m) (a : Nat) (v : BitVec w) (b : Nat) :
    Cells.read (Cells.write m a v) b = if b = a then v else Cells.read m b := by
  induction m with
  | nil =>
    simp only [Cells.write]
    split
    · simp_all
    · simp [Cells.read_cons]
  | cons y m ih =>
    obtain ⟨c, u⟩ := y
    have hm := Cells.wf_tail h
    have hlt := (List.pairwise_cons.mp h.1).1
    rw [Cells.write]
    by_cases h1 : a < c
    · rw [if_pos h1]
      by_cases h2 : v = unlisted w
      · rw [if_pos h2, h2]
        by_cases h3 : b = a
        · rw [if_pos h3, h3]
          refine Cells.read_of_lt fun z hz => ?_
          rcases List.mem_cons.mp hz with rfl | hz
          · exact h1
          · exact Nat.lt_trans h1 (hlt z hz)
        · rw [if_neg h3]
      · rw [if_neg h2, Cells.read_cons]
    · rw [if_neg h1]
      by_cases h2 : a = c
      · subst h2
        rw [if_pos rfl, Cells.read_cons]
        by_cases h3 : v = unlisted w
        · rw [if_pos h3, h3]
          by_cases h4 : b = a
          · rw [if_pos h4, h4]
            exact Cells.read_of_lt hlt
          · rw [if_neg h4, if_neg h4]
        · rw [if_neg h3, Cells.read_cons]
          by_cases h4 : b = a <;> simp [h4]
      · rw [if_neg h2, Cells.read_cons, Cells.read_cons, ih hm]
        by_cases h3 : b = a
        · simp [h3, h2]
        · simp [h3]

theorem Cells.writeRun_wf (h : Cells.Wf m) (a : Nat) (vs : List (BitVec w)) : Cells.Wf (Cells.writeRun m a vs) := by
  induction vs generalizing m a with
  | nil => exact h
  | cons v vs ih => exact ih (Cells.write_wf h a v) (a + 1)

/-- Reading after a run of writes: inside the run the written value, outside it as before. -/
theorem Cells.read_writeRun (h : Cells.Wf m) (a : Nat) (vs : List (BitVec w)) (b : Nat) :
    Cells.read (Cells.writeRun m a vs) b =
      if a ≤ b ∧ b < a + vs.length then vs.getD (b - a) (unlisted w) else Cells.read m b := by
  induction vs generalizing m a with
  | nil => simp only [Cells.writeRun, List.length_nil]; rw [if_neg (by omega)]
  | cons v vs ih =>
    rw [Cells.writeRun, ih (Cells.write_wf h a v), Cells.read_write h]
    simp only [List.length_cons]
    by_cases hb : b = a
    · subst hb
      rw [if_neg (by omega), if_pos rfl, if_pos (by omega)]
      simp
    · by_cases hin : a + 1 ≤ b ∧ b < a + 1 + vs.length
      · rw [if_pos hin, if_pos (by omega)]
        obtain ⟨k, rfl⟩ : ∃ k, b = a + 1 + k := ⟨b - (a + 1), by omega⟩
        rw [show a + 1 + k - a = k + 1 by omega, show a + 1 + k - (a + 1) = k by omega, List.getD_cons_succ]
      · rw [if_neg hin, if_neg hb, if_neg (by omega)]

@[simp] theorem Cells.readRun_length (m : Cells w) (a n : Nat) : (Cells.readRun m a n).length = n := by
  simp [Cells.readRun]

@[simp] theorem Cells.getElem_readRun (m : Cells w) (a n k : Nat) (h : k < (Cells.readRun m a n).length) :
    (Cells.readRun m a n)[k] = Cells.read m (a + k) := by
  simp [Cells.readRun]

end cells

/-! ### The ring -/

@[simp] theorem memRead_length (cap : Nat) (mem : List Host.Cell) (addr n : Nat) :
    (memRead cap mem addr n).length = n := by
  simp [memRead]

@[simp] theorem getElem_memRead (cap : Nat) (mem : List Host.Cell) (addr n k : Nat)
    (h : k < (memRead cap mem addr n).length) :
    (memRead cap mem addr n)[k] = Cells.read mem ((addr + k) % cap) := by
  simp [memRead]

theorem memWrite_wf {mem : List Host.Cell} (h : Cells.Wf mem) (cap addr : Nat) (bs : List Byte) :
    Cells.Wf (memWrite cap mem addr bs) := by
  induction bs generalizing mem addr with
  | nil => exact h
  | cons b bs ih => exact ih (Cells.write_wf h _ b) (addr + 1)

/-- MemWrite stores inside `0..CAP-1` only. -/
theorem memWrite_bound {cap : Nat} (hcap : 0 < cap) {mem : List Host.Cell} (h : ∀ x ∈ mem, x.1 < cap) (addr : Nat)
    (bs : List Byte) : ∀ x ∈ memWrite cap mem addr bs, x.1 < cap := by
  induction bs generalizing mem addr with
  | nil => exact h
  | cons b bs ih =>
    refine ih (fun x hx => ?_) (addr + 1)
    rcases Cells.mem_write hx with hx | ⟨rfl, -⟩
    · exact h x hx
    · exact Nat.mod_lt _ hcap

/-- MemWrite leaves every other index alone. -/
theorem memWrite_read_other {mem : List Host.Cell} (h : Cells.Wf mem) (cap addr : Nat) (bs : List Byte) (j : Nat)
    (hj : ∀ k < bs.length, j ≠ (addr + k) % cap) : Cells.read (memWrite cap mem addr bs) j = Cells.read mem j := by
  induction bs generalizing mem addr with
  | nil => rfl
  | cons b bs ih =>
    rw [memWrite, ih (Cells.write_wf h _ b) (addr + 1), Cells.read_write h, if_neg]
    · simpa using hj 0 (by simp)
    · intro k hk
      have := hj (k + 1) (by simpa using hk)
      rwa [show addr + (k + 1) = addr + 1 + k by omega] at this

/-- Two offsets below `CAP` apart from one address are two indices of the ring. -/
theorem add_mod_inj {cap addr i j : Nat} (hi : i < cap) (hj : j < cap) (h : (addr + i) % cap = (addr + j) % cap) :
    i = j := by
  have := Nat.ModEq.add_left_cancel' addr (show addr + i ≡ addr + j [MOD cap] from h)
  rwa [Nat.ModEq, Nat.mod_eq_of_lt hi, Nat.mod_eq_of_lt hj] at this

/-- MemWrite stores byte `k` at index `(addr + k) mod CAP`. -/
theorem memWrite_read_same {mem : List Host.Cell} (h : Cells.Wf mem) (cap addr : Nat) (bs : List Byte)
    (hn : bs.length ≤ cap) (k : Nat) (hk : k < bs.length) :
    Cells.read (memWrite cap mem addr bs) ((addr + k) % cap) = bs[k] := by
  induction bs generalizing mem addr k with
  | nil => simp at hk
  | cons b bs ih =>
    simp only [List.length_cons] at hn hk
    rw [memWrite]
    cases k with
    | zero =>
      rw [memWrite_read_other (Cells.write_wf h _ b), Cells.read_write h, if_pos (by simp)]
      · rfl
      · intro k hk' he
        rw [show addr + 1 + k = addr + (k + 1) by omega] at he
        have := add_mod_inj (by omega) (by omega) he
        omega
    | succ k =>
      rw [show addr + (k + 1) = addr + 1 + k by omega,
        ih (Cells.write_wf h _ b) (addr + 1) (by omega) k (by omega)]
      rfl

end Sys2Proof.Machine
end

