-- ==== Sys2Proof/Laws/State.lean ====
section
/-!
SUPPORT. One lemma per field per update of the state records, each true by rfl, so that no later proof unfolds an update.
-/

namespace Sys2Proof.Machine

@[simp] theorem State.setCb_cfg (s : State) (cb : CB) : (s.setCb cb).cfg = s.cfg := rfl
@[simp] theorem State.setCb_cb (s : State) (cb : CB) : (s.setCb cb).cb = cb := rfl
@[simp] theorem State.setCb_pd (s : State) (cb : CB) : (s.setCb cb).pd = s.pd := rfl
@[simp] theorem State.setCb_response (s : State) (cb : CB) : (s.setCb cb).response = s.response := rfl
@[simp] theorem State.setCb_inbox (s : State) (cb : CB) : (s.setCb cb).inbox = s.inbox := rfl
@[simp] theorem State.setCb_opCount (s : State) (cb : CB) : (s.setCb cb).opCount = s.opCount := rfl

@[simp] theorem State.setPd_cfg (s : State) (pd : PD) : (s.setPd pd).cfg = s.cfg := rfl
@[simp] theorem State.setPd_cb (s : State) (pd : PD) : (s.setPd pd).cb = s.cb := rfl
@[simp] theorem State.setPd_pd (s : State) (pd : PD) : (s.setPd pd).pd = pd := rfl
@[simp] theorem State.setPd_response (s : State) (pd : PD) : (s.setPd pd).response = s.response := rfl
@[simp] theorem State.setPd_inbox (s : State) (pd : PD) : (s.setPd pd).inbox = s.inbox := rfl
@[simp] theorem State.setPd_opCount (s : State) (pd : PD) : (s.setPd pd).opCount = s.opCount := rfl

@[simp] theorem State.respond_cfg (s : State) (r : Option Response) : (s.respond r).cfg = s.cfg := rfl
@[simp] theorem State.respond_cb (s : State) (r : Option Response) : (s.respond r).cb = s.cb := rfl
@[simp] theorem State.respond_pd (s : State) (r : Option Response) : (s.respond r).pd = s.pd := rfl
@[simp] theorem State.respond_response (s : State) (r : Option Response) : (s.respond r).response = r := rfl
@[simp] theorem State.respond_inbox (s : State) (r : Option Response) : (s.respond r).inbox = s.inbox := rfl
@[simp] theorem State.respond_opCount (s : State) (r : Option Response) : (s.respond r).opCount = s.opCount := rfl

@[simp] theorem State.succeed_cfg (s : State) (r : Result) : (s.succeed r).cfg = s.cfg := rfl
@[simp] theorem State.succeed_cb (s : State) (r : Result) : (s.succeed r).cb = s.cb := rfl
@[simp] theorem State.succeed_pd (s : State) (r : Result) : (s.succeed r).pd = s.pd := rfl
@[simp] theorem State.succeed_response (s : State) (r : Result) : (s.succeed r).response = some (.ok r) := rfl
@[simp] theorem State.succeed_inbox (s : State) (r : Result) : (s.succeed r).inbox = s.inbox := rfl
@[simp] theorem State.succeed_opCount (s : State) (r : Result) : (s.succeed r).opCount = s.opCount := rfl

@[simp] theorem State.raise_cfg (s : State) (k : ErrKind) : (s.raise k).cfg = s.cfg := rfl
@[simp] theorem State.raise_cb (s : State) (k : ErrKind) : (s.raise k).cb = s.cb := rfl
@[simp] theorem State.raise_pd (s : State) (k : ErrKind) : (s.raise k).pd = s.pd := rfl
@[simp] theorem State.raise_response (s : State) (k : ErrKind) : (s.raise k).response = some (.err k) := rfl
@[simp] theorem State.raise_inbox (s : State) (k : ErrKind) : (s.raise k).inbox = s.inbox := rfl
@[simp] theorem State.raise_opCount (s : State) (k : ErrKind) : (s.raise k).opCount = s.opCount := rfl

@[simp] theorem State.advance_cfg (s : State) (rest : List Nibble) : (s.advance rest).cfg = s.cfg := rfl
@[simp] theorem State.advance_cb (s : State) (rest : List Nibble) : (s.advance rest).cb = s.cb := rfl
@[simp] theorem State.advance_pd (s : State) (rest : List Nibble) : (s.advance rest).pd = s.pd := rfl
@[simp] theorem State.advance_response (s : State) (rest : List Nibble) : (s.advance rest).response = s.response := rfl
@[simp] theorem State.advance_inbox (s : State) (rest : List Nibble) : (s.advance rest).inbox = restOf rest ++ s.inbox.tail := rfl
@[simp] theorem State.advance_opCount (s : State) (rest : List Nibble) : (s.advance rest).opCount = s.opCount + 1 := rfl

@[simp] theorem State.withFetchWord_cfg (s : State) (nbits w : Nat) : (s.withFetchWord nbits w).cfg = s.cfg := rfl
@[simp] theorem State.withFetchWord_cb (s : State) (nbits w : Nat) : (s.withFetchWord nbits w).cb = s.cb := rfl
@[simp] theorem State.withFetchWord_pd (s : State) (nbits w : Nat) : (s.withFetchWord nbits w).pd = s.pd := rfl
@[simp] theorem State.withFetchWord_response (s : State) (nbits w : Nat) : (s.withFetchWord nbits w).response = s.response := rfl
@[simp] theorem State.withFetchWord_inbox (s : State) (nbits w : Nat) : (s.withFetchWord nbits w).inbox = fetchOfWord nbits w :: s.inbox := rfl
@[simp] theorem State.withFetchWord_opCount (s : State) (nbits w : Nat) : (s.withFetchWord nbits w).opCount = s.opCount := rfl

@[simp] theorem CB.clear_head (cb : CB) : (cb.clear).head = 0 := rfl
@[simp] theorem CB.clear_tail (cb : CB) : (cb.clear).tail = 0 := rfl
@[simp] theorem CB.clear_length (cb : CB) : (cb.clear).length = 0 := rfl
@[simp] theorem CB.clear_mem (cb : CB) : (cb.clear).mem = cb.mem := rfl

@[simp] theorem CB.store_head (cb : CB) (cap : Nat) (bytes : List Byte) : (cb.store cap bytes).head = cb.head := rfl
@[simp] theorem CB.store_tail (cb : CB) (cap : Nat) (bytes : List Byte) : (cb.store cap bytes).tail = (cb.tail + bytes.length) % cap := rfl
@[simp] theorem CB.store_length (cb : CB) (cap : Nat) (bytes : List Byte) : (cb.store cap bytes).length = cb.length + bytes.length := rfl
@[simp] theorem CB.store_mem (cb : CB) (cap : Nat) (bytes : List Byte) : (cb.store cap bytes).mem = memWrite cap cb.mem cb.tail bytes := rfl

@[simp] theorem CB.drop_head (cb : CB) (cap n : Nat) : (cb.drop cap n).head = (cb.head + n) % cap := rfl
@[simp] theorem CB.drop_tail (cb : CB) (cap n : Nat) : (cb.drop cap n).tail = cb.tail := rfl
@[simp] theorem CB.drop_length (cb : CB) (cap n : Nat) : (cb.drop cap n).length = cb.length - n := rfl
@[simp] theorem CB.drop_mem (cb : CB) (cap n : Nat) : (cb.drop cap n).mem = cb.mem := rfl

@[simp] theorem PD.rest_state (cfg : Config) : (PD.rest cfg).state = .start := rfl
@[simp] theorem PD.rest_pos (cfg : Config) : (PD.rest cfg).pos = 0 := rfl
@[simp] theorem PD.rest_n (cfg : Config) : (PD.rest cfg).n = 0 := rfl
@[simp] theorem PD.rest_tlen (cfg : Config) : (PD.rest cfg).tlen = 0 := rfl
@[simp] theorem PD.rest_tok (cfg : Config) : (PD.rest cfg).tok = [] := rfl
@[simp] theorem PD.rest_out (cfg : Config) : (PD.rest cfg).out = [] := rfl
@[simp] theorem PD.rest_tubeCount (cfg : Config) : (PD.rest cfg).tubeCount = cfg.numTubes := rfl

@[simp] theorem State.endScan_cfg (s : State) (r : Response) : (s.endScan r).cfg = s.cfg := rfl
@[simp] theorem State.endScan_cb (s : State) (r : Response) : (s.endScan r).cb = s.cb := rfl
@[simp] theorem State.endScan_pd (s : State) (r : Response) : (s.endScan r).pd = PD.rest s.cfg := rfl
@[simp] theorem State.endScan_response (s : State) (r : Response) : (s.endScan r).response = some r := rfl
@[simp] theorem State.endScan_inbox (s : State) (r : Response) : (s.endScan r).inbox = s.inbox := rfl
@[simp] theorem State.endScan_opCount (s : State) (r : Response) : (s.endScan r).opCount = s.opCount := rfl

@[simp] theorem PD.consume_state (pd : PD) : (pd.consume).state = pd.state := rfl
@[simp] theorem PD.consume_pos (pd : PD) : (pd.consume).pos = pd.pos + 1 := rfl
@[simp] theorem PD.consume_n (pd : PD) : (pd.consume).n = pd.n := rfl
@[simp] theorem PD.consume_tlen (pd : PD) : (pd.consume).tlen = pd.tlen := rfl
@[simp] theorem PD.consume_tok (pd : PD) : (pd.consume).tok = pd.tok := rfl
@[simp] theorem PD.consume_out (pd : PD) : (pd.consume).out = pd.out := rfl
@[simp] theorem PD.consume_tubeCount (pd : PD) : (pd.consume).tubeCount = pd.tubeCount := rfl

@[simp] theorem PD.begin_state (pd : PD) (tubeCount : Nat) : (pd.begin tubeCount).state = .start := rfl
@[simp] theorem PD.begin_pos (pd : PD) (tubeCount : Nat) : (pd.begin tubeCount).pos = 0 := rfl
@[simp] theorem PD.begin_n (pd : PD) (tubeCount : Nat) : (pd.begin tubeCount).n = 0 := rfl
@[simp] theorem PD.begin_tlen (pd : PD) (tubeCount : Nat) : (pd.begin tubeCount).tlen = 0 := rfl
@[simp] theorem PD.begin_tok (pd : PD) (tubeCount : Nat) : (pd.begin tubeCount).tok = pd.tok := rfl
@[simp] theorem PD.begin_out (pd : PD) (tubeCount : Nat) : (pd.begin tubeCount).out = pd.out := rfl
@[simp] theorem PD.begin_tubeCount (pd : PD) (tubeCount : Nat) : (pd.begin tubeCount).tubeCount = tubeCount := rfl

@[simp] theorem PD.fill_state (pd : PD) (cfg : Config) : (PD.fill cfg pd).state = pd.state := rfl
@[simp] theorem PD.fill_pos (pd : PD) (cfg : Config) : (PD.fill cfg pd).pos = pd.pos := rfl
@[simp] theorem PD.fill_n (pd : PD) (cfg : Config) : (PD.fill cfg pd).n = pd.n := rfl
@[simp] theorem PD.fill_tlen (pd : PD) (cfg : Config) : (PD.fill cfg pd).tlen = pd.tlen := rfl
@[simp] theorem PD.fill_tok (pd : PD) (cfg : Config) : (PD.fill cfg pd).tok = pd.tok := rfl
@[simp] theorem PD.fill_out (pd : PD) (cfg : Config) : (PD.fill cfg pd).out = Cells.writeRun pd.out pd.n (List.replicate (pd.tubeCount - pd.n) (spaceBitmap cfg)) := rfl
@[simp] theorem PD.fill_tubeCount (pd : PD) (cfg : Config) : (PD.fill cfg pd).tubeCount = pd.tubeCount := rfl

end Sys2Proof.Machine
end

