-- ==== Sys2Proof/Laws/Ops.lean ====
section
/-!
SUPPORT. For each shared operation, once, everything it can do: the steps of the CommandBuffer, the steps of the print
decoder, fetching, and one step of the machine. Later proofs cite these and do not unfold the operations.
-/

namespace Sys2Proof.Machine

/-! ### The unread region -/

@[simp] theorem CB.unread_length (cap : Nat) (cb : CB) : (cb.unread cap).length = cb.length := by
  simp [CB.unread]

@[simp] theorem CB.getElem_unread (cap : Nat) (cb : CB) (i : Nat) (h : i < (cb.unread cap).length) :
    (cb.unread cap)[i] = cb.byteAt cap i := by
  simp [CB.unread, CB.byteAt]

theorem CB.byteAt_drop (cap : Nat) (cb : CB) (n i : Nat) : (cb.drop cap n).byteAt cap i = cb.byteAt cap (n + i) := by
  simp [CB.byteAt, Nat.add_assoc]

/-- Consuming `n` bytes drops the `n` oldest unread bytes. -/
theorem CB.unread_drop (cap : Nat) (cb : CB) (n : Nat) : (cb.drop cap n).unread cap = (cb.unread cap).drop n := by
  apply List.ext_getElem
  · simp
  · intro i h1 h2
    simp [CB.byteAt_drop]

@[simp] theorem CB.unread_clear (cap : Nat) (cb : CB) : cb.clear.unread cap = [] := by
  simp [CB.unread, memRead]

/-! ### CommandBuffer steps -/

/-- `CB.APPEND`: either the chunk does not fit and everything is cleared, or it is stored. -/
theorem CB.append_cases (cap : Nat) (cb : CB) (bytes : List Byte) :
    (bytes.length + cb.length > cap ∧ cb.append cap bytes = (cb.clear, .err .bufferOverrun)) ∨
    (bytes.length + cb.length ≤ cap ∧ cb.append cap bytes = (cb.store cap bytes, .ok .done)) := by
  unfold CB.append
  by_cases h : bytes.length + cb.length > cap
  · exact .inl ⟨h, if_pos h⟩
  · exact .inr ⟨Nat.le_of_not_lt h, if_neg h⟩

/-- `CB.CMDLEN` is ready with the lowest offset of a terminator. -/
theorem CB.cmdLen_eq_some {cap : Nat} {cb : CB} {t : Nat} :
    cb.cmdLen cap = some t ↔
      isTerm (cb.byteAt cap t) = true ∧ t < cb.length ∧ ∀ j < t, isTerm (cb.byteAt cap j) = false := by
  simp [CB.cmdLen]

/-- `CB.CMDLEN` is not ready if no unread byte is a terminator. -/
theorem CB.cmdLen_eq_none {cap : Nat} {cb : CB} :
    cb.cmdLen cap = none ↔ ∀ j < cb.length, isTerm (cb.byteAt cap j) = false := by
  simp [CB.cmdLen]

/-- `CB.HASCMD` says whether `CB.CMDLEN` is ready. -/
theorem CB.hasCmd_eq_isSome (cap : Nat) (cb : CB) : cb.hasCmd cap = (cb.cmdLen cap).isSome := by
  rw [Bool.eq_iff_iff]
  simp [CB.hasCmd, CB.cmdLen]

/-- One trimming step consumes one terminator at the head or nothing. -/
theorem CB.trimOne_cases (cap : Nat) (cb : CB) :
    (0 < cb.length ∧ isTerm (Cells.read cb.mem cb.head) = true ∧ cb.trimOne cap = cb.drop cap 1) ∨
    ((cb.length = 0 ∨ isTerm (Cells.read cb.mem cb.head) = false) ∧ cb.trimOne cap = cb) := by
  unfold CB.trimOne
  by_cases h : 0 < cb.length ∧ isTerm (Cells.read cb.mem cb.head) = true
  · exact .inl ⟨h.1, h.2, if_pos h⟩
  · refine .inr ⟨?_, if_neg h⟩
    rcases Nat.eq_zero_or_pos cb.length with h0 | h0
    · exact .inl h0
    · exact .inr (by simpa using fun ht => h ⟨h0, ht⟩)

/-- `CB.EXTRACT`: not ready, empty line, destination too small, or a command delivered. -/
theorem CB.extract_cases (cap : Nat) (cb : CB) (d : Nat) :
    (cb.cmdLen cap = none ∧ cb.extract cap d = (cb, .ok .notReady)) ∨
    (cb.cmdLen cap = some 0 ∧ cb.extract cap d = (cb.trim cap, .err .noopCommand)) ∨
    (∃ t, cb.cmdLen cap = some (t + 1) ∧ t + 1 > d ∧ cb.extract cap d = (cb, .err .bufOverrun)) ∨
    (∃ t, cb.cmdLen cap = some (t + 1) ∧ t + 1 ≤ d ∧
      cb.extract cap d = ((cb.drop cap (t + 1)).trim cap, .ok (.command (memRead cap cb.mem cb.head (t + 1))))) := by
  unfold CB.extract
  rcases h : cb.cmdLen cap with _ | _ | t
  · exact .inl ⟨rfl, rfl⟩
  · exact .inr (.inl ⟨rfl, rfl⟩)
  · by_cases hd : t + 1 > d
    · exact .inr (.inr (.inl ⟨t, rfl, hd, if_pos hd⟩))
    · exact .inr (.inr (.inr ⟨t, rfl, Nat.le_of_not_lt hd, if_neg hd⟩))

/-! ### Print decoder steps -/

/-- `Emit`: the array is full and the scan stops, or one bitmap is appended. -/
theorem PD.emit_cases (pd : PD) (v : Bitmap) (next : PdState) :
    (pd.n = pd.tubeCount ∧ pd.emit v next = .stop pd) ∨
    (pd.n ≠ pd.tubeCount ∧
      pd.emit v next = .go { pd with out := Cells.write pd.out pd.n v, n := pd.n + 1, state := next }) := by
  unfold PD.emit
  by_cases h : pd.n = pd.tubeCount
  · exact .inl ⟨h, if_pos h⟩
  · exact .inr ⟨h, if_neg h⟩

/-- `Buffer`: the token buffer is full and ParseError is raised, or one byte is appended. -/
theorem PD.buffer_cases (tokenMax : Nat) (pd : PD) (c : Byte) (next : PdState) :
    (pd.tlen = tokenMax ∧ pd.buffer tokenMax c next = .raise .parseError) ∨
    (pd.tlen ≠ tokenMax ∧ pd.buffer tokenMax c next =
      .go { pd with tok := Cells.write pd.tok pd.tlen c, tlen := pd.tlen + 1, state := next }) := by
  unfold PD.buffer
  by_cases h : pd.tlen = tokenMax
  · exact .inl ⟨h, if_pos h⟩
  · exact .inr ⟨h, if_neg h⟩

/-- A byte as a character: emitted if it has a code, ParseError if not. -/
theorem PD.showChar_cases (cfg : Config) (pd : PD) (c : Byte) (next : PdState) :
    (segDecode cfg c = none ∧ pd.showChar cfg c next = .raise .parseError) ∨
    (∃ v, segDecode cfg c = some v ∧ pd.showChar cfg c next = pd.emit (codeBitmap v) next) := by
  unfold PD.showChar
  rcases segDecode cfg c with _ | v
  · exact .inl ⟨rfl, rfl⟩
  · exact .inr ⟨v, rfl, rfl⟩

/-- A byte underlined: emitted with bit 14 if it has a code, ParseError if not. -/
theorem PD.showUnderlined_cases (cfg : Config) (pd : PD) (c : Byte) (next : PdState) :
    (segDecode cfg c = none ∧ pd.showUnderlined cfg c next = .raise .parseError) ∨
    (∃ v, segDecode cfg c = some v ∧
      pd.showUnderlined cfg c next = pd.emit (withUnderline (codeBitmap v)) next) := by
  unfold PD.showUnderlined segDecodeUnderlined
  rcases segDecode cfg c with _ | v
  · exact .inl ⟨rfl, rfl⟩
  · exact .inr ⟨v, rfl, rfl⟩

/-- A closed token: TokenError, or its value emitted. -/
theorem PD.closeToken_cases (pd : PD) :
    (tokenValue pd.tokenText = none ∧ pd.closeToken = .raise .tokenError) ∨
    (∃ v, tokenValue pd.tokenText = some v ∧ pd.closeToken = pd.emit v .idle) := by
  unfold PD.closeToken
  rcases tokenValue pd.tokenText with _ | v
  · exact .inl ⟨rfl, rfl⟩
  · exact .inr ⟨v, rfl, rfl⟩

/-- `!` in Idle: nothing to underline, or the last bitmap underlined in place. -/
theorem PD.underlineLast_cases (pd : PD) :
    (pd.n = 0 ∧ pd.underlineLast = .raise .parseError) ∨
    (pd.n ≠ 0 ∧ pd.underlineLast = .go { pd with
      out := Cells.write pd.out (pd.n - 1) (withUnderline (Cells.read pd.out (pd.n - 1))), state := .idle }) := by
  unfold PD.underlineLast
  by_cases h : pd.n = 0
  · exact .inl ⟨h, if_pos h⟩
  · exact .inr ⟨h, if_neg h⟩

/-- The end of input: an open bracket is ParseError, else the tail is filled and the array delivered. -/
theorem PD.finish_cases (cfg : Config) (pd : PD) :
    ((pd.state = .tokenStart ∨ pd.state = .token ∨ pd.state = .underline) ∧
      pd.finish cfg = .err .parseError) ∨
    ((pd.state = .start ∨ pd.state = .idle) ∧
      pd.finish cfg = .ok (.bitmaps (pd.fill cfg).result)) := by
  unfold PD.finish
  rcases pd.state <;> simp

@[simp] theorem PD.result_length (pd : PD) : pd.result.length = pd.tubeCount := by
  simp [PD.result]

@[simp] theorem PD.tokenText_length (pd : PD) : pd.tokenText.length = pd.tlen := by
  simp [PD.tokenText]

/-- A PD row acts where it is selected. -/
theorem runCell_selected {st : PdState} {k : ByteClass} {c : Byte} {cell : Config → PD → CellOut} {s : State}
    (hs : s.pd.state = st) (hc : classOf s.cfg c = k) :
    runCell st k c cell s = .next (s.settle (cell s.cfg s.pd.consume)) :=
  if_pos ⟨hs, hc⟩

/-- A PD row that answers a next state was selected. -/
theorem runCell_next {st : PdState} {k : ByteClass} {c : Byte} {cell : Config → PD → CellOut} {s t : State}
    (h : runCell st k c cell s = .next t) :
    s.pd.state = st ∧ classOf s.cfg c = k ∧ t = s.settle (cell s.cfg s.pd.consume) := by
  unfold runCell at h
  split at h
  · rename_i hsel
    exact ⟨hsel.1, hsel.2, by injection h with h; exact h.symm⟩
  · cases h

/-- How a transition ends in the state: only the working registers and the response are written. -/
theorem State.settle_frame (s : State) (out : CellOut) :
    (s.settle out).cfg = s.cfg ∧ (s.settle out).cb = s.cb ∧ (s.settle out).inbox = s.inbox ∧
      (s.settle out).opCount = s.opCount := by
  cases out <;> exact ⟨rfl, rfl, rfl, rfl⟩

/-- A transition goes on in some registers and answers nothing yet, or ends the scan: the decoder is at rest and the response
is an error or an array (R92, R155). -/
theorem State.settle_cases (s : State) (out : CellOut) :
    (∃ pd, out = .go pd ∧ (s.settle out).pd = pd ∧ (s.settle out).response = none) ∨
    ((s.settle out).pd = PD.rest s.cfg ∧
      ((∃ k, out = .raise k ∧ (s.settle out).response = some (.err k)) ∨
        ∃ pd, out = .stop pd ∧ (s.settle out).response = some (.ok (.bitmaps pd.result)))) := by
  cases out with
  | go pd => exact .inl ⟨pd, rfl, rfl, rfl⟩
  | raise k => exact .inr ⟨rfl, .inl ⟨k, rfl, rfl⟩⟩
  | stop pd => exact .inr ⟨rfl, .inr ⟨pd, rfl, rfl⟩⟩

/-- How a token value ends in the state: only the response is written. -/
theorem State.returnToken_cases (s : State) (v : Option Bitmap) :
    (v = none ∧ s.returnToken v = s.raise .tokenError) ∨
    (∃ b, v = some b ∧ s.returnToken v = s.succeed (.bitmap b)) := by
  cases v with
  | none => exact .inl ⟨rfl, rfl⟩
  | some b => exact .inr ⟨b, rfl, rfl⟩

/-! ### Operands -/

@[simp] theorem classOf_lbrace (cfg : Config) : classOf cfg chLbrace = .lbrace := rfl
@[simp] theorem classOf_bang (cfg : Config) : classOf cfg chBang = .bang := rfl
@[simp] theorem classOf_rbrace (cfg : Config) : classOf cfg chRbrace = .rbrace := rfl

/-- The bytes of each class (R66). -/
theorem classOf_cases (cfg : Config) (c : Byte) :
    (classOf cfg c = .lbrace ∧ c = chLbrace) ∨ (classOf cfg c = .bang ∧ c = chBang) ∨
    (classOf cfg c = .rbrace ∧ c = chRbrace) ∨
    (classOf cfg c = .printable ∧ (segDecode cfg c).isSome = true ∧ c ≠ chLbrace ∧ c ≠ chBang ∧ c ≠ chRbrace) ∨
    (classOf cfg c = .nonprintable ∧ segDecode cfg c = none ∧ c ≠ chLbrace ∧ c ≠ chBang ∧ c ≠ chRbrace) := by
  unfold classOf
  by_cases h1 : c = chLbrace
  · simp [h1]
  by_cases h2 : c = chBang
  · simp [h2]
  by_cases h3 : c = chRbrace
  · simp [h3]
  rw [if_neg h1, if_neg h2, if_neg h3]
  rcases segDecode cfg c with _ | v
  · exact .inr (.inr (.inr (.inr ⟨rfl, rfl, h1, h2, h3⟩)))
  · exact .inr (.inr (.inr (.inl ⟨rfl, rfl, h1, h2, h3⟩)))

/-- The fields of a command are never none. -/
theorem splitColon_ne_nil (cmd : List Byte) : splitColon cmd ≠ [] := by
  induction cmd with
  | nil => simp [splitColon]
  | cons b bs ih =>
    unfold splitColon
    split
    · split <;> simp
    · simp

/-- A colon opens a new field; any other byte belongs to the field it stands in. -/
theorem splitColon_cons (b : Byte) (bs : List Byte) :
    ∃ field fields, splitColon bs = field :: fields ∧
      splitColon (b :: bs) = if b = chColon then [] :: field :: fields else (b :: field) :: fields := by
  rcases h : splitColon bs with _ | ⟨field, fields⟩
  · exact absurd h (splitColon_ne_nil bs)
  · exact ⟨field, fields, rfl, by rw [splitColon, h]⟩

/-! ### Fetching and stepping -/

@[simp] theorem restOf_nil : restOf [] = [] := rfl

/-- What a step that answers a next state did: nothing, for nothing was presented, or the operation fetched. -/
theorem step_next {s t : State} (h : step s = .next t) :
    (s.inbox = [] ∧ t = s) ∨ (∃ i u, fetchNext s = .run i u ∧ exec i u = .next t) := by
  unfold step at h
  rcases hf : fetchNext s with _ | ⟨i, u⟩ | r
  · rw [hf] at h
    refine .inl ⟨?_, by injection h with h; exact h.symm⟩
    unfold fetchNext at hf
    split at hf
    · assumption
    · split at hf <;> cases hf
  · rw [hf] at h
    exact .inr ⟨i, u, rfl, h⟩
  · rw [hf] at h
    cases h

/-- What fetching can answer. -/
theorem fetchNext_run {s u : State} {i : Instr} (h : fetchNext s = .run i u) :
    ∃ item items, s.inbox = item :: items ∧
      ((∃ rest, decode s.cfg s.pd.state item = .instr i rest ∧ u = s.advance rest) ∨
       (∃ op rest, decode s.cfg s.pd.state item = .reserved op rest ∧ i = reservedRow op ∧ u = s.advance rest)) := by
  unfold fetchNext at h
  split at h
  · cases h
  · rename_i item items hin
    refine ⟨item, items, hin, ?_⟩
    split at h
    · rename_i j rest hd
      cases h
      exact .inl ⟨rest, hd, rfl⟩
    · rename_i op rest hd
      cases h
      exact .inr ⟨op, rest, hd, rfl, rfl⟩
    · cases h

end Sys2Proof.Machine
end

