-- ==== Sys2Proof/Laws/PerInstr.lean ====
section
/-!
SUPPORT. Statements about every instruction as a term, one lemma per constructor.
-/

namespace Sys2Proof.Laws

/-- The format column of opcode_table.json for a constructor's row, as the port its words are presented at: HOST,
HOST-RESERVED and the core words of PSEUDO rows at the host port, the others at their own. -/
def EncodePort.Port (f : Fetch) (k : Nat) : Prop :=
  match f, k with
  | .host _, 0 => True
  | .line _ _, 1 => True
  | .pd _, 2 => True
  | .token _, 3 => True
  | .wire _, 4 => True
  | _, _ => False

/-- The port number of an instruction: a PD row's is the byte port of the decoder, whatever its state. -/
def EncodePort.number (i : Instr) : Nat :=
  match i with
  | .line _ _ => 1
  | .tokenHexLower _ | .tokenHexUpper _ | .tokenBinLower _ | .tokenBinUpper _ => 3
  | .wireCr | .wireLf | .wireColon => 4
  | i => if i.cellState.isSome then 2 else 0

/-- An instruction's words are presented at the port of its row's format. -/
def EncodePort.Statement (i : Instr) : Prop := EncodePort.Port (encode i) (EncodePort.number i)

theorem EncodePort.seDecode (c : Byte) : EncodePort.Statement (.seDecode c) := trivial
theorem EncodePort.seIsPrint (c : Byte) : EncodePort.Statement (.seIsPrint c) := trivial
theorem EncodePort.seWithUl (b : Bitmap) : EncodePort.Statement (.seWithUl b) := trivial
theorem EncodePort.seWithColon (b : Bitmap) : EncodePort.Statement (.seWithColon b) := trivial
theorem EncodePort.seDecodeUl (c : Byte) : EncodePort.Statement (.seDecodeUl c) := trivial
theorem EncodePort.cbAppend (bytes : List Byte) : EncodePort.Statement (.cbAppend bytes) := trivial
theorem EncodePort.cbPendLen : EncodePort.Statement (.cbPendLen) := trivial
theorem EncodePort.cbHasCmd : EncodePort.Statement (.cbHasCmd) := trivial
theorem EncodePort.cbCmdLen : EncodePort.Statement (.cbCmdLen) := trivial
theorem EncodePort.cbExtract (destCapacity : Nat) : EncodePort.Statement (.cbExtract destCapacity) := trivial
theorem EncodePort.pdDecode (argument : List Byte) (tubeCount : Nat) : EncodePort.Statement (.pdDecode argument tubeCount) := trivial
theorem EncodePort.pdToken (text : List Byte) : EncodePort.Statement (.pdToken text) := trivial
theorem EncodePort.cpParse (cmd : List Byte) : EncodePort.Statement (.cpParse cmd) := trivial
theorem EncodePort.reset : EncodePort.Statement (.reset) := trivial
theorem EncodePort.reservedE : EncodePort.Statement (.reservedE) := trivial
theorem EncodePort.reservedF : EncodePort.Statement (.reservedF) := trivial
theorem EncodePort.cbAppendB (b : Byte) : EncodePort.Statement (.cbAppendB b) := trivial
theorem EncodePort.line (destCapacity : Nat) (tubeCount : Nat) : EncodePort.Statement (.line destCapacity tubeCount) := trivial
theorem EncodePort.pdStartLbrace : EncodePort.Statement (.pdStartLbrace) := trivial
theorem EncodePort.pdStartBang : EncodePort.Statement (.pdStartBang) := trivial
theorem EncodePort.pdStartRbrace : EncodePort.Statement (.pdStartRbrace) := trivial
theorem EncodePort.pdStartPrintable (c : Byte) : EncodePort.Statement (.pdStartPrintable c) := trivial
theorem EncodePort.pdStartNonprintable (c : Byte) : EncodePort.Statement (.pdStartNonprintable c) := trivial
theorem EncodePort.pdIdleLbrace : EncodePort.Statement (.pdIdleLbrace) := trivial
theorem EncodePort.pdIdleBang : EncodePort.Statement (.pdIdleBang) := trivial
theorem EncodePort.pdIdleRbrace : EncodePort.Statement (.pdIdleRbrace) := trivial
theorem EncodePort.pdIdlePrintable (c : Byte) : EncodePort.Statement (.pdIdlePrintable c) := trivial
theorem EncodePort.pdIdleNonprintable (c : Byte) : EncodePort.Statement (.pdIdleNonprintable c) := trivial
theorem EncodePort.pdTokenStartLbrace : EncodePort.Statement (.pdTokenStartLbrace) := trivial
theorem EncodePort.pdTokenStartBang : EncodePort.Statement (.pdTokenStartBang) := trivial
theorem EncodePort.pdTokenStartRbrace : EncodePort.Statement (.pdTokenStartRbrace) := trivial
theorem EncodePort.pdTokenStartPrintable (c : Byte) : EncodePort.Statement (.pdTokenStartPrintable c) := trivial
theorem EncodePort.pdTokenStartNonprintable (c : Byte) : EncodePort.Statement (.pdTokenStartNonprintable c) := trivial
theorem EncodePort.pdTokenLbrace : EncodePort.Statement (.pdTokenLbrace) := trivial
theorem EncodePort.pdTokenBang : EncodePort.Statement (.pdTokenBang) := trivial
theorem EncodePort.pdTokenRbrace : EncodePort.Statement (.pdTokenRbrace) := trivial
theorem EncodePort.pdTokenPrintable (c : Byte) : EncodePort.Statement (.pdTokenPrintable c) := trivial
theorem EncodePort.pdTokenNonprintable (c : Byte) : EncodePort.Statement (.pdTokenNonprintable c) := trivial
theorem EncodePort.pdUnderlineLbrace : EncodePort.Statement (.pdUnderlineLbrace) := trivial
theorem EncodePort.pdUnderlineBang : EncodePort.Statement (.pdUnderlineBang) := trivial
theorem EncodePort.pdUnderlineRbrace : EncodePort.Statement (.pdUnderlineRbrace) := trivial
theorem EncodePort.pdUnderlinePrintable (c : Byte) : EncodePort.Statement (.pdUnderlinePrintable c) := trivial
theorem EncodePort.pdUnderlineNonprintable (c : Byte) : EncodePort.Statement (.pdUnderlineNonprintable c) := trivial
theorem EncodePort.tokenHexLower (digits : List Byte) : EncodePort.Statement (.tokenHexLower digits) := trivial
theorem EncodePort.tokenHexUpper (digits : List Byte) : EncodePort.Statement (.tokenHexUpper digits) := trivial
theorem EncodePort.tokenBinLower (digits : List Byte) : EncodePort.Statement (.tokenBinLower digits) := trivial
theorem EncodePort.tokenBinUpper (digits : List Byte) : EncodePort.Statement (.tokenBinUpper digits) := trivial
theorem EncodePort.wireCr : EncodePort.Statement (.wireCr) := trivial
theorem EncodePort.wireLf : EncodePort.Statement (.wireLf) := trivial
theorem EncodePort.wireColon : EncodePort.Statement (.wireColon) := trivial

end Sys2Proof.Laws
end

