-- ==== Sys2Proof/Tests/Slice0.lean ====
section
/-!
SUPPORT. Checks of this model on fixed values, and a witness for the hypotheses of every obligation that has some. The
expected values are those of the spec: V-... are vectors of 95_test_vectors.md, and the words are written out from
30_encoding.md and opcode_table.json. The parameters are the fixture CFG_REF with its table TESTTAB (R17).
-/

namespace Sys2Proof.Tests

open Sys2Proof.Machine Sys2Proof.Claims

/-! ### Fixtures -/

/-- CFG_REF (R17), with another `CAP` where a vector asks for one. -/
abbrev cfgRef (cap : Nat) : Config := Config.referenceWithCap cap

/-- CFG_REF with codes for letters only, so that braces have none (R96, R101, R114). -/
def cfgNoBraces : Config :=
  { cfgRef 64 with segTab := Config.reference.segTab.mapIdx fun i e => if i = 0x5B ∨ i = 0x5D then none else e }

/-- The machine after reset, with the parameters of a fixture. -/
def boot (cfg : Config) : State where
  cfg := cfg
  cb := CB.empty
  pd := PD.rest cfg
  response := none
  inbox := []
  opCount := 0

/-- A ring that holds the given bytes from index `head` on. -/
def ring (cap head : Nat) (bytes : List Byte) : State :=
  { boot (cfgRef cap) with cb := CB.store cap { head := head, tail := head, length := 0, mem := [] } bytes }

/-- The decoder in the middle of a scan over 8 tubes: its mode, the token text buffered, the bitmaps emitted. -/
def scanning (cfg : Config) (st : PdState) (text : List Byte) (shown : List Bitmap) : State :=
  { boot cfg with
    pd := { state := st, pos := 5, n := shown.length, tlen := text.length, tok := Cells.writeRun [] 0 text,
            out := Cells.writeRun [] 0 shown, tubeCount := 8 } }

/-- The same decoder with room for no more bitmap. -/
def full (s : State) : State := s.setPd { s.pd with tubeCount := s.pd.n }

/-- The response, and `head`, `tail`, `length` of the ring after an instruction. -/
def ran (o : Host.Outcome State Fault Refusal) : Option (Option Response × List Nat) :=
  match o with
  | .next t => some (t.response, [t.cb.head, t.cb.tail, t.cb.length])
  | _ => none

/-- The response, and the decoder's mode, token text and bitmaps after an instruction. -/
def seen (o : Host.Outcome State Fault Refusal) : Option (Option Response × PdState × List Byte × List Bitmap) :=
  match o with
  | .next t => some (t.response, t.pd.state, Cells.readRun t.pd.tok 0 t.pd.tlen, Cells.readRun t.pd.out 0 t.pd.n)
  | _ => none

/-- The reason an outcome is refused. -/
def refusalOf (o : Host.Outcome State Fault Refusal) : Option Refusal :=
  match o with
  | .refused r => some r
  | _ => none

/-! ### The fixtures are what the spec says of them (R17) -/

theorem test_fixture_no_braces_admissible : cfgNoBraces.Admissible := by
  have hall : cfgNoBraces.segTab.all (fun e => decide (e ≠ some 0x3FFF)) = true := by decide +kernel
  exact ⟨by decide, by decide, by decide +kernel, fun e he => by simpa using List.all_eq_true.mp hall e he,
    by decide +kernel, by decide +kernel, by decide +kernel⟩
theorem test_fixture_entries :
    [0x20, 0x30, 0x3A, 0x41, 0x61, 0x48, 0x5A, 0x7A, 0x7B, 0x7D, 0x7E, 0x21, 0x7F].map (cfgRef 64).segLookup =
      [some 0x00, some 0x10, some 0x1A, some 0x21, some 0x21, some 0x28, some 0x3A, some 0x3A, some 0x5B, some 0x5D,
       some 0x5E, none, none] := by decide
theorem test_boot_good : (boot (cfgRef 64)).Inv := ⟨Config.referenceWithCap_admissible (by decide), by decide⟩

/-! ### WellFormed refuses an ill-formed term for each check -/

theorem test_wellFormed_refuses_reserved :
    wellFormed (cfgRef 64) .reservedE = false ∧ wellFormed (cfgRef 64) .reservedF = false := by decide
theorem test_wellFormed_refuses_brace_as_printable :
    wellFormed (cfgRef 64) (.pdStartPrintable 0x7B) = false ∧ wellFormed (cfgRef 64) (.pdIdlePrintable 0x7D) = false ∧
    wellFormed (cfgRef 64) (.pdTokenStartPrintable 0x21) = false := by decide
theorem test_wellFormed_refuses_no_code_as_printable :
    wellFormed (cfgRef 64) (.pdTokenPrintable 0x07) = false ∧
    wellFormed (cfgRef 64) (.pdUnderlinePrintable 0x80) = false := by decide
theorem test_wellFormed_refuses_code_as_nonprintable :
    wellFormed (cfgRef 64) (.pdStartNonprintable 0x41) = false ∧
    wellFormed (cfgRef 64) (.pdIdleNonprintable 0x20) = false ∧
    wellFormed (cfgRef 64) (.pdTokenNonprintable 0x7E) = false := by decide
theorem test_wellFormed_refuses_special_as_nonprintable :
    wellFormed (cfgRef 64) (.pdTokenStartNonprintable 0x21) = false ∧
    wellFormed cfgNoBraces (.pdUnderlineNonprintable 0x7D) = false := by decide
theorem test_wellFormed_accepts :
    wellFormed (cfgRef 64) (.pdStartPrintable 0x41) = true ∧ wellFormed (cfgRef 64) (.pdIdleNonprintable 0x7F) = true ∧
    wellFormed (cfgRef 64) (.cbExtract 0) = true ∧ wellFormed (cfgRef 64) .pdTokenRbrace = true := by decide

/-! ### Decoding: words written out from the encodings of the spec, one for each constructor -/

/-- Op codes `0x0` to `0x4` of R68; a byte and a bitmap low nibble first (log entry 5). -/
theorem test_decode_se :
    decodeHost [0x0, 0x8, 0x4] = .instr (.seDecode 0x48) [] ∧ decodeHost [0x1, 0x1, 0x2] = .instr (.seIsPrint 0x21) [] ∧
    decodeHost [0x2, 0x1, 0x2, 0x0, 0x8] = .instr (.seWithUl 0x8021) [] ∧
    decodeHost [0x3, 0xF, 0xF, 0xF, 0x3] = .instr (.seWithColon 0x3FFF) [] ∧
    decodeHost [0x4, 0x2, 0x6] = .instr (.seDecodeUl 0x62) [] := by decide
/-- Op codes `0x5` to `0x9` of R68. -/
theorem test_decode_cb :
    decodeHost [0x5, 0x3, 0xF, 0x6, 0xB, 0x6, 0xA, 0x0] = .instr (.cbAppend [0x6F, 0x6B, 0x0A]) [] ∧
    decodeHost [0x6] = .instr .cbPendLen [] ∧ decodeHost [0x7] = .instr .cbHasCmd [] ∧
    decodeHost [0x8] = .instr .cbCmdLen [] ∧ decodeHost [0x9, 0x8, 0x8, 0x1] = .instr (.cbExtract 64) [] := by decide
/-- Op codes `0xA` to `0xD` of R68. -/
theorem test_decode_pd_cp_reset :
    decodeHost [0xA, 0x2, 0x1, 0x4, 0x1, 0x2, 0x8, 0x1] = .instr (.pdDecode [0x41, 0x21] 8) [] ∧
    decodeHost [0xB, 0x2, 0x0, 0x3, 0x8, 0x7] = .instr (.pdToken [0x30, 0x78]) [] ∧
    decodeHost [0xC, 0x1, 0x7, 0x4] = .instr (.cpParse [0x47]) [] ∧ decodeHost [0xD] = .instr .reset [] := by decide
/-- `0xE` and `0xF` are refused by name (R126); the two rows are what the machine then runs. -/
theorem test_decode_reserved :
    decodeHost [0xE, 0x6] = .reserved 0xE [0x6] ∧ decodeHost [0xF] = .reserved 0xF [] ∧
    reservedRow 0xE = .reservedE ∧ reservedRow 0xF = .reservedF := by decide
/-- `CB.APPENDB 'a'` is the record `5`, n=1, `61` (R72, program P5); `LINE` has no op code. -/
theorem test_decode_pseudo :
    decodeHost [0x5, 0x1, 0x1, 0x6] = .instr (Instr.cbAppendB 0x61).core [] ∧
    decode (cfgRef 64) .start (.wire 0x61) = .instr (.cbAppendB 0x61) [] ∧
    decode (cfgRef 64) .start (.line 64 8) = .instr (.line 64 8) [] := by decide
/-- The bytes of R94 to R118 in the five states of R69. -/
theorem test_decode_pd_start :
    [0x7B, 0x21, 0x7D, 0x41, 0x07].map (decodePd (cfgRef 64) .start) =
      [.pdStartLbrace, .pdStartBang, .pdStartRbrace, .pdStartPrintable 0x41, .pdStartNonprintable 0x07] := by decide
theorem test_decode_pd_idle :
    [0x7B, 0x21, 0x7D, 0x42, 0x80].map (decodePd (cfgRef 64) .idle) =
      [.pdIdleLbrace, .pdIdleBang, .pdIdleRbrace, .pdIdlePrintable 0x42, .pdIdleNonprintable 0x80] := by decide
theorem test_decode_pd_tokenStart :
    [0x7B, 0x21, 0x7D, 0x30, 0x01].map (decodePd (cfgRef 64) .tokenStart) =
      [.pdTokenStartLbrace, .pdTokenStartBang, .pdTokenStartRbrace, .pdTokenStartPrintable 0x30,
       .pdTokenStartNonprintable 0x01] := by decide
theorem test_decode_pd_token :
    [0x7B, 0x21, 0x7D, 0x32, 0x01].map (decodePd (cfgRef 64) .token) =
      [.pdTokenLbrace, .pdTokenBang, .pdTokenRbrace, .pdTokenPrintable 0x32, .pdTokenNonprintable 0x01] := by decide
theorem test_decode_pd_underline :
    [0x7B, 0x21, 0x7D, 0x61, 0x07].map (decodePd (cfgRef 64) .underline) =
      [.pdUnderlineLbrace, .pdUnderlineBang, .pdUnderlineRbrace, .pdUnderlinePrintable 0x61,
       .pdUnderlineNonprintable 0x07] := by decide
/-- Token openings `0x3078`, `0x3058`, `0x3062`, `0x3042`, and a text with none (R63, R121). -/
theorem test_decode_token :
    decodeToken [0x30, 0x78, 0x32] = .tokenHexLower [0x32] ∧ decodeToken [0x30, 0x58] = .tokenHexUpper [] ∧
    decodeToken [0x30, 0x62, 0x31] = .tokenBinLower [0x31] ∧ decodeToken [0x30, 0x42] = .tokenBinUpper [] ∧
    decodeToken [0x30, 0x6F, 0x37] = .pdToken [0x30, 0x6F, 0x37] ∧ decodeToken [] = .pdToken [] := by decide
/-- Wire bytes `0x0D`, `0x0A`, `0x3A` (R57, R124). -/
theorem test_decode_wire : [0x0D, 0x0A, 0x3A].map decodeWire = [.wireCr, .wireLf, .wireColon] := by decide
/-- Records that end inside their operands are refused by name. -/
theorem test_decode_truncated :
    [[], [0x0, 0x8], [0x5], [0x5, 0x2, 0x1, 0x4], [0x9, 0x8], [0xA, 0x0]].map decodeHost =
      List.replicate 6 .truncated := by decide
/-- Words as the table numbers them (log entry 15). -/
theorem test_table_words :
    decodeTableWord 8 0x06 = some .cbPendLen ∧ decodeTableWord 8 0x7B = some .pdStartLbrace ∧
    decodeTableWord 8 0x3A = some .wireColon ∧ decodeTableWord 16 0x3078 = some (.tokenHexLower []) ∧
    decodeTableWord 8 0x0E = none ∧ decodeTableWord 8 0x0A = some (.pdDecode [] 0) := by decide
/-- The encoder on a record with a number above 7 and a string. -/
theorem test_encode_pdDecode :
    encode (.pdDecode [0x41, 0x21] 8) = .host [0xA, 0x2, 0x1, 0x4, 0x1, 0x2, 0x8, 0x1] := by decide

/-! ### One step on small states -/

/-- A step on a request record takes it off the inbox and answers (program P1, step 3). -/
theorem test_step_pendLen :
    ran (step { ring 64 0 [0x61, 0x0A] with inbox := [.host [0x6]] }) =
      some (some (.ok (.number 2)), [0, 2, 2]) := by decide
theorem test_step_truncated :
    refusalOf (step { boot (cfgRef 64) with inbox := [.host [0x0]] }) = some .truncatedRequest := by decide
theorem test_step_after_reset : responseOf (step (State.reset.withFetchWord 8 0x07)) = some (.ok (.boolean false)) := by
  decide
/-- A PD row out of its state, and one with a byte of another class. -/
theorem test_cell_not_selected :
    refusalOf (exec .pdIdleBang (boot (cfgRef 64))) = some .cellNotSelected ∧
    refusalOf (exec (.pdStartPrintable 0x07) (boot (cfgRef 64))) = some .cellNotSelected := by decide

/-- V-SE-1, V-SE-1a, V-SE-1b. -/
theorem test_seDecode :
    [0x48, 0x68, 0x20].map (fun c => responseOf (exec (.seDecode c) (boot (cfgRef 64)))) =
      [some (.ok (.code (some 0x28))), some (.ok (.code (some 0x28))), some (.ok (.code (some 0)))] := by decide
/-- V-SE-1c, V-SE-1d, V-SE-1e. -/
theorem test_seDecode_noCode :
    [0x21, 0x1F, 0x00, 0x80, 0xFF, 0x7F].map (fun c => responseOf (exec (.seDecode c) (boot (cfgRef 64)))) =
      List.replicate 6 (some (.ok (.code none))) := by decide
/-- V-SE-2. -/
theorem test_seIsPrint :
    [0x41, 0x21, 0x20, 0x0D].map (fun c => responseOf (exec (.seIsPrint c) (boot (cfgRef 64)))) =
      [true, false, true, false].map fun b => some (.ok (.boolean b)) := by decide
/-- V-SE-3, V-SE-3a. -/
theorem test_seWithUl :
    [0x0021, 0x4021, 0x0000, 0x8001, 0xFFFF, 0x3FFF].map (fun b => responseOf (exec (.seWithUl b) (boot (cfgRef 64)))) =
      [0x4021, 0x4021, 0x4000, 0xC001, 0xFFFF, 0x7FFF].map fun b => some (.ok (.bitmap b)) := by decide
/-- V-SE-4. -/
theorem test_seWithColon :
    [0x0021, 0x4021, 0x8021, 0x3FFF].map (fun b => responseOf (exec (.seWithColon b) (boot (cfgRef 64)))) =
      [0x8021, 0xC021, 0x8021, 0xBFFF].map fun b => some (.ok (.bitmap b)) := by decide
/-- V-SE-5, V-SE-5a, V-SE-5b. -/
theorem test_seDecodeUl :
    [0x62, 0x21, 0x07, 0x20].map (fun c => responseOf (exec (.seDecodeUl c) (boot (cfgRef 64)))) =
      [some 0x4022, none, none, some 0x4000].map fun r => some (.ok (.code16 r)) := by decide
/-- The ports of V-SE-5a and of `Code(0x0028)` (R59). -/
theorem test_ports :
    Response.port 7 (.ok (.code16 none)) = (0, [.bit true, .word 0x3FFF]) ∧
    Response.port 7 (.ok (.code (some 0x28))) = (0, [.bit false, .word 0x0028]) ∧
    Response.port 7 (.err .tokenError) = (8, []) := by decide

/-- V-CB-2: the write is split at `CAP`. -/
theorem test_cbAppend_wraps :
    ran (exec (.cbAppend [0x78, 0x79, 0x7A, 0x0D, 0x0A]) (ring 8 6 [])) = some (some (.ok .done), [6, 3, 5]) := by decide
/-- V-CB-4: the waiting line is lost too. -/
theorem test_cbAppend_overruns :
    ran (exec (.cbAppend [0x63, 0x64, 0x65, 0x66, 0x67, 0x68]) (ring 8 0 [0x61, 0x62, 0x0A])) =
      some (some (.err .bufferOverrun), [0, 0, 0]) := by decide
/-- V-CB-3: one byte too many. -/
theorem test_cbAppendB :
    ran (exec (.cbAppendB 0x69) (ring 8 0 [0x61, 0x62, 0x63, 0x64, 0x65, 0x66, 0x67, 0x68])) =
      some (some (.err .bufferOverrun), [0, 0, 0]) ∧
    ran (exec (.cbAppendB 0x61) (ring 8 0 [])) = some (some (.ok .done), [0, 1, 1]) := by decide
theorem test_cbPendLen : responseOf (exec .cbPendLen (ring 8 6 [0x61, 0x62, 0x0A])) = some (.ok (.number 3)) := by decide
/-- R81: true for a terminator of either kind, false without. -/
theorem test_cbHasCmd :
    responseOf (exec .cbHasCmd (ring 8 6 [0x61, 0x62, 0x63, 0x0D])) = some (.ok (.boolean true)) ∧
    responseOf (exec .cbHasCmd (ring 8 6 [0x61, 0x62, 0x63])) = some (.ok (.boolean false)) := by decide
/-- V-CB-8: the lowest offset wins. -/
theorem test_cbCmdLen :
    [[0x61, 0x62, 0x0A, 0x63, 0x64, 0x0D], [0x61, 0x62, 0x0D, 0x63, 0x64, 0x0A], [0x61, 0x62, 0x63, 0x64, 0x0D],
      [0x0D, 0x61, 0x62, 0x0A], [0x61]].map (fun u => responseOf (exec .cbCmdLen (ring 8 5 u))) =
      [some 2, some 2, some 4, some 0, none].map fun r => some (.ok (.cmdLen r)) := by decide
/-- V-CB-16: the terminator in the last cell. -/
theorem test_cbExtract_wraps :
    ran (exec (.cbExtract 8) (ring 8 0 [0x61, 0x62, 0x63, 0x64, 0x65, 0x66, 0x67, 0x0A])) =
      some (some (.ok (.command [0x61, 0x62, 0x63, 0x64, 0x65, 0x66, 0x67])), [0, 0, 0]) := by decide
/-- V-CB-14 (third terminator left over), V-CB-6 (empty lines), V-CB-7 and V-CB-15 (destination). -/
theorem test_cbExtract :
    ran (exec (.cbExtract 64) (ring 64 0 [0x61, 0x0D, 0x0A, 0x0A, 0x64, 0x0A])) =
      some (some (.ok (.command [0x61])), [3, 6, 3]) ∧
    ran (exec (.cbExtract 64) (ring 64 0 [0x0A, 0x0A, 0x0A])) = some (some (.err .noopCommand), [2, 3, 1]) ∧
    ran (exec (.cbExtract 4) (ring 64 0 [0x68, 0x65, 0x6C, 0x6C, 0x6F, 0x0A])) =
      some (some (.err .bufOverrun), [0, 6, 6]) ∧
    ran (exec (.cbExtract 0) (ring 64 0 [0x0A])) = some (some (.err .noopCommand), [1, 1, 0]) := by decide
/-- V-CB-18. -/
theorem test_reset : ran (exec .reset (ring 64 0 [0x61, 0x62, 0x63])) = some (some (.ok .done), [0, 0, 0]) := by decide
/-- R126: no result, nothing changed. -/
theorem test_reserved :
    ran (exec .reservedE (ring 64 0 [0x61])) = some (none, [0, 1, 1]) ∧
    ran (exec .reservedF (ring 64 0 [0x61])) = some (none, [0, 1, 1]) := by decide
/-- R57, R124: the byte arrives; a terminator completes a line, a colon does not. -/
theorem test_wire :
    ran (exec .wireCr (ring 8 7 [0x61])) = some (some (.ok .done), [7, 1, 2]) ∧
    ran (exec .wireLf (ring 8 7 [0x61])) = some (some (.ok .done), [7, 1, 2]) ∧
    ran (exec .wireColon (ring 8 7 [])) = some (some (.ok .done), [7, 0, 1]) := by decide

/-- V-CP-1, V-CP-2, V-CP-3, V-CP-4, V-CP-7. -/
theorem test_cpParse :
    [[0x70, 0x72, 0x69, 0x6E, 0x74, 0x3A, 0x48, 0x49], [0x70, 0x72, 0x69, 0x6E, 0x74], [0x50, 0x3A, 0x78],
      [0x70, 0x72, 0x69, 0x6E, 0x74, 0x3A, 0x3A], [0x3A, 0x3A, 0x3A, 0x3A, 0x3A]].map
      (fun cmd => responseOf (exec (.cpParse cmd) (boot (cfgRef 64)))) =
      [some (.ok (.print [[0x48, 0x49]])), some (.err .wrongNumArgs), some (.err .badCommand),
       some (.ok (.print [[], []])), some (.err .tooManyArgs)] := by decide

/-- V-TK-1, V-TK-2, V-TK-9. -/
theorem test_pdToken :
    [[0x30, 0x78, 0x32, 0x41, 0x41, 0x44], [0x30, 0x58, 0x31, 0x66], [0x30], [0x31, 0x78, 0x31, 0x30]].map
      (fun text => responseOf (exec (.pdToken text) (boot (cfgRef 64)))) =
      [some (.ok (.bitmap 0x2AAD)), some (.ok (.bitmap 0x001F)), some (.err .tokenError), some (.err .tokenError)] := by
  decide
/-- V-TK-2, V-TK-3, V-TK-4, V-TK-8. -/
theorem test_tokenHex :
    responseOf (exec (.tokenHexLower [0x41, 0x62, 0x43, 0x64]) (boot (cfgRef 64))) = some (.ok (.bitmap 0xABCD)) ∧
    responseOf (exec (.tokenHexUpper [0x31, 0x32, 0x33, 0x34, 0x35]) (boot (cfgRef 64))) = some (.ok (.bitmap 0x2345)) ∧
    responseOf (exec (.tokenHexUpper []) (boot (cfgRef 64))) = some (.ok (.bitmap 0)) ∧
    responseOf (exec (.tokenHexLower [0x31, 0x67]) (boot (cfgRef 64))) = some (.err .tokenError) := by decide
/-- V-TK-5, V-TK-6, V-TK-7. -/
theorem test_tokenBin :
    responseOf (exec (.tokenBinLower (0x31 :: 0x31 :: List.replicate 14 0x30 ++ [0x31])) (boot (cfgRef 64))) =
      some (.ok (.bitmap 0x8001)) ∧
    responseOf (exec (.tokenBinUpper [0x31, 0x30, 0x31]) (boot (cfgRef 64))) = some (.ok (.bitmap 5)) ∧
    responseOf (exec (.tokenBinLower [0x31, 0x32]) (boot (cfgRef 64))) = some (.err .tokenError) := by decide

/-- V-PD-21, every construct of the escape syntax: the argument `A!` and then an underline run, a token and `d`. -/
theorem test_pdDecode :
    responseOf (exec (.pdDecode [0x41, 0x21, 0x7B, 0x21, 0x62, 0x63, 0x7D, 0x7B, 0x30, 0x78, 0x32, 0x41, 0x41, 0x44,
      0x7D, 0x64] 8) (boot (cfgRef 64))) =
      some (.ok (.bitmaps [0x4021, 0x4022, 0x4023, 0x2AAD, 0x0024, 0, 0, 0])) := by decide
/-- V-PD-15, V-PD-16, V-PD-17, V-PD-25: what a full array does. -/
theorem test_pdDecode_full :
    [[0x41, 0x42, 0x21], [0x41, 0x42, 0x01], [0x41, 0x42, 0x43, 0x01]].map
      (fun a => responseOf (exec (.pdDecode a 2) (boot (cfgRef 64)))) =
      [some (.ok (.bitmaps [0x0021, 0x4022])), some (.err .parseError), some (.ok (.bitmaps [0x0021, 0x0022]))] ∧
    responseOf (exec (.pdDecode [0x41] 0) (boot (cfgRef 64))) = some (.ok (.bitmaps [])) := by decide
/-- R155: the array of a PD.DECODE, here a full one, and the text of a failed token are gone when it ends; the byte presented
next finds a decoder at rest. -/
theorem test_pdDecode_retains_nothing :
    seen (exec (.pdDecode [0x41] 1) (boot (cfgRef 64))) = some (some (.ok (.bitmaps [0x0021])), .start, [], []) ∧
    seen (exec (.pdDecode [0x7B, 0x30, 0x7D] 8) (boot (cfgRef 64))) = some (some (.err .tokenError), .start, [], []) ∧
    (match exec (.pdDecode [0x41] 1) (boot (cfgRef 64)) with
      | .next t => seen (step { t with inbox := [.pd 0x42] })
      | _ => none) = some (none, .idle, [], [0x0022]) := by
  refine ⟨?_, ?_, ?_⟩ <;> decide
/-- V-SRC-8, one line through the pipeline. -/
theorem test_line :
    ran (exec (.line 64 8) (ring 64 0 [0x70, 0x72, 0x69, 0x6E, 0x74, 0x3A, 0x41, 0x21, 0x0D, 0x0A])) =
      some (some (.ok (.bitmaps [0x4021, 0, 0, 0, 0, 0, 0, 0])), [10, 10, 0]) := by decide
/-- V-LN-2, V-LN-3, V-LN-4. -/
theorem test_line_errors :
    ran (exec (.line 64 8) (ring 64 0 [0x70, 0x72])) = some (some (.ok .notReady), [0, 2, 2]) ∧
    ran (exec (.line 64 8) (ring 64 0 [0x70, 0x72, 0x69, 0x6E, 0x74, 0x3A, 0x61, 0x3A, 0x62, 0x0A])) =
      some (some (.err .wrongNumArgs), [10, 10, 0]) ∧
    ran (exec (.line 2 8) (ring 64 0 [0x61, 0x62, 0x63, 0x0A])) = some (some (.err .bufOverrun), [0, 4, 4]) := by decide

/-! The 25 cells: V-CELL-1 to V-CELL-25. -/

theorem test_cells_start :
    seen (exec .pdStartLbrace (boot (cfgRef 64))) = some (none, .tokenStart, [], []) ∧
    seen (exec .pdStartBang (boot (cfgRef 64))) = some (some (.err .parseError), .start, [], []) ∧
    seen (exec .pdStartRbrace (boot (cfgRef 64))) = some (none, .idle, [], [0x005D]) ∧
    seen (exec (.pdStartPrintable 0x41) (boot (cfgRef 64))) = some (none, .idle, [], [0x0021]) ∧
    seen (exec (.pdStartNonprintable 0x07) (boot (cfgRef 64))) = some (some (.err .parseError), .start, [], []) := by
  refine ⟨?_, ?_, ?_, ?_, ?_⟩ <;> decide
theorem test_cells_idle :
    seen (exec .pdIdleLbrace (scanning (cfgRef 64) .idle [] [0x21])) = some (none, .tokenStart, [], [0x0021]) ∧
    seen (exec .pdIdleBang (scanning (cfgRef 64) .idle [] [0x21])) = some (none, .idle, [], [0x4021]) ∧
    seen (exec .pdIdleRbrace (scanning (cfgRef 64) .idle [] [0x21])) = some (none, .idle, [], [0x0021, 0x005D]) ∧
    seen (exec (.pdIdlePrintable 0x42) (scanning (cfgRef 64) .idle [] [0x21])) =
      some (none, .idle, [], [0x0021, 0x0022]) ∧
    seen (exec (.pdIdleNonprintable 0x80) (scanning (cfgRef 64) .idle [] [0x21])) =
      some (some (.err .parseError), .start, [], []) := by
  refine ⟨?_, ?_, ?_, ?_, ?_⟩ <;> decide
theorem test_cells_tokenStart :
    seen (exec .pdTokenStartLbrace (scanning (cfgRef 64) .tokenStart [0x99] [])) = some (none, .token, [0x7B], []) ∧
    seen (exec .pdTokenStartBang (scanning (cfgRef 64) .tokenStart [] [])) = some (none, .underline, [], []) ∧
    seen (exec .pdTokenStartRbrace (scanning (cfgRef 64) .tokenStart [0x99] [])) =
      some (some (.err .tokenError), .start, [], []) ∧
    seen (exec (.pdTokenStartPrintable 0x30) (scanning (cfgRef 64) .tokenStart [0x99] [])) =
      some (none, .token, [0x30], []) ∧
    seen (exec (.pdTokenStartNonprintable 0x01) (scanning (cfgRef 64) .tokenStart [] [])) =
      some (none, .token, [0x01], []) := by
  refine ⟨?_, ?_, ?_, ?_, ?_⟩ <;> decide
theorem test_cells_token :
    seen (exec .pdTokenLbrace (scanning (cfgRef 64) .token [0x30, 0x78] [])) = some (none, .token, [0x30, 0x78, 0x7B], []) ∧
    seen (exec .pdTokenBang (scanning (cfgRef 64) .token [0x30, 0x78] [])) = some (none, .token, [0x30, 0x78, 0x21], []) ∧
    seen (exec .pdTokenRbrace (scanning (cfgRef 64) .token [0x30, 0x78, 0x32, 0x41, 0x41, 0x44] [])) =
      some (none, .idle, [0x30, 0x78, 0x32, 0x41, 0x41, 0x44], [0x2AAD]) ∧
    seen (exec (.pdTokenPrintable 0x32) (scanning (cfgRef 64) .token [0x30, 0x78] [])) =
      some (none, .token, [0x30, 0x78, 0x32], []) ∧
    seen (exec (.pdTokenNonprintable 0x01) (scanning (cfgRef 64) .token [0x30, 0x78] [])) =
      some (none, .token, [0x30, 0x78, 0x01], []) := by
  refine ⟨?_, ?_, ?_, ?_, ?_⟩ <;> decide
theorem test_cells_underline :
    seen (exec .pdUnderlineLbrace (scanning (cfgRef 64) .underline [] [])) = some (none, .underline, [], [0x405B]) ∧
    seen (exec .pdUnderlineBang (scanning (cfgRef 64) .underline [] [])) =
      some (some (.err .parseError), .start, [], []) ∧
    seen (exec .pdUnderlineRbrace (scanning (cfgRef 64) .underline [] [0x4021])) = some (none, .idle, [], [0x4021]) ∧
    seen (exec (.pdUnderlinePrintable 0x61) (scanning (cfgRef 64) .underline [] [])) =
      some (none, .underline, [], [0x4021]) ∧
    seen (exec (.pdUnderlineNonprintable 0x07) (scanning (cfgRef 64) .underline [] [])) =
      some (some (.err .parseError), .start, [], []) := by
  refine ⟨?_, ?_, ?_, ?_, ?_⟩ <;> decide
/-- R93: `TOKEN_MAX` bytes fit, one more does not; R89: an emission into a full array stops the scan. -/
theorem test_cells_bounds :
    responseOf (exec (.pdTokenPrintable 0x31) (scanning (cfgRef 64) .token (List.replicate 17 0x31) [])) = none ∧
    responseOf (exec (.pdTokenPrintable 0x31) (scanning (cfgRef 64) .token (List.replicate 18 0x31) [])) =
      some (.err .parseError) ∧
    responseOf (exec (.pdIdlePrintable 0x42) (full (scanning (cfgRef 64) .idle [] [0x21, 0x22]))) =
      some (.ok (.bitmaps [0x0021, 0x0022])) := by decide

/-! ### Witnesses: states and operands that meet the hypotheses of each obligation, clause by clause, at boundary values -/

/-- A small ring: three bytes and a terminator, wrapped at `CAP = 8`. -/
def wrapped : State := ring 8 6 [0x61, 0x62, 0x63, 0x0A]

theorem witness_SegDecodeReadsTheTable :
    (boot (cfgRef 64)).cfg.Admissible ∧ 0x20 ≤ (0x20 : Byte).toNat ∧ (0x7F : Byte).toNat ≤ 0x7F ∧
    0x61 ≤ (0x61 : Byte).toNat ∧ (0x7A : Byte).toNat ≤ 0x7A := ⟨Config.referenceWithCap_admissible (by decide), by decide⟩
theorem witness_PrintableMeansHavingACode :
    (boot (cfgRef 64)).cfg.Admissible ∧ (0x1F : Byte).toNat < 0x20 ∧ 0x7F < (0x80 : Byte).toNat :=
  ⟨Config.referenceWithCap_admissible (by decide), by decide⟩
theorem witness_DecodeUnderlinedKeepsNoCode :
    responseOf (exec (.seDecode 0x62) (boot (cfgRef 64))) = some (.ok (.code (some 0x22))) ∧
    responseOf (exec (.seDecodeUl 0x62) (boot (cfgRef 64))) = some (.ok (.code16 (some 0x4022))) ∧
    responseOf (exec (.seDecodeUl 0x21) (boot (cfgRef 64))) = some (.ok (.code16 none)) := by decide
/-- An exact fit, and the empty chunk into a full ring. -/
theorem witness_AppendStoresTheChunkAtTail :
    wrapped.cb.Inv wrapped.cfg.cap ∧ [0x64, 0x65, 0x66, (0x67 : Byte)].length + wrapped.cb.length ≤ wrapped.cfg.cap ∧
    (ring 8 0 (List.replicate 8 0x61)).cb.Inv 8 ∧
    ([] : List Byte).length + (ring 8 0 (List.replicate 8 0x61)).cb.length ≤ 8 := by decide
theorem witness_AppendThatOverflowsClearsTheRing :
    [0x64, 0x65, 0x66, 0x67, (0x68 : Byte)].length + wrapped.cb.length > wrapped.cfg.cap := by decide
theorem witness_PendLenAndHasCmdReadTheUnreadBytes :
    wrapped.cb.Inv wrapped.cfg.cap ∧ (ring 8 6 (List.replicate 8 0x61)).cb.Inv 8 := by decide
theorem witness_CmdLenIsTheFirstTerminator :
    wrapped.unread = [0x61, 0x62, 0x63] ++ 0x0A :: [] ∧ NoTerminator [0x61, 0x62, 0x63] ∧ Terminator 0x0A ∧
    (ring 8 0 [0x0D]).unread = [] ++ 0x0D :: [] ∧ NoTerminator [] ∧ Terminator 0x0D ∧
    NoTerminator (ring 8 6 [0x61, 0x62, 0x63]).unread := by
  simp only [NoTerminator, Terminator]; decide
theorem witness_ExtractNotReadyChangesNothing :
    NoTerminator (ring 8 6 [0x61, 0x62, 0x63]).unread ∧ NoTerminator (ring 8 6 []).unread := by
  simp only [NoTerminator]; decide
/-- Two terminators, one terminator before a command byte, and one alone. -/
theorem witness_ExtractOfAnEmptyLineTrims :
    (ring 8 7 [0x0D, 0x0A]).cb.Inv 8 ∧ (ring 8 7 [0x0D, 0x0A]).unread = 0x0D :: 0x0A :: [] ∧ Terminator 0x0D ∧
    Terminator 0x0A ∧ (ring 8 7 [0x0D, 0x61]).unread = 0x0D :: [0x61] ∧ NoTerminator ([0x61].take 1) ∧
    (ring 8 7 [0x0A]).unread = 0x0A :: [] ∧ NoTerminator (([] : List Byte).take 1) := by
  simp only [NoTerminator, Terminator]; decide
theorem witness_ExtractIntoTooSmallChangesNothing :
    wrapped.unread = [0x61, 0x62, 0x63] ++ 0x0A :: [] ∧ [0x61, 0x62, (0x63 : Byte)] ≠ [] ∧
    NoTerminator [0x61, 0x62, 0x63] ∧ Terminator 0x0A ∧ [0x61, 0x62, (0x63 : Byte)].length > 2 := by
  simp only [NoTerminator, Terminator]; decide
/-- `L = destCapacity`, with one terminator, two, and a command byte after the first. -/
theorem witness_ExtractDeliversTheFirstLine :
    wrapped.cb.Inv wrapped.cfg.cap ∧ wrapped.unread = [0x61, 0x62, 0x63] ++ 0x0A :: [] ∧
    NoTerminator [0x61, 0x62, 0x63] ∧ Terminator 0x0A ∧ [0x61, 0x62, (0x63 : Byte)].length ≤ 3 ∧
    (ring 8 6 [0x61, 0x0D, 0x0A]).unread = [0x61] ++ 0x0D :: 0x0A :: [] ∧ Terminator 0x0D ∧
    (ring 8 6 [0x61, 0x0D, 0x62]).unread = [0x61] ++ 0x0D :: [0x62] ∧ NoTerminator ([0x62].take 1) := by
  simp only [NoTerminator, Terminator]; decide
theorem witness_NoCommandIsReportedEarly :
    responseOf (exec (.cbExtract 3) wrapped) = some (.ok (.command [0x61, 0x62, 0x63])) ∧
    responseOf (exec .cbCmdLen wrapped) = some (.ok (.cmdLen (some 3))) ∧
    responseOf (exec .cbHasCmd wrapped) = some (.ok (.boolean true)) := by decide
theorem witness_CommandBufferRefinesAByteList : wrapped.cb.Inv wrapped.cfg.cap := by decide
theorem witness_RunsAreAtMostTwoCopies : 7 < 8 ∧ 8 ≤ 8 ∧ (List.replicate 8 (0x61 : Byte)).length ≤ 8 := by decide
/-- A `\r\n` split over two chunks, which fill the ring exactly. -/
theorem witness_DeliveredCommandsAreChunkingInvariant :
    (ring 8 6 [0x61]).cb.Inv 8 ∧ NoTerminator (ring 8 6 [0x61]).unread ∧
    [[0x62, 0x0D], [0x0A, 0x63, 0x64], [0x65, (0x0A : Byte)]].flatten.length + (ring 8 6 [0x61]).cb.length ≤ 8 ∧
    8 ≤ 8 := by
  simp only [NoTerminator]; decide
/-- What the split `\r\n` delivers: one command for each line, in both runs. -/
theorem test_deliver_split :
    deliver 8 [[0x62, 0x0D], [0x0A, 0x63, 0x64], [0x65, 0x0A]] (ring 8 6 [0x61]) = [[0x61, 0x62], [0x63, 0x64, 0x65]] ∧
    deliver 8 [[0x62, 0x0D, 0x0A, 0x63, 0x64, 0x65, 0x0A]] (ring 8 6 [0x61]) =
      [[0x61, 0x62], [0x63, 0x64, 0x65]] := by decide
theorem witness_FullRingWithoutTerminatorIsStuck :
    (ring 8 6 (List.replicate 8 0x61)).cb.Inv 8 ∧ (ring 8 6 (List.replicate 8 0x61)).cb.length = 8 ∧
    NoTerminator (ring 8 6 (List.replicate 8 0x61)).unread ∧ [(0x0A : Byte)] ≠ [] := by
  simp only [NoTerminator]; decide
theorem witness_BracketRowsChangeTheMode :
    (boot (cfgRef 64)).pd.state = .start ∧ (scanning (cfgRef 64) .idle [] [0x21]).pd.state = .idle ∧
    (scanning (cfgRef 64) .tokenStart [] []).pd.state = .tokenStart ∧
    (scanning (cfgRef 64) .underline [] []).pd.state = .underline := by decide
/-- The first and the last byte of the table that can be printable, with room left and with a full array. -/
theorem witness_PrintableRowsEmitTheCode :
    Ordinary 0x20 ∧ HasCode (boot (cfgRef 64)).cfg 0x20 0 ∧ Ordinary 0x7E ∧ HasCode (cfgRef 64) 0x7E 0x5E ∧
    (boot (cfgRef 64)).pd.state = .start ∧ (scanning (cfgRef 64) .idle [] [0x21]).pd.state = .idle ∧
    (full (scanning (cfgRef 64) .idle [] [0x21])).pd.n = (full (scanning (cfgRef 64) .idle [] [0x21])).pd.tubeCount ∧
    (scanning (cfgRef 64) .underline [] []).pd.state = .underline := by
  simp only [Ordinary, HasCode]; decide
/-- Both outcomes for a stray bracket: TESTTAB has codes for the braces, the other table has none. -/
theorem witness_StrayBracketsAreOrdinaryBytes :
    HasCode (cfgRef 64) 0x7D 0x5D ∧ HasCode (cfgRef 64) 0x7B 0x5B ∧ (∀ v, ¬HasCode cfgNoBraces 0x7D v) ∧
    (∀ v, ¬HasCode cfgNoBraces 0x7B v) ∧ (boot (cfgRef 64)).pd.state = .start ∧
    (scanning cfgNoBraces .idle [] []).pd.state = .idle ∧
    (scanning cfgNoBraces .underline [] []).pd.state = .underline := by
  have h : cfgNoBraces.segTab[0x5D]? = some none ∧ cfgNoBraces.segTab[0x5B]? = some none := by decide
  refine ⟨by simp only [HasCode]; decide, by simp only [HasCode]; decide, fun v hv => ?_, fun v hv => ?_, rfl, rfl, rfl⟩
  · have h2 : cfgNoBraces.segTab[0x5D]? = some (some v) := hv.2.2
    rw [h.1] at h2; simp at h2
  · have h2 : cfgNoBraces.segTab[0x5B]? = some (some v) := hv.2.2
    rw [h.2] at h2; simp at h2
/-- A byte below the table, one above it, and one in it without a code. -/
theorem witness_NonprintableRowsRaiseParseError :
    Ordinary 0x1F ∧ (∀ v, ¬HasCode (cfgRef 64) 0x1F v) ∧ Ordinary 0x80 ∧ (∀ v, ¬HasCode (cfgRef 64) 0x80 v) ∧
    Ordinary 0x7F ∧ (∀ v, ¬HasCode (cfgRef 64) 0x7F v) ∧ (boot (cfgRef 64)).pd.state = .start ∧
    (scanning (cfgRef 64) .idle [] []).pd.state = .idle ∧
    (scanning (cfgRef 64) .underline [] []).pd.state = .underline := by
  refine ⟨by simp only [Ordinary]; decide, fun v hv => ?_, by simp only [Ordinary]; decide, fun v hv => ?_,
    by simp only [Ordinary]; decide, fun v hv => ?_, rfl, rfl, rfl⟩
  · exact absurd hv.1 (by decide)
  · exact absurd hv.2.1 (by decide)
  · have h : (cfgRef 64).segTab[0x5F]? = some none := by decide
    have h2 : (cfgRef 64).segTab[0x5F]? = some (some v) := hv.2.2
    rw [h] at h2; simp at h2
theorem witness_BangWithNothingToUnderlineRaises :
    (boot (cfgRef 64)).pd.state = .start ∧ (scanning (cfgRef 64) .underline [] [0x4021]).pd.state = .underline := by
  decide
/-- Nothing emitted (after an empty underline run), one bitmap emitted, and a full array. -/
theorem witness_BangUnderlinesTheLastBitmapInPlace :
    (scanning (cfgRef 64) .idle [] []).pd.state = .idle ∧ Cells.Wf (scanning (cfgRef 64) .idle [] []).pd.out ∧
    (scanning (cfgRef 64) .idle [] []).pd.n = 0 ∧ 1 ≤ (scanning (cfgRef 64) .idle [] [0x21]).pd.n ∧
    Cells.Wf (full (scanning (cfgRef 64) .idle [] [0x21, 0x22])).pd.out ∧
    1 ≤ (full (scanning (cfgRef 64) .idle [] [0x21, 0x22])).pd.n := by decide
/-- With room for a token, and with none at all (`TOKEN_MAX = 0`). -/
theorem witness_TokenStartRowsOpenTheToken :
    (scanning (cfgRef 64) .tokenStart [0x99] []).pd.state = .tokenStart ∧
    (scanning { cfgRef 64 with tokenMax := 0 } .tokenStart [] []).pd.state = .tokenStart ∧
    exec .pdTokenStartLbrace (scanning { cfgRef 64 with tokenMax := 0 } .tokenStart [] []) =
      .next ((atRest (scanning { cfgRef 64 with tokenMax := 0 } .tokenStart [] [])).raise .parseError) ∧
    Ordinary 0x30 ∧ HasCode (cfgRef 64) 0x30 0x10 ∧ Ordinary 0x01 ∧ ∀ v, ¬HasCode (cfgRef 64) 0x01 v := by
  refine ⟨rfl, rfl, rfl, by simp only [Ordinary]; decide, by simp only [HasCode]; decide, by simp only [Ordinary]; decide,
    fun v hv => absurd hv.1 (by decide)⟩
/-- With one byte of room left, and with none. -/
theorem witness_TokenTextRowsBuffer :
    (scanning (cfgRef 64) .token (List.replicate 17 0x31) []).pd.state = .token ∧
    (scanning (cfgRef 64) .token (List.replicate 17 0x31) []).pd.tlen < 18 ∧
    (scanning (cfgRef 64) .token (List.replicate 18 0x31) []).pd.tlen = 18 ∧ Ordinary 0x31 ∧
    HasCode (cfgRef 64) 0x31 0x11 ∧ Ordinary 0x01 ∧ ∀ v, ¬HasCode (cfgRef 64) 0x01 v := by
  refine ⟨rfl, by decide, by decide, by simp only [Ordinary]; decide, by simp only [HasCode]; decide,
    by simp only [Ordinary]; decide, fun v hv => absurd hv.1 (by decide)⟩
/-- A text PD.TOKEN accepts, one it rejects, and the empty one. -/
theorem witness_ClosingBraceEmitsTheTokenValue :
    (scanning (cfgRef 64) .token [0x30, 0x78, 0x32] []).pd.state = .token ∧
    [0x30, 0x78, 0x32] = (List.range 3).map (fun i => Cells.read (scanning (cfgRef 64) .token [0x30, 0x78, 0x32] []).pd.tok i) ∧
    responseOf (exec (.pdToken [0x30, 0x78, 0x32]) (scanning (cfgRef 64) .token [0x30, 0x78, 0x32] [])) =
      some (.ok (.bitmap 2)) ∧
    [0x30] = (List.range 1).map (fun i => Cells.read (scanning (cfgRef 64) .token [0x30] []).pd.tok i) ∧
    responseOf (exec (.pdToken [0x30]) (scanning (cfgRef 64) .token [0x30] [])) = some (.err .tokenError) ∧
    responseOf (exec (.pdToken []) (scanning (cfgRef 64) .token [] [])) = some (.err .tokenError) := by decide
/-- `ABC` and its codes in TESTTAB. -/
theorem test_abc_has_codes (x : Byte × Code) (h : x ∈ [((0x41 : Byte), (0x21 : Code)), (0x42, 0x22), (0x43, 0x23)]) :
    Ordinary x.1 ∧ HasCode (cfgRef 64) x.1 x.2 := by
  simp only [List.mem_cons, List.not_mem_nil, or_false] at h
  rcases h with rfl | rfl | rfl <;> (simp only [Ordinary, HasCode]; decide)
theorem witness_PlainTextGivesItsCodesThenSpaces :
    Cells.Wf (boot (cfgRef 64)).pd.out ∧
    (∀ x ∈ [((0x41 : Byte), (0x21 : Code)), (0x42, 0x22), (0x43, 0x23)],
      Ordinary x.1 ∧ HasCode (boot (cfgRef 64)).cfg x.1 x.2) ∧
    HasCode (boot (cfgRef 64)).cfg 0x20 0 :=
  ⟨by decide, test_abc_has_codes, by simp only [HasCode]; decide⟩
/-- `TOKEN_MAX` bytes of text, a text that is rejected, the empty text. -/
theorem witness_EscapeTokenArgumentGivesItsValue :
    Cells.Wf (boot (cfgRef 64)).pd.out ∧ Cells.Wf (boot (cfgRef 64)).pd.tok ∧
    (0x7D : Byte) ∉ [0x30, 0x62] ++ List.replicate 16 0x31 ∧ ([0x30, 0x62] ++ List.replicate 16 0x31).head? ≠ some (0x21 : Byte) ∧
    ([0x30, 0x62] ++ List.replicate 16 (0x31 : Byte)).length ≤ (boot (cfgRef 64)).cfg.tokenMax ∧ 1 ≤ 1 ∧
    responseOf (exec (.pdToken ([0x30, 0x62] ++ List.replicate 16 0x31)) (boot (cfgRef 64))) =
      some (.ok (.bitmap 0xFFFF)) ∧
    responseOf (exec (.pdToken [0x30]) (boot (cfgRef 64))) = some (.err .tokenError) ∧
    ([] : List Byte).head? ≠ some 0x21 ∧
    responseOf (exec (.pdToken []) (boot (cfgRef 64))) = some (.err .tokenError) := by decide
theorem witness_OverlongTokenRaisesParseError :
    (0x7D : Byte) ∉ List.replicate 19 0x31 ∧ (List.replicate 19 0x31).head? ≠ some (0x21 : Byte) ∧
    (List.replicate 19 (0x31 : Byte)).length > (boot (cfgRef 64)).cfg.tokenMax := by decide
theorem witness_UnderlineRunUnderlinesEveryCharacter :
    Cells.Wf (boot (cfgRef 64)).pd.out ∧
    ∀ x ∈ [((0x41 : Byte), (0x21 : Code)), (0x42, 0x22), (0x43, 0x23)],
      Ordinary x.1 ∧ HasCode (boot (cfgRef 64)).cfg x.1 x.2 :=
  ⟨by decide, test_abc_has_codes⟩
/-- The last character in the last tube. -/
theorem witness_BangAfterATextUnderlinesItsLastCharacter :
    Cells.Wf (boot (cfgRef 64)).pd.out ∧
    (∀ x ∈ [((0x41 : Byte), (0x21 : Code)), (0x42, 0x22)] ++ [(0x43, 0x23)],
      Ordinary x.1 ∧ HasCode (boot (cfgRef 64)).cfg x.1 x.2) ∧
    [((0x41 : Byte), (0x21 : Code)), (0x42, 0x22)].length < 3 :=
  ⟨by decide, test_abc_has_codes, by decide⟩
/-- After a text: a token whose bytes the array need not hold, an underline run that fills the array, and a bracket that ends
the argument when the array is full. -/
theorem witness_UnclosedBracketRaisesParseError :
    (∀ x ∈ [((0x41 : Byte), (0x21 : Code)), (0x42, 0x22), (0x43, 0x23)],
      Ordinary x.1 ∧ HasCode (boot (cfgRef 64)).cfg x.1 x.2) ∧
    [((0x41 : Byte), (0x21 : Code)), (0x42, 0x22), (0x43, 0x23)].length ≤ 3 ∧
    (0x7D : Byte) ∉ [0x30, 0x78, 0x31, 0x32] ∧ [0x30, 0x78, 0x31, (0x32 : Byte)].head? ≠ some 0x21 ∧
    (0x7D : Byte) ∉ [0x21, 0x61, 0x62] ∧ 3 + [0x21, 0x61, (0x62 : Byte)].tail.length ≤ 5 ∧
    (0x7D : Byte) ∉ ([] : List Byte) ∧ ([] : List Byte).head? ≠ some 0x21 :=
  ⟨test_abc_has_codes, by decide⟩
theorem witness_BytesAfterAStopAreNotLookedAt :
    Cells.Wf (boot (cfgRef 64)).pd.out ∧
    (∀ x ∈ [((0x41 : Byte), (0x21 : Code)), (0x42, 0x22), (0x43, 0x23)],
      Ordinary x.1 ∧ HasCode (boot (cfgRef 64)).cfg x.1 x.2) ∧
    [((0x41 : Byte), (0x21 : Code)), (0x42, 0x22), (0x43, 0x23)] ≠ [] :=
  ⟨by decide, test_abc_has_codes, by decide⟩
/-- Texts with no such opening: a wrong base, one byte, none. -/
theorem witness_TokenTextOpensWithItsBase :
    (∀ base ∈ ([0x78, 0x58, 0x62, 0x42] : List Byte), [0x30, 0x6F, 0x37].take 2 ≠ [0x30, base]) ∧
    (∀ base ∈ ([0x78, 0x58, 0x62, 0x42] : List Byte), [0x30].take 2 ≠ [0x30, base]) ∧
    ∀ base ∈ ([0x78, 0x58, 0x62, 0x42] : List Byte), ([] : List Byte).take 2 ≠ [0x30, base] := by decide
/-- Five digits (the first is cut off), the first and last digits of each range, no digits, and a byte that is no digit. -/
theorem witness_HexDigitsGiveTheirValueInSixteenBits :
    [0x31, 0x32, 0x33, 0x34, (0x35 : Byte)].map (fun d => hexDigitTable.lookup d) = [1, 2, 3, 4, 5].map some ∧
    [0x30, 0x39, 0x41, 0x46, 0x61, (0x66 : Byte)].map (fun d => hexDigitTable.lookup d) = [0, 9, 10, 15, 10, 15].map some ∧
    ([] : List Byte).map (fun d => hexDigitTable.lookup d) = ([] : List Nat).map some ∧
    ∃ d ∈ [0x31, (0x67 : Byte)], hexDigitTable.lookup d = none := by decide
theorem witness_BinaryDigitsGiveTheirValueInSixteenBits :
    [0x31, 0x30, (0x31 : Byte)].map (fun d => binDigitTable.lookup d) = [1, 0, 1].map some ∧
    ([] : List Byte).map (fun d => binDigitTable.lookup d) = ([] : List Nat).map some ∧
    ∃ d ∈ [0x31, (0x32 : Byte)], binDigitTable.lookup d = none := by decide
/-- `k > MAX_ARGS`; `k = 0`; `k = MAX_ARGS` with another word; `k = MAX_ARGS` and `k = 1` with `print`. -/
theorem witness_ParseSplitsAtEveryColon :
    (List.replicate 5 (0x3A : Byte)).count 0x3A > (boot (cfgRef 64)).cfg.maxArgs ∧
    ([0x47] : List Byte).count 0x3A = 0 ∧
    (List.replicate 4 (0x3A : Byte)).count 0x3A ≤ (boot (cfgRef 64)).cfg.maxArgs ∧
    (List.replicate 4 (0x3A : Byte)).takeWhile (· ≠ 0x3A) ≠ [0x70, 0x72, 0x69, 0x6E, 0x74] ∧
    ([0x70, 0x72, 0x69, 0x6E, 0x74] ++ List.replicate 4 (0x3A : Byte)).count 0x3A ≤ (boot (cfgRef 64)).cfg.maxArgs ∧
    ([0x70, 0x72, 0x69, 0x6E, 0x74] ++ List.replicate 4 (0x3A : Byte)).takeWhile (· ≠ 0x3A) =
      [0x70, 0x72, 0x69, 0x6E, 0x74] ∧
    ([0x70, 0x72, 0x69, 0x6E, 0x74, 0x3A] : List Byte).count 0x3A = 1 := by decide
theorem witness_AfterResetTheRingIsEmpty :
    (∃ t, exec .reset wrapped = .next t) ∧ (List.replicate 8 (0x61 : Byte)).length ≤ wrapped.cfg.cap :=
  ⟨⟨_, rfl⟩, by decide⟩
theorem witness_ReservedCodesChangeNothing :
    (State.present wrapped 8 0x0E).inbox = .host (0xE :: []) :: [] ∧
    (State.present wrapped 8 0x0F).inbox = .host (0xF :: []) :: [] := by decide
/-- A line of each kind: nothing delivered, a command that does not parse, two arguments, one argument. -/
theorem witness_LineRunsItsStagesInOrder :
    responseOf (exec (.cbExtract 8) (ring 8 6 [0x61])) = some (.ok .notReady) ∧
    responseOf (exec (.cbExtract 8) wrapped) = some (.ok (.command [0x61, 0x62, 0x63])) ∧
    responseOf (exec (.cpParse [0x61, 0x62, 0x63]) wrapped) = some (.err .wrongNumArgs) ∧
    responseOf (exec (.cbExtract 16) (ring 64 0 [0x70, 0x72, 0x69, 0x6E, 0x74, 0x3A, 0x3A, 0x0A])) =
      some (.ok (.command [0x70, 0x72, 0x69, 0x6E, 0x74, 0x3A, 0x3A])) ∧
    responseOf (exec (.cpParse [0x70, 0x72, 0x69, 0x6E, 0x74, 0x3A, 0x3A]) wrapped) = some (.ok (.print [[], []])) ∧
    responseOf (exec (.cbExtract 16) (ring 64 0 [0x70, 0x72, 0x69, 0x6E, 0x74, 0x3A, 0x41, 0x0A])) =
      some (.ok (.command [0x70, 0x72, 0x69, 0x6E, 0x74, 0x3A, 0x41])) ∧
    responseOf (exec (.cpParse [0x70, 0x72, 0x69, 0x6E, 0x74, 0x3A, 0x41]) wrapped) = some (.ok (.print [[0x41]])) := by
  refine ⟨?_, ?_, ?_, ?_, ?_, ?_, ?_⟩ <;> decide
/-- The ring unchanged (not ready, too small), and the line taken out (one terminator, two). -/
theorem witness_LineConsumesItsLine :
    wrapped.cb.Inv wrapped.cfg.cap ∧ responseOf (exec (.line 8 8) (ring 8 6 [0x61])) = some (.ok .notReady) ∧
    responseOf (exec (.line 2 8) wrapped) = some (.err .bufOverrun) ∧
    responseOf (exec (.line 3 8) wrapped) = some (.err .wrongNumArgs) ∧
    responseOf (exec (.line 3 8) (ring 8 6 [0x0D, 0x0A])) = some (.err .noopCommand) := by decide
/-- One cell left, and none. -/
theorem witness_BytesOnTheWireArriveOneByOne :
    (ring 8 6 (List.replicate 7 0x61)).cb.Inv (ring 8 6 (List.replicate 7 0x61)).cfg.cap ∧
    (ring 8 6 (List.replicate 7 0x61)).cb.length < (ring 8 6 (List.replicate 7 0x61)).cfg.cap ∧
    (ring 8 6 (List.replicate 8 0x61)).cb.length ≥ (ring 8 6 (List.replicate 8 0x61)).cfg.cap := by decide
/-- A record alone in its stream, and one with another behind it. -/
theorem witness_StepRunsTheDecodedInstruction :
    decode wrapped.cfg wrapped.pd.state (.host [0x6]) = .instr .cbPendLen [] ∧
    decode wrapped.cfg wrapped.pd.state (.host [0x6, 0x7]) = .instr .cbPendLen [0x7] ∧
    (State.present wrapped 8 0x06).inbox = [.host [0x6]] := by decide
theorem witness_StepWithNothingPresentedIdles : wrapped.inbox = [] := rfl
/-- A row where it is selected, one in another state, one with a byte of another class. -/
theorem witness_OnlyATruncatedRequestIsRefused :
    (Instr.pdStartPrintable 0x41).cellState = some .start ∧ (boot (cfgRef 64)).pd.state = .start ∧
    wellFormed (boot (cfgRef 64)).cfg (.pdStartPrintable 0x41) = true ∧
    Instr.pdIdleBang.cellState = some .idle ∧ (boot (cfgRef 64)).pd.state ≠ .idle ∧
    wellFormed (boot (cfgRef 64)).cfg (.pdStartPrintable 0x7B) = false := by decide
/-- A PD row in its own state; rows of every other format. -/
theorem witness_EncodedInstructionsDecodeToThemselves :
    wellFormed (cfgRef 64) (.pdTokenPrintable 0x31) = true ∧
    Instr.cellState (.pdTokenPrintable 0x31) = some .token ∧ wellFormed (cfgRef 64) (.cbExtract 64) = true ∧
    Instr.cellState (.cbExtract 64) = none ∧ wellFormed (cfgRef 64) (.tokenHexLower [0x31]) = true ∧
    wellFormed (cfgRef 64) (.line 64 8) = true ∧ wellFormed (cfgRef 64) .wireCr = true := by decide
theorem witness_ARequestRecordIsReadToItsEnd :
    wellFormed (cfgRef 64) (.pdDecode [0x41, 0x21] 8) = true ∧
    encode (.pdDecode [0x41, 0x21] 8) = .host [0xA, 0x2, 0x1, 0x4, 0x1, 0x2, 0x8, 0x1] ∧
    decode (cfgRef 64) .start (.host ([0xA, 0x2, 0x1, 0x4, 0x1, 0x2, 0x8, 0x1] ++ [0x8, 0x0])) =
      .instr (.pdDecode [0x41, 0x21] 8) [0x8, 0x0] := by decide
theorem witness_StepKeepsTheInvariant :
    (State.present (boot (cfgRef 64)) 8 0x06).Inv ∧
    responseOf (step (State.present (boot (cfgRef 64)) 8 0x06)) = some (.ok (.number 0)) :=
  ⟨⟨Config.referenceWithCap_admissible (by decide), by decide⟩, by decide⟩
/-- Each kind of the taxonomy, raised. -/
theorem witness_ErrorsComeFromTheirOperations :
    [responseOf (exec (.cbAppend (List.replicate 5 0x61)) wrapped), responseOf (exec (.cbExtract 2) wrapped),
     responseOf (exec (.cbExtract 2) (ring 8 0 [0x0A])), responseOf (exec (.cpParse [0x3A]) wrapped),
     responseOf (exec (.cpParse (List.replicate 5 0x3A)) wrapped), responseOf (exec (.cpParse []) wrapped),
     responseOf (exec (.pdDecode [0x21] 8) wrapped), responseOf (exec (.pdToken []) wrapped)] =
      [.bufferOverrun, .bufOverrun, .noopCommand, .badCommand, .tooManyArgs, .wrongNumArgs, .parseError,
       .tokenError].map fun k => some (.err k) := by decide
theorem witness_ErrorsLeaveTheRingAlone :
    (∃ t, exec (.cbExtract 2) wrapped = .next t ∧ t.response = some (.err .bufOverrun)) ∧
    ErrKind.bufOverrun ≠ .bufferOverrun ∧ ErrKind.bufOverrun ≠ .noopCommand ∧ ∀ d n, Instr.cbExtract 2 ≠ .line d n :=
  ⟨⟨_, rfl, by decide⟩, by decide, by decide, fun _ _ h => by cases h⟩
/-- An append that fits exactly, and a query. -/
theorem witness_OnlyTheirOperationsWriteTheRing :
    (∃ t, exec (.cbAppend (List.replicate 4 0x61)) wrapped = .next t) ∧
    chunkOf (.cbAppend (List.replicate 4 0x61)) = some (List.replicate 4 0x61) ∧
    (List.replicate 4 (0x61 : Byte)).length + wrapped.cb.length ≤ wrapped.cfg.cap ∧
    (∃ t, exec .cbPendLen wrapped = .next t) ∧ chunkOf .cbPendLen = none ∧ ¬Extracts .cbPendLen ∧
    Instr.cellState .cbPendLen = none :=
  ⟨⟨_, rfl⟩, by decide, by decide, ⟨_, rfl⟩, rfl, id, rfl⟩
/-- The same unread bytes at different indices, with different stale cells and decoder registers. -/
theorem witness_HiddenStateNeverShows :
    (ring 8 0 [0x61, 0x0A]).Inv ∧ State.Inv ((ring 8 6 [0x61, 0x0A]).setPd (scanning (cfgRef 8) .token [0x30] [0x21]).pd) ∧
    (ring 8 0 [0x61, 0x0A]).cfg = (ring 8 6 [0x61, 0x0A]).cfg ∧
    (ring 8 0 [0x61, 0x0A]).unread = (ring 8 6 [0x61, 0x0A]).unread ∧ Instr.cellState (.cbExtract 8) = none :=
  ⟨⟨Config.referenceWithCap_admissible (by decide), by decide⟩, ⟨Config.referenceWithCap_admissible (by decide), by decide⟩, rfl, by decide, rfl⟩
theorem witness_SentinelMarksNoCodeOnThePort : (boot (cfgRef 64)).cfg.Admissible ∧ HasCode (boot (cfgRef 64)).cfg 0x7E 0x5E :=
  ⟨Config.referenceWithCap_admissible (by decide), by simp only [HasCode]; decide⟩
theorem witness_NotReadyPortShowsAFreeOffset :
    NoTerminator (ring 8 6 [0x61]).unread ∧ wrapped.unread = [0x61, 0x62, 0x63] ++ 0x0A :: [] ∧
    NoTerminator [0x61, 0x62, 0x63] ∧ Terminator 0x0A := by
  simp only [NoTerminator, Terminator]; decide

end Sys2Proof.Tests
end

/-! ## 00_scope.md: what a step runs, and when it stops

The facts about the decoder, about `exec` on PD rows and on all other rows, and about one step come first; the statements of
00_scope.md follow from them. -/

namespace Sys2Proof

open Sys2Proof.Machine

/-! ### What the decoder gives -/

/-- What an operand decoder gives is no PD row, if what it makes of its operand never is. -/
theorem Decoded.ofOperand_cellState {α : Type} {mk : α → Instr} {operand : Option (α × List Nibble)} {i : Instr}
    {rest : List Nibble} (hmk : ∀ a, (mk a).cellState = none) (h : Decoded.ofOperand mk operand = .instr i rest) :
    i.cellState = none := by
  cases operand with
  | none => cases h
  | some read =>
    cases h
    exact hmk read.1

/-- No request record is a PD row: those have no op code (R66, R68). -/
theorem decodeHost_cellState {ns rest : List Nibble} {i : Instr} (h : decodeHost ns = .instr i rest) :
    i.cellState = none := by
  cases ns with
  | nil => cases h
  | cons op ns =>
    simp only [decodeHost] at h
    split at h
    case h_7 | h_8 | h_9 | h_14 => cases h; rfl  -- the op codes without operands
    case h_11 =>                                 -- PD.DECODE, which reads two operands
      split at h
      · exact Decoded.ofOperand_cellState (fun _ => rfl) h
      · cases h
    case h_15 => cases h                         -- the reserved codes
    all_goals exact Decoded.ofOperand_cellState (fun _ => rfl) h

/-- The row the decoder reads for a byte of a print argument is one of the decoder's present state (R88). -/
@[simp] theorem decodePd_cellState (cfg : Config) (st : PdState) (c : Byte) :
    (decodePd cfg st c).cellState = some st := by
  unfold decodePd
  cases st <;> cases classOf cfg c <;> rfl

/-- The row the decoder reads for a byte of a print argument is one of the byte's class (R66). -/
@[simp] theorem decodePd_wellFormed (cfg : Config) (st : PdState) (c : Byte) :
    wellFormed cfg (decodePd cfg st c) = true := by
  unfold decodePd
  cases st <;> cases hc : classOf cfg c <;> simp [wellFormed, classIs, hc]

@[simp] theorem decodeToken_cellState (text : List Byte) : (decodeToken text).cellState = none := by
  unfold decodeToken
  repeat' split
  all_goals rfl

@[simp] theorem decodeWire_cellState (b : Byte) : (decodeWire b).cellState = none := by
  unfold decodeWire
  repeat' split
  all_goals rfl

/-- An instruction the decoder gives is no PD row, or it is the one that R88 selects. -/
theorem decode_selects {cfg : Config} {st : PdState} {item : Fetch} {i : Instr} {rest : List Nibble}
    (h : decode cfg st item = .instr i rest) :
    i.cellState = none ∨ (i.cellState = some st ∧ wellFormed cfg i = true) := by
  cases item with
  | host ns => exact .inl (decodeHost_cellState h)
  | line destCapacity tubeCount => cases h; exact .inl rfl
  | pd c => cases h; exact .inr ⟨decodePd_cellState cfg st c, decodePd_wellFormed cfg st c⟩
  | token text => cases h; exact .inl (decodeToken_cellState text)
  | wire b => cases h; exact .inl (decodeWire_cellState b)

/-- Only a request record can be cut short. -/
theorem decode_truncated {cfg : Config} {st : PdState} {item : Fetch} (h : decode cfg st item = .truncated) :
    ∃ ns, item = .host ns ∧ decodeHost ns = .truncated := by
  cases item with
  | host ns => exact ⟨ns, rfl, h⟩
  | line _ _ | pd _ | token _ | wire _ => cases h

end Sys2Proof

namespace Sys2Proof.Machine

@[simp] theorem reservedRow_cellState (op : Nibble) : (reservedRow op).cellState = none := by
  unfold reservedRow
  split <;> rfl

/-! ### Which instructions complete -/

/-- Every PD row is `runCell` in the state of its row, which is well-formed iff its byte has its class. -/
theorem exec_eq_runCell {i : Instr} {st : PdState} (h : i.cellState = some st) :
    ∃ (k : ByteClass) (c : Byte) (cell : Config → PD → CellOut), ∀ s : State,
      exec i s = runCell st k c cell s ∧ wellFormed s.cfg i = classIs s.cfg c k := by
  cases i <;> cases h <;> exact ⟨_, _, _, fun _ => ⟨by rw [exec]; exact rfl, rfl⟩⟩

/-- A PD row is refused where R88 does not select it. -/
theorem runCell_refused {st : PdState} {k : ByteClass} {c : Byte} {cell : Config → PD → CellOut} {s : State}
    (h : s.pd.state ≠ st ∨ classOf s.cfg c ≠ k) : runCell st k c cell s = .refused .cellNotSelected :=
  if_neg fun hsel => h.elim (· hsel.1) (· hsel.2)

/-- A PD row completes in the state of its row on a byte of its class (R66, R88). -/
theorem exec_pdRow_completes {i : Instr} {s : State} (h : i.cellState = some s.pd.state)
    (hwf : wellFormed s.cfg i = true) : ∃ t, exec i s = .next t := by
  obtain ⟨k, c, cell, hrow⟩ := exec_eq_runCell h
  obtain ⟨hexec, hclass⟩ := hrow s
  exact ⟨_, hexec.trans (runCell_selected rfl (by simpa [hclass, classIs] using hwf))⟩

/-- A PD row is refused in another state, and on a byte of another class (R66, R88). -/
theorem exec_pdRow_refused {i : Instr} {st : PdState} {s : State} (h : i.cellState = some st)
    (hsel : s.pd.state ≠ st ∨ wellFormed s.cfg i = false) : exec i s = .refused .cellNotSelected := by
  obtain ⟨k, c, cell, hrow⟩ := exec_eq_runCell h
  obtain ⟨hexec, hclass⟩ := hrow s
  refine hexec.trans (runCell_refused (hsel.imp_right fun hwf => ?_))
  simpa [hclass, classIs] using hwf

/-- Every instruction that is no PD row completes, in every state (R22, R141). -/
theorem exec_completes {i : Instr} (h : i.cellState = none) (s : State) : ∃ t, exec i s = .next t := by
  cases i <;> cases h <;> exact ⟨_, rfl⟩

/-- Every instruction the decoder gives completes in the state it was decoded in. -/
theorem exec_decoded_completes {s : State} {item : Fetch} {i : Instr} {rest : List Nibble}
    (h : decode s.cfg s.pd.state item = .instr i rest) : ∃ t, exec i (s.advance rest) = .next t := by
  rcases decode_selects h with hnone | ⟨hcell, hwf⟩
  · exact exec_completes hnone _
  · exact exec_pdRow_completes (s := s.advance rest) hcell hwf

/-! ### One step, by what is presented -/

theorem step_of_inbox_nil {s : State} (h : s.inbox = []) : step s = .next s := by
  simp [step, fetchNext, h]

section Presented

variable {s : State} {item : Fetch} {items : List Fetch}

theorem step_of_decode_instr {i : Instr} {rest : List Nibble} (hin : s.inbox = item :: items)
    (hd : decode s.cfg s.pd.state item = .instr i rest) : step s = exec i (s.advance rest) := by
  simp [step, fetchNext, hin, hd]

theorem step_of_decode_reserved {op : Nibble} {rest : List Nibble} (hin : s.inbox = item :: items)
    (hd : decode s.cfg s.pd.state item = .reserved op rest) : step s = exec (reservedRow op) (s.advance rest) := by
  simp [step, fetchNext, hin, hd]

theorem step_of_decode_truncated (hin : s.inbox = item :: items)
    (hd : decode s.cfg s.pd.state item = .truncated) : step s = .refused .truncatedRequest := by
  simp [step, fetchNext, hin, hd]

end Presented

/-- What is left of an item stands before the items that wait behind it, unless nothing is left. -/
theorem restOf_append (rest : List Nibble) (items : List Fetch) :
    restOf rest ++ items = if rest = [] then items else .host rest :: items := by
  cases rest <;> rfl

end Sys2Proof.Machine

namespace Sys2Proof.Proofs

open Sys2Proof.Machine

/-- Settles O47: with an empty inbox nothing is fetched. -/
theorem stepWithNothingPresentedIdles : Obligations.StepWithNothingPresentedIdles :=
  fun _ => step_of_inbox_nil

/-- Settles O46: the step is `exec` on the advanced state, whose inbox is then written out. -/
theorem stepRunsTheDecodedInstruction : Obligations.StepRunsTheDecodedInstruction := by
  intro s item items i rest hin hd
  rw [step_of_decode_instr hin hd, ← restOf_append]
  simp [State.advance, hin]

/-- A step completes, or what is presented is a request record that ends inside its operands. -/
theorem step_completes_or_truncated (s : State) :
    (∃ t, step s = .next t) ∨
      (step s = .refused .truncatedRequest ∧
        ∃ ns items, s.inbox = .host ns :: items ∧ decodeHost ns = .truncated) := by
  rcases hin : s.inbox with _ | ⟨item, items⟩
  · exact .inl ⟨s, step_of_inbox_nil hin⟩
  cases hd : decode s.cfg s.pd.state item with
  | instr i rest =>
    rw [step_of_decode_instr hin hd]
    exact .inl (exec_decoded_completes hd)
  | reserved op rest =>
    rw [step_of_decode_reserved hin hd]
    exact .inl (exec_completes (reservedRow_cellState op) _)
  | truncated =>
    obtain ⟨ns, rfl, hns⟩ := decode_truncated hd
    exact .inr ⟨step_of_decode_truncated hin hd, ns, items, rfl, hns⟩

/-- Settles O48, by cases on what is presented and on what the decoder reads; a PD row given to `exec` runs its cell exactly
where R88 selects it. -/
theorem onlyATruncatedRequestIsRefused : Obligations.OnlyATruncatedRequestIsRefused := by
  refine fun s => ⟨step_completes_or_truncated s, fun i st hcell => ⟨?_, exec_pdRow_refused hcell⟩⟩
  rintro rfl hwf
  exact exec_pdRow_completes hcell hwf

end Sys2Proof.Proofs

/-! ## 10_state.md: the state, what each instruction writes of it, and what every step keeps

Layers: the reset configuration; the CommandBuffer as its list of unread bytes (R28) and its invariant (R26); the print
decoder's cells sorted by the shared step they make, with what that step keeps (R30) and shows (R38); the instructions sorted
by what they write (R39); then the statements. -/

namespace Sys2Proof

/-! ### The device's configuration is admissible (R13) -/

theorem Config.device_segLookup {c : Nat} (h1 : 0x20 ≤ c) (h2 : c ≤ 0x7F) :
    Config.device.segLookup c = Config.deviceCode c := by
  have hi : c - 0x20 < 96 := by omega
  have hc : 0x20 + (c - 0x20) = c := by omega
  simp [Config.segLookup, Config.device, hi, hc]

/-- A value below `0x3FFF` is no `0x3FFF` in 14 bits either. -/
theorem Config.codeOfFin_ne (v : Fin 0x3FFF) : BitVec.ofNat 14 v.val ≠ 0x3FFF := by
  intro h
  have hn := congrArg BitVec.toNat h
  simp only [BitVec.toNat_ofNat, BitVec.reduceToNat] at hn
  omega

/-- R13 (c): the device's codes are taken from the values below `0x3FFF`. -/
theorem Config.deviceCode_ne_sentinel (c : Nat) : Config.deviceCode c ≠ some 0x3FFF := by
  unfold Config.deviceCode
  split_ifs
  · simpa using Config.codeOfFin_ne _
  · simp
  · simpa using fun v _ => Config.codeOfFin_ne v

/-- R13 (a): both cases of a letter read the entry of the upper case. -/
theorem Config.deviceCode_lower {k : Nat} (h : k < 26) :
    Config.deviceCode (0x61 + k) = Config.deviceCode (0x41 + k) := by
  have hfold : Config.foldCase (0x61 + k) = Config.foldCase (0x41 + k) := by
    unfold Config.foldCase
    rw [if_pos (by omega), if_neg (by omega)]
    omega
  unfold Config.deviceCode
  rw [if_neg (by omega), if_neg (by omega), if_neg (by omega), if_neg (by omega), hfold]

theorem Config.device_admissible : Config.device.Admissible := by
  refine ⟨Nat.succ_pos _, Nat.succ_pos _, by simp [Config.device], ?_, ?_, ?_, ?_⟩
  · intro e he
    obtain ⟨i, -, rfl⟩ := List.mem_map.mp he
    exact Config.deviceCode_ne_sentinel _
  · intro k hk
    rw [Config.device_segLookup (by omega) (by omega), Config.device_segLookup (by omega) (by omega),
      Config.deviceCode_lower hk]
  · exact Config.device_segLookup (by decide) (by decide)
  · exact congrArg Option.isSome (Config.device_segLookup (c := 0x20) (by decide) (by decide))

end Sys2Proof

namespace Sys2Proof.Machine

open Sys2Proof.Claims

/-! ### Terminators in a list of bytes -/

theorem isTerm_iff {b : Byte} : isTerm b = true ↔ Terminator b := by
  simp [isTerm, Terminator]

theorem isTerm_eq_false_iff {b : Byte} : isTerm b = false ↔ b ≠ 0x0D ∧ b ≠ 0x0A := by
  simp [isTerm]

/-- The lowest index of a terminator cuts the bytes into those before it, it, and the rest. -/
theorem split_of_findIdx?_isTerm {u : List Byte} {n : Nat} (h : u.findIdx? isTerm = some n) :
    ∃ b rest, u = u.take n ++ b :: rest ∧ Terminator b ∧ NoTerminator (u.take n) := by
  obtain ⟨hn, hterm, hbefore⟩ := List.findIdx?_eq_some_iff_getElem.mp h
  refine ⟨u[n], u.drop (n + 1), ?_, isTerm_iff.mp hterm, fun b hb => ?_⟩
  · rw [List.getElem_cons_drop, List.take_append_drop]
  · obtain ⟨j, hj, rfl⟩ := List.mem_take_iff_getElem.mp hb
    exact isTerm_eq_false_iff.mp (by simpa using hbefore j (by omega))

/-! ### The CommandBuffer as the list of its unread bytes (R28) -/

theorem CB.unread_eq_map (cap : Nat) (cb : CB) : cb.unread cap = (List.range cb.length).map (cb.byteAt cap) := rfl

theorem CB.hasCmd_eq_any (cap : Nat) (cb : CB) : cb.hasCmd cap = (cb.unread cap).any isTerm := by
  rw [CB.unread_eq_map, List.any_map]
  rfl

theorem CB.cmdLen_eq_findIdx? (cap : Nat) (cb : CB) : cb.cmdLen cap = (cb.unread cap).findIdx? isTerm := by
  ext t
  rw [CB.cmdLen_eq_some, List.findIdx?_eq_some_iff_getElem]
  simp only [CB.getElem_unread, CB.unread_length, Bool.not_eq_true]
  constructor
  · rintro ⟨hterm, ht, hbefore⟩
    exact ⟨ht, hterm, hbefore⟩
  · rintro ⟨ht, hterm, hbefore⟩
    exact ⟨hterm, ht, hbefore⟩

/-- The first `n` unread bytes, read from the byte store. -/
theorem CB.memRead_eq_take {cap : Nat} {cb : CB} {n : Nat} (h : n ≤ cb.length) :
    memRead cap cb.mem cb.head n = (cb.unread cap).take n := by
  rw [CB.unread, memRead, memRead, ← List.map_take, List.take_range, Nat.min_eq_left h]

/-- A stored chunk stands behind the unread bytes (R79). -/
theorem CB.unread_store {cap : Nat} {cb : CB} {bytes : List Byte} (hinv : cb.Inv cap)
    (hfit : bytes.length + cb.length ≤ cap) : (cb.store cap bytes).unread cap = cb.unread cap ++ bytes := by
  obtain ⟨-, -, -, htail, hwf, -⟩ := hinv
  have haddr (k : Nat) : (cb.tail + k) % cap = (cb.head + (cb.length + k)) % cap := by
    rw [htail, Nat.mod_add_mod, Nat.add_assoc]
  apply List.ext_getElem
  · simp
  · intro i h1 h2
    rw [CB.getElem_unread, CB.byteAt, CB.store_mem, CB.store_head]
    by_cases hi : i < cb.length
    · rw [List.getElem_append_left (by simpa using hi), CB.getElem_unread, CB.byteAt]
      refine memWrite_read_other hwf _ _ _ _ fun k hk heq => ?_
      have := add_mod_inj (by omega) (by omega) (heq.trans (haddr k))
      omega
    · obtain ⟨k, rfl⟩ : ∃ k, i = cb.length + k := ⟨i - cb.length, by omega⟩
      have hk : k < bytes.length := by simp at h1; omega
      rw [← haddr, memWrite_read_same hwf _ _ _ (by omega) k hk, List.getElem_append_right (by simp)]
      simp

/-- One trimming step drops the first unread byte if it is a terminator (R84). -/
theorem CB.unread_trimOne {cap : Nat} {cb : CB} (hhead : cb.head < cap) :
    (cb.trimOne cap).unread cap = Machine.trimOne (cb.unread cap) := by
  have hfirst : cb.byteAt cap 0 = Cells.read cb.mem cb.head := by
    rw [CB.byteAt, Nat.add_zero, Nat.mod_eq_of_lt hhead]
  cases hlen : cb.length with
  | zero =>
    have hnil : cb.unread cap = [] := by simp [CB.unread_eq_map, hlen]
    simp [CB.trimOne, hlen, hnil, Machine.trimOne]
  | succ n =>
    obtain ⟨bs, hcons⟩ : ∃ bs, cb.unread cap = Cells.read cb.mem cb.head :: bs :=
      ⟨_, by rw [CB.unread_eq_map, hlen, List.range_succ_eq_map, List.map_cons, hfirst]⟩
    cases hterm : isTerm (Cells.read cb.mem cb.head)
    · simp [CB.trimOne, hterm, hcons, Machine.trimOne]
    · simp [CB.trimOne, hterm, hlen, CB.unread_drop, hcons, Machine.trimOne]

/-! ### The ring invariant (R26) -/

theorem CB.empty_inv {cap : Nat} (hcap : 0 < cap) : CB.empty.Inv cap :=
  ⟨Nat.zero_le _, hcap, hcap, (Nat.zero_mod cap).symm, Cells.wf_nil, by simp [CB.empty]⟩

section RingInvariant

variable {cap : Nat} {cb : CB}

theorem CB.clear_inv (hinv : cb.Inv cap) : cb.clear.Inv cap := by
  obtain ⟨-, hhead, -, -, hwf, hmem⟩ := hinv
  have hcap : 0 < cap := by omega
  exact ⟨Nat.zero_le _, hcap, hcap, (Nat.zero_mod cap).symm, hwf, hmem⟩

theorem CB.store_inv {bytes : List Byte} (hinv : cb.Inv cap) (hfit : bytes.length + cb.length ≤ cap) :
    (cb.store cap bytes).Inv cap := by
  obtain ⟨-, hhead, -, htail, hwf, hmem⟩ := hinv
  have hcap : 0 < cap := by omega
  refine ⟨?_, hhead, Nat.mod_lt _ hcap, ?_, memWrite_wf hwf _ _ _, memWrite_bound hcap hmem _ _⟩
  · rw [CB.store_length]
    omega
  · rw [CB.store_tail, CB.store_head, CB.store_length, htail, Nat.mod_add_mod, Nat.add_assoc]

theorem CB.drop_inv {n : Nat} (hinv : cb.Inv cap) (hn : n ≤ cb.length) : (cb.drop cap n).Inv cap := by
  obtain ⟨hlen, hhead, htail, heq, hwf, hmem⟩ := hinv
  refine ⟨?_, Nat.mod_lt _ (by omega), htail, ?_, hwf, hmem⟩
  · rw [CB.drop_length]
    omega
  · rw [CB.drop_tail, CB.drop_head, CB.drop_length, Nat.mod_add_mod, heq,
      show cb.head + n + (cb.length - n) = cb.head + cb.length by omega]

theorem CB.trimOne_inv (hinv : cb.Inv cap) : (cb.trimOne cap).Inv cap := by
  rcases CB.trimOne_cases cap cb with ⟨hpos, -, heq⟩ | ⟨-, heq⟩ <;> rw [heq]
  · exact CB.drop_inv hinv hpos
  · exact hinv

theorem CB.trim_inv (hinv : cb.Inv cap) : (cb.trim cap).Inv cap :=
  CB.trimOne_inv (CB.trimOne_inv hinv)

/-- `Trim()` refines its abstract form (R84). -/
theorem CB.unread_trim (hinv : cb.Inv cap) : (cb.trim cap).unread cap = trim2 (cb.unread cap) := by
  obtain ⟨-, hhead', -⟩ := CB.trimOne_inv hinv
  obtain ⟨-, hhead, -⟩ := hinv
  rw [CB.trim, CB.unread_trimOne hhead', CB.unread_trimOne hhead, trim2]

theorem CB.append_inv (hinv : cb.Inv cap) (bytes : List Byte) : (cb.append cap bytes).1.Inv cap := by
  rcases CB.append_cases cap cb bytes with ⟨-, heq⟩ | ⟨hfit, heq⟩ <;> rw [heq]
  · exact CB.clear_inv hinv
  · exact CB.store_inv hinv hfit

/-- An append that fits leaves `head` alone (R27). -/
theorem CB.append_head {bytes : List Byte} (hfit : bytes.length + cb.length ≤ cap) :
    (cb.append cap bytes).1.head = cb.head := by
  rcases CB.append_cases cap cb bytes with ⟨hover, -⟩ | ⟨-, heq⟩
  · exact absurd hfit (Nat.not_le.mpr hover)
  · rw [heq, CB.store_head]

/-- `CB.APPEND` refines its abstract form (R79). -/
theorem CB.append_refines (hinv : cb.Inv cap) (bytes : List Byte) :
    ((cb.append cap bytes).1.unread cap, (cb.append cap bytes).2) = absAppend cap (cb.unread cap) bytes := by
  unfold absAppend
  rw [CB.unread_length]
  rcases CB.append_cases cap cb bytes with ⟨hover, heq⟩ | ⟨hfit, heq⟩
  · rw [heq, if_pos hover, CB.unread_clear]
  · rw [heq, if_neg (Nat.not_lt.mpr hfit), CB.unread_store hinv hfit]

theorem CB.extract_inv (hinv : cb.Inv cap) (d : Nat) : (cb.extract cap d).1.Inv cap := by
  rcases CB.extract_cases cap cb d with ⟨-, heq⟩ | ⟨-, heq⟩ | ⟨t, -, -, heq⟩ | ⟨t, hlen, -, heq⟩ <;> rw [heq]
  · exact hinv
  · exact CB.trim_inv hinv
  · exact hinv
  · obtain ⟨-, ht, -⟩ := CB.cmdLen_eq_some.mp hlen
    exact CB.trim_inv (CB.drop_inv hinv ht.le)

/-- What `CB.EXTRACT` answers is what its abstract form answers (R83), in every state. -/
theorem CB.extract_response (cap : Nat) (cb : CB) (d : Nat) :
    (cb.extract cap d).2 = (absExtract (cb.unread cap) d).2 := by
  unfold absExtract
  rw [← CB.cmdLen_eq_findIdx?]
  rcases CB.extract_cases cap cb d with ⟨hlen, heq⟩ | ⟨hlen, heq⟩ | ⟨t, hlen, hd, heq⟩ | ⟨t, hlen, hd, heq⟩
  · simp [hlen, heq]
  · simp [hlen, heq]
  · simp [hlen, heq, hd]
  · obtain ⟨-, ht, -⟩ := CB.cmdLen_eq_some.mp hlen
    simp [hlen, heq, Nat.not_le.mpr hd, CB.memRead_eq_take ht.le]

/-- `CB.EXTRACT` leaves the unread bytes that its abstract form leaves (R83, R84). -/
theorem CB.extract_unread (hinv : cb.Inv cap) (d : Nat) :
    (cb.extract cap d).1.unread cap = (absExtract (cb.unread cap) d).1 := by
  unfold absExtract
  rw [← CB.cmdLen_eq_findIdx?]
  rcases CB.extract_cases cap cb d with ⟨hlen, heq⟩ | ⟨hlen, heq⟩ | ⟨t, hlen, hd, heq⟩ | ⟨t, hlen, hd, heq⟩
  · simp [hlen, heq]
  · simp [hlen, heq, CB.unread_trim hinv]
  · simp [hlen, heq, hd]
  · obtain ⟨-, ht, -⟩ := CB.cmdLen_eq_some.mp hlen
    simp [hlen, heq, Nat.not_le.mpr hd, CB.unread_trim (CB.drop_inv hinv ht.le), CB.unread_drop]

end RingInvariant

/-- A trimming step moves `head` and `length` only (R84). -/
theorem CB.trimOne_frame (cap : Nat) (cb : CB) : (cb.trimOne cap).tail = cb.tail ∧ (cb.trimOne cap).mem = cb.mem := by
  rcases CB.trimOne_cases cap cb with ⟨-, -, heq⟩ | ⟨-, heq⟩ <;> rw [heq] <;> exact ⟨rfl, rfl⟩

theorem CB.trim_frame (cap : Nat) (cb : CB) : (cb.trim cap).tail = cb.tail ∧ (cb.trim cap).mem = cb.mem := by
  obtain ⟨htail, hmem⟩ := CB.trimOne_frame cap cb
  obtain ⟨htail', hmem'⟩ := CB.trimOne_frame cap (cb.trimOne cap)
  exact ⟨htail'.trans htail, hmem'.trans hmem⟩

/-- `CB.EXTRACT` moves `head` and `length` only (R27). -/
theorem CB.extract_frame (cap : Nat) (cb : CB) (d : Nat) :
    (cb.extract cap d).1.tail = cb.tail ∧ (cb.extract cap d).1.mem = cb.mem := by
  rcases CB.extract_cases cap cb d with ⟨-, heq⟩ | ⟨-, heq⟩ | ⟨t, -, -, heq⟩ | ⟨t, -, -, heq⟩ <;> rw [heq]
  · exact ⟨rfl, rfl⟩
  · exact CB.trim_frame cap cb
  · exact ⟨rfl, rfl⟩
  · exact CB.trim_frame cap (cb.drop cap (t + 1))

/-- A command the abstract `CB.EXTRACT` delivers is the bytes before the first terminator (R29). -/
theorem absExtract_command {u cmd : List Byte} {d : Nat} (h : (absExtract u d).2 = .ok (.command cmd)) :
    ∃ t, u.findIdx? isTerm = some t ∧ cmd = u.take t := by
  unfold absExtract at h
  rcases hidx : u.findIdx? isTerm with _ | _ | t <;> rw [hidx] at h
  · cases h
  · cases h
  · dsimp only at h
    split_ifs at h
    cases h
    exact ⟨t + 1, rfl, rfl⟩

/-! ### The unread bytes of a state -/

@[simp] theorem State.unread_respond (s : State) (r : Option Response) : (s.respond r).unread = s.unread := rfl
@[simp] theorem State.unread_succeed (s : State) (r : Result) : (s.succeed r).unread = s.unread := rfl
@[simp] theorem State.unread_raise (s : State) (k : ErrKind) : (s.raise k).unread = s.unread := rfl
@[simp] theorem State.unread_setPd (s : State) (pd : PD) : (s.setPd pd).unread = s.unread := rfl
@[simp] theorem State.unread_setCb (s : State) (cb : CB) : (s.setCb cb).unread = cb.unread s.cfg.cap := rfl
@[simp] theorem State.unread_endScan (s : State) (r : Response) : (s.endScan r).unread = s.unread := rfl

theorem appendChunk_refines {s : State} (hinv : s.cb.Inv s.cfg.cap) (bytes : List Byte) :
    ((appendChunk bytes s).unread, (appendChunk bytes s).response) =
      ((absAppend s.cfg.cap s.unread bytes).1, some (absAppend s.cfg.cap s.unread bytes).2) := by
  rw [State.unread, State.unread, ← CB.append_refines hinv bytes]
  rfl

/-- Two rings with the same unread bytes deliver the same and are left with the same unread bytes (R83, R84). -/
theorem extract_congr {s t : State} (hs : s.cb.Inv s.cfg.cap) (ht : t.cb.Inv t.cfg.cap)
    (hunread : s.unread = t.unread) (d : Nat) :
    (s.cb.extract s.cfg.cap d).2 = (t.cb.extract t.cfg.cap d).2 ∧
    (s.cb.extract s.cfg.cap d).1.unread s.cfg.cap = (t.cb.extract t.cfg.cap d).1.unread t.cfg.cap := by
  rw [State.unread, State.unread] at hunread
  rw [CB.extract_response, CB.extract_response, CB.extract_unread hs, CB.extract_unread ht, hunread]
  exact ⟨rfl, rfl⟩

/-! ### The cells of the print decoder, by the shared step each makes (R94 to R118) -/

/-- The steps a cell can make on the registers after its byte was consumed (R88, R89, R93, R100, R111). -/
inductive CellStep (cfg : Config) : (PD → CellOut) → Prop where
  | raise (k : ErrKind) : CellStep cfg fun _ => .raise k
  | goTo (next : PdState) : CellStep cfg (·.goTo next)
  | showChar (c : Byte) (next : PdState) : CellStep cfg (·.showChar cfg c next)
  | showUnderlined (c : Byte) (next : PdState) : CellStep cfg (·.showUnderlined cfg c next)
  | underlineLast : CellStep cfg (·.underlineLast)
  | bufferFirst (c : Byte) : CellStep cfg fun pd => PD.buffer cfg.tokenMax { pd with tlen := 0 } c .token
  | buffer (c : Byte) : CellStep cfg fun pd => PD.buffer cfg.tokenMax pd c .token
  | closeEmpty : CellStep cfg fun pd => PD.closeToken { pd with tlen := 0 }
  | close : CellStep cfg (·.closeToken)

/-- The 25 cells: in one state and on one byte, a transition makes one and the same shared step, whatever else the registers
hold. -/
theorem PD.transition_eq_step (cfg : Config) (st : PdState) (c : Byte) :
    ∃ f, CellStep cfg f ∧ ∀ pd : PD, pd.state = st → pd.transition cfg c = f pd.consume := by
  suffices h : ∃ f, CellStep cfg f ∧ ∀ pd : PD, PD.transition cfg { pd with state := st } c =
      f (PD.consume { pd with state := st }) by
    obtain ⟨f, hf, heq⟩ := h
    exact ⟨f, hf, by rintro pd rfl; exact heq pd⟩
  unfold PD.transition
  cases st <;> cases classOf cfg c
  case start.lbrace | idle.lbrace => exact ⟨_, .goTo .tokenStart, fun _ => rfl⟩
  case tokenStart.bang => exact ⟨_, .goTo .underline, fun _ => rfl⟩
  case underline.rbrace => exact ⟨_, .goTo .idle, fun _ => rfl⟩
  case start.bang | start.nonprintable | idle.nonprintable | underline.bang | underline.nonprintable =>
    exact ⟨_, .raise .parseError, fun _ => rfl⟩
  case idle.bang => exact ⟨_, .underlineLast, fun _ => rfl⟩
  case start.rbrace | idle.rbrace => exact ⟨_, .showChar chRbrace .idle, fun _ => rfl⟩
  case start.printable | idle.printable => exact ⟨_, .showChar c .idle, fun _ => rfl⟩
  case underline.lbrace => exact ⟨_, .showUnderlined chLbrace .underline, fun _ => rfl⟩
  case underline.printable => exact ⟨_, .showUnderlined c .underline, fun _ => rfl⟩
  case tokenStart.lbrace => exact ⟨_, .bufferFirst chLbrace, fun _ => rfl⟩
  case tokenStart.printable | tokenStart.nonprintable => exact ⟨_, .bufferFirst c, fun _ => rfl⟩
  case tokenStart.rbrace => exact ⟨_, .closeEmpty, fun _ => rfl⟩
  case token.lbrace => exact ⟨_, .buffer chLbrace, fun _ => rfl⟩
  case token.bang => exact ⟨_, .buffer chBang, fun _ => rfl⟩
  case token.printable | token.nonprintable => exact ⟨_, .buffer c, fun _ => rfl⟩
  case token.rbrace => exact ⟨_, .close, fun _ => rfl⟩

/-! ### What a transition keeps (R30) -/

/-- The registers a transition goes on with are in their ranges. -/
def CellOut.Keeps (tokenMax : Nat) : CellOut → Prop
  | .go pd => pd.Inv tokenMax
  | .raise _ | .stop _ => True

theorem PD.rest_inv (cfg : Config) : (PD.rest cfg).Inv cfg.tokenMax :=
  ⟨Nat.zero_le _, Nat.zero_le _, Cells.wf_nil, Cells.wf_nil, by simp [PD.rest]⟩

section DecoderInvariant

variable {tokenMax : Nat} {pd : PD}

theorem PD.begin_inv (h : pd.Inv tokenMax) (tubeCount : Nat) : (pd.begin tubeCount).Inv tokenMax := by
  obtain ⟨-, -, htok, hout, hbound⟩ := h
  exact ⟨Nat.zero_le _, Nat.zero_le _, htok, hout, hbound⟩

theorem PD.clearToken_inv (h : pd.Inv tokenMax) : PD.Inv tokenMax { pd with tlen := 0 } := by
  obtain ⟨hn, -, htok, hout, hbound⟩ := h
  exact ⟨hn, Nat.zero_le _, htok, hout, hbound⟩

theorem PD.emit_keeps (h : pd.Inv tokenMax) (v : Bitmap) (next : PdState) : (pd.emit v next).Keeps tokenMax := by
  rcases PD.emit_cases pd v next with ⟨-, heq⟩ | ⟨hroom, heq⟩ <;> rw [heq]
  · trivial
  · obtain ⟨hn, htlen, htok, hout, hbound⟩ := h
    exact ⟨Nat.lt_of_le_of_ne hn hroom, htlen, htok, Cells.write_wf hout _ _, hbound⟩

theorem PD.buffer_keeps (h : pd.Inv tokenMax) (c : Byte) (next : PdState) :
    (pd.buffer tokenMax c next).Keeps tokenMax := by
  rcases PD.buffer_cases tokenMax pd c next with ⟨-, heq⟩ | ⟨hroom, heq⟩ <;> rw [heq]
  · trivial
  · obtain ⟨hn, htlen, htok, hout, hbound⟩ := h
    have hlt : pd.tlen < tokenMax := Nat.lt_of_le_of_ne htlen hroom
    refine ⟨hn, hlt, Cells.write_wf htok _ _, hout, fun x hx => ?_⟩
    rcases Cells.mem_write hx with hx | ⟨rfl, -⟩
    · exact hbound x hx
    · exact hlt

theorem PD.closeToken_keeps (h : pd.Inv tokenMax) : pd.closeToken.Keeps tokenMax := by
  rcases PD.closeToken_cases pd with ⟨-, heq⟩ | ⟨v, -, heq⟩ <;> rw [heq]
  · trivial
  · exact PD.emit_keeps h _ _

theorem CellStep.keeps {cfg : Config} {f : PD → CellOut} (hf : CellStep cfg f) (h : pd.Inv cfg.tokenMax) :
    (f pd).Keeps cfg.tokenMax := by
  cases hf with
  | raise k => trivial
  | goTo next => exact h
  | showChar c next =>
    rcases PD.showChar_cases cfg pd c next with ⟨-, heq⟩ | ⟨v, -, heq⟩ <;> simp only [heq]
    · trivial
    · exact PD.emit_keeps h _ _
  | showUnderlined c next =>
    rcases PD.showUnderlined_cases cfg pd c next with ⟨-, heq⟩ | ⟨v, -, heq⟩ <;> simp only [heq]
    · trivial
    · exact PD.emit_keeps h _ _
  | underlineLast =>
    rcases PD.underlineLast_cases pd with ⟨-, heq⟩ | ⟨-, heq⟩ <;> simp only [heq]
    · trivial
    · obtain ⟨hn, htlen, htok, hout, hbound⟩ := h
      exact ⟨hn, htlen, htok, Cells.write_wf hout _ _, hbound⟩
  | bufferFirst c => exact PD.buffer_keeps (PD.clearToken_inv h) _ _
  | buffer c => exact PD.buffer_keeps h _ _
  | closeEmpty => exact PD.closeToken_keeps (PD.clearToken_inv h)
  | close => exact PD.closeToken_keeps h

end DecoderInvariant

/-- Every transition keeps the registers in their ranges (R30). -/
theorem PD.transition_keeps {cfg : Config} {pd : PD} (h : pd.Inv cfg.tokenMax) (c : Byte) :
    (pd.transition cfg c).Keeps cfg.tokenMax := by
  obtain ⟨f, hf, heq⟩ := PD.transition_eq_step cfg pd.state c
  rw [heq pd rfl]
  exact hf.keeps (pd := pd.consume) h

/-! ### What a scan shows (R38) -/

/-- Two decoders in the same scan: equal but for `pd.pos`, which nothing reads, and for the cells not written in this scan. -/
structure PD.Agree (p q : PD) : Prop where
  state : p.state = q.state
  n : p.n = q.n
  tlen : p.tlen = q.tlen
  tubeCount : p.tubeCount = q.tubeCount
  out : ∀ i < p.n, Cells.read p.out i = Cells.read q.out i
  tok : ∀ i < p.tlen, Cells.read p.tok i = Cells.read q.tok i

/-- Two transitions end alike: they go on in decoders that agree, or end the scan with the same error or array. -/
inductive CellOut.Alike : CellOut → CellOut → Prop where
  | go {p q : PD} (h : p.Agree q) : Alike (.go p) (.go q)
  | raise (k : ErrKind) : Alike (.raise k) (.raise k)
  | stop {p q : PD} (h : p.result = q.result) : Alike (.stop p) (.stop q)

/-- A run of cells that read alike in two arrays. -/
theorem Cells.readRun_congr {w : Nat} {m m' : Cells w} {n : Nat} (h : ∀ i < n, Cells.read m i = Cells.read m' i) :
    Cells.readRun m 0 n = Cells.readRun m' 0 n := by
  apply List.ext_getElem
  · simp
  · intro i hi _
    simpa using h i (by simpa using hi)

/-- The same value appended to two arrays that read alike below `n`. -/
theorem Cells.read_write_congr {w : Nat} {m m' : Cells w} {n : Nat} (hm : Cells.Wf m) (hm' : Cells.Wf m') (v : BitVec w)
    (h : ∀ i < n, Cells.read m i = Cells.read m' i) :
    ∀ i < n + 1, Cells.read (Cells.write m n v) i = Cells.read (Cells.write m' n v) i := by
  intro i hi
  rw [Cells.read_write hm, Cells.read_write hm']
  split
  · rfl
  · exact h i (by omega)

section Scan

variable {tokenMax : Nat} {p q : PD}

theorem PD.Agree.begin (p q : PD) (tubeCount : Nat) : (p.begin tubeCount).Agree (q.begin tubeCount) :=
  ⟨rfl, rfl, rfl, rfl, fun _ h => absurd h (Nat.not_lt_zero _), fun _ h => absurd h (Nat.not_lt_zero _)⟩

theorem PD.Agree.clearToken (h : p.Agree q) : PD.Agree { p with tlen := 0 } { q with tlen := 0 } :=
  { h with tlen := rfl, tok := fun _ hi => absurd hi (Nat.not_lt_zero _) }

theorem PD.Agree.tokenText (h : p.Agree q) : p.tokenText = q.tokenText := by
  rw [PD.tokenText, PD.tokenText, ← h.tlen]
  exact Cells.readRun_congr h.tok

theorem PD.Agree.emit (h : p.Agree q) (hp : p.Inv tokenMax) (hq : q.Inv tokenMax) (v : Bitmap) (next : PdState) :
    (p.emit v next).Alike (q.emit v next) := by
  obtain ⟨-, -, -, hpout, -⟩ := hp
  obtain ⟨-, -, -, hqout, -⟩ := hq
  unfold PD.emit
  rw [← h.n, ← h.tubeCount]
  split
  · rename_i hfull
    refine .stop ?_
    rw [PD.result, PD.result, ← h.tubeCount, ← hfull]
    exact Cells.readRun_congr h.out
  · exact .go ⟨rfl, rfl, h.tlen, rfl, Cells.read_write_congr hpout hqout v h.out, h.tok⟩

theorem PD.Agree.buffer (h : p.Agree q) (hp : p.Inv tokenMax) (hq : q.Inv tokenMax) (c : Byte) (next : PdState) :
    (p.buffer tokenMax c next).Alike (q.buffer tokenMax c next) := by
  obtain ⟨-, -, hptok, -, -⟩ := hp
  obtain ⟨-, -, hqtok, -, -⟩ := hq
  unfold PD.buffer
  rw [← h.tlen]
  split
  · exact .raise _
  · exact .go ⟨rfl, h.n, rfl, h.tubeCount, h.out, Cells.read_write_congr hptok hqtok c h.tok⟩

theorem PD.Agree.closeToken (h : p.Agree q) (hp : p.Inv tokenMax) (hq : q.Inv tokenMax) :
    p.closeToken.Alike q.closeToken := by
  unfold PD.closeToken
  rw [← h.tokenText]
  split
  · exact h.emit hp hq _ _
  · exact .raise _

theorem PD.Agree.underlineLast (h : p.Agree q) (hp : p.Inv tokenMax) (hq : q.Inv tokenMax) :
    p.underlineLast.Alike q.underlineLast := by
  obtain ⟨-, -, -, hpout, -⟩ := hp
  obtain ⟨-, -, -, hqout, -⟩ := hq
  unfold PD.underlineLast
  rw [← h.n]
  split
  · exact .raise _
  · rename_i hn
    rw [← h.out (p.n - 1) (by omega)]
    refine .go ⟨rfl, rfl, h.tlen, h.tubeCount, fun i hi => ?_, h.tok⟩
    exact Cells.read_write_congr hpout hqout _ (fun j hj => h.out j (by omega)) i (by dsimp only at hi; omega)

end Scan

/-- In decoders that agree, a shared step ends alike. -/
theorem CellStep.alike {cfg : Config} {f : PD → CellOut} {p q : PD} (hf : CellStep cfg f) (h : p.Agree q)
    (hp : p.Inv cfg.tokenMax) (hq : q.Inv cfg.tokenMax) : (f p).Alike (f q) := by
  cases hf with
  | raise k => exact .raise k
  | goTo next => exact .go { h with state := rfl }
  | showChar c next =>
    unfold PD.showChar
    cases segDecode cfg c with
    | none => exact .raise _
    | some v => exact h.emit hp hq _ _
  | showUnderlined c next =>
    unfold PD.showUnderlined
    cases segDecodeUnderlined cfg c with
    | none => exact .raise _
    | some v => exact h.emit hp hq _ _
  | underlineLast => exact h.underlineLast hp hq
  | bufferFirst c => exact h.clearToken.buffer (PD.clearToken_inv hp) (PD.clearToken_inv hq) _ _
  | buffer c => exact h.buffer hp hq _ _
  | closeEmpty => exact h.clearToken.closeToken (PD.clearToken_inv hp) (PD.clearToken_inv hq)
  | close => exact h.closeToken hp hq

section Decode

variable {cfg : Config} {p q : PD}

theorem PD.Agree.transition (h : p.Agree q) (hp : p.Inv cfg.tokenMax) (hq : q.Inv cfg.tokenMax) (c : Byte) :
    (p.transition cfg c).Alike (q.transition cfg c) := by
  obtain ⟨f, hf, heq⟩ := PD.transition_eq_step cfg p.state c
  rw [heq p rfl, heq q h.state.symm]
  exact hf.alike (p := p.consume) (q := q.consume) { h with } hp hq

/-- At the end of input the tail is filled, so the whole array is written in this scan (R91). -/
theorem PD.Agree.finish (h : p.Agree q) (hp : p.Inv cfg.tokenMax) (hq : q.Inv cfg.tokenMax) :
    p.finish cfg = q.finish cfg := by
  obtain ⟨-, -, -, hpout, -⟩ := hp
  obtain ⟨-, -, -, hqout, -⟩ := hq
  have hfill : (p.fill cfg).result = (q.fill cfg).result := by
    rw [PD.result, PD.result, PD.fill_tubeCount, PD.fill_tubeCount, PD.fill_out, PD.fill_out, ← h.n, ← h.tubeCount]
    refine Cells.readRun_congr fun i hi => ?_
    rw [Cells.read_writeRun hpout, Cells.read_writeRun hqout]
    split
    · rfl
    · rename_i hout
      exact h.out i (by rw [List.length_replicate] at hout; omega)
  rw [PD.finish, PD.finish, ← h.state, hfill]

theorem PD.Agree.scan (argument : List Byte) (h : p.Agree q) (hp : p.Inv cfg.tokenMax) (hq : q.Inv cfg.tokenMax) :
    p.scan cfg argument = q.scan cfg argument := by
  induction argument generalizing p q with
  | nil => exact h.finish hp hq
  | cons c cs ih =>
    have halike := h.transition hp hq c
    have hkeepp := PD.transition_keeps hp c
    have hkeepq := PD.transition_keeps hq c
    rw [PD.scan, PD.scan]
    generalize p.transition cfg c = outp, q.transition cfg c = outq at halike hkeepp hkeepq
    cases halike with
    | go hagree => exact ih hagree hkeepp hkeepq
    | raise k => rfl
    | stop hresult => exact congrArg (fun out => Response.ok (.bitmaps out)) hresult

/-- `PD.DECODE` answers alike whatever the registers held before it (R30, R38). -/
theorem PD.decode_congr (hp : p.Inv cfg.tokenMax) (hq : q.Inv cfg.tokenMax) (argument : List Byte) (tubeCount : Nat) :
    p.decode cfg argument tubeCount = q.decode cfg argument tubeCount :=
  (PD.Agree.begin p q tubeCount).scan argument (PD.begin_inv hp tubeCount) (PD.begin_inv hq tubeCount)

/-- The dispatch step answers alike whatever the decoder's registers held (R128). -/
theorem dispatchPrint_congr (hp : p.Inv cfg.tokenMax) (hq : q.Inv cfg.tokenMax) (parsed : Response) (tubeCount : Nat) :
    (dispatchPrint cfg p parsed tubeCount).2 = (dispatchPrint cfg q parsed tubeCount).2 := by
  unfold dispatchPrint
  split
  · exact PD.decode_congr hp hq _ _
  · rfl
  · rfl

theorem lineStages_congr (hp : p.Inv cfg.tokenMax) (hq : q.Inv cfg.tokenMax) (extracted : Response) (tubeCount : Nat) :
    (lineStages cfg p extracted tubeCount).2 = (lineStages cfg q extracted tubeCount).2 := by
  unfold lineStages
  split
  · exact dispatchPrint_congr hp hq _ _
  · rfl

end Decode

/-- The stages of `LINE` leave the decoder's registers alone or at rest (R128, R155). -/
theorem lineStages_pd (cfg : Config) (pd : PD) (extracted : Response) (tubeCount : Nat) :
    (lineStages cfg pd extracted tubeCount).1 = pd ∨ (lineStages cfg pd extracted tubeCount).1 = PD.rest cfg := by
  unfold lineStages
  split
  · unfold dispatchPrint
    split
    · exact .inr rfl
    · exact .inl rfl
    · exact .inl rfl
  · exact .inl rfl

/-! ### The instructions, by what they write (R39) -/

theorem exec_cbPendLen (s : State) : exec .cbPendLen s = .next (s.succeed (.number s.unread.length)) := by
  rw [State.unread, CB.unread_length]
  rfl

theorem exec_cbHasCmd (s : State) : exec .cbHasCmd s = .next (s.succeed (.boolean (s.unread.any isTerm))) := by
  rw [State.unread, ← CB.hasCmd_eq_any]
  rfl

theorem exec_cbCmdLen (s : State) : exec .cbCmdLen s = .next (s.succeed (.cmdLen (s.unread.findIdx? isTerm))) := by
  rw [State.unread, ← CB.cmdLen_eq_findIdx?]
  rfl

/-- A row of the state table that runs is a transition of the decoder on the row's byte (R66, R88). -/
theorem exec_pdRow_transition {i : Instr} {st : PdState} {s t : State} (hcell : i.cellState = some st)
    (h : exec i s = .next t) : ∃ c, t = s.settle (s.pd.transition s.cfg c) := by
  cases i <;> cases hcell <;>
    (rw [exec] at h
     obtain ⟨hst, hclass, rfl⟩ := runCell_next h
     exact ⟨_, by rw [PD.transition, hst, hclass]⟩)

/-- The response of a token operation (R121). -/
def tokenResponse : Option Bitmap → Response
  | some v => .ok (.bitmap v)
  | none => .err .tokenError

theorem State.returnToken_eq (s : State) (v : Option Bitmap) : s.returnToken v = s.respond (some (tokenResponse v)) := by
  cases v <;> rfl

/-- What an instruction does to a state, and which instructions do that. -/
inductive InstrEffect : Instr → Prop where
  /-- A row of the state table makes one transition of the decoder, where it runs. -/
  | pdRow {i : Instr} {st : PdState} (hcell : i.cellState = some st)
      (hexec : ∀ s t, exec i s = .next t → ∃ c, t = s.settle (s.pd.transition s.cfg c)) : InstrEffect i
  /-- Each spelling of an append gives its chunk to the ring. -/
  | append {i : Instr} {bytes : List Byte} (hchunk : chunkOf i = some bytes)
      (hexec : ∀ s, exec i s = .next (appendChunk bytes s)) : InstrEffect i
  | extract (d : Nat) : InstrEffect (.cbExtract d)
  | decode (argument : List Byte) (tubeCount : Nat) : InstrEffect (.pdDecode argument tubeCount)
  | reset : InstrEffect .reset
  | line (d tubeCount : Nat) : InstrEffect (.line d tubeCount)
  /-- A query writes the response only, which it computes from the parameters and the unread bytes. -/
  | query {i : Instr} (answer : Config → List Byte → Option Response)
      (hexec : ∀ s, exec i s = .next (s.respond (answer s.cfg s.unread))) : InstrEffect i

theorem instrEffect : ∀ i : Instr, InstrEffect i
  | .seDecode c => .query (fun cfg _ => some (.ok (.code (segDecode cfg c)))) fun _ => rfl
  | .seIsPrint c => .query (fun cfg _ => some (.ok (.boolean (segDecode cfg c).isSome))) fun _ => rfl
  | .seWithUl b => .query (fun _ _ => some (.ok (.bitmap (withUnderline b)))) fun _ => rfl
  | .seWithColon b => .query (fun _ _ => some (.ok (.bitmap (withColon b)))) fun _ => rfl
  | .seDecodeUl c => .query (fun cfg _ => some (.ok (.code16 (segDecodeUnderlined cfg c)))) fun _ => rfl
  | .cbPendLen => .query (fun _ u => some (.ok (.number u.length))) exec_cbPendLen
  | .cbHasCmd => .query (fun _ u => some (.ok (.boolean (u.any isTerm)))) exec_cbHasCmd
  | .cbCmdLen => .query (fun _ u => some (.ok (.cmdLen (u.findIdx? isTerm)))) exec_cbCmdLen
  | .pdToken text =>
    .query (fun _ _ => some (tokenResponse (tokenValue text))) fun s => congrArg _ (s.returnToken_eq _)
  | .tokenHexLower digits | .tokenHexUpper digits =>
    .query (fun _ _ => some (tokenResponse (hexValue digits))) fun s => congrArg _ (s.returnToken_eq _)
  | .tokenBinLower digits | .tokenBinUpper digits =>
    .query (fun _ _ => some (tokenResponse (binValue digits))) fun s => congrArg _ (s.returnToken_eq _)
  | .cpParse cmd => .query (fun cfg _ => some (parseCommand cfg.maxArgs cmd)) fun _ => rfl
  | .reservedE | .reservedF => .query (fun _ _ => none) fun _ => rfl
  | .cbAppend _ | .cbAppendB _ | .wireCr | .wireLf | .wireColon => .append rfl fun _ => rfl
  | .cbExtract d => .extract d
  | .pdDecode argument tubeCount => .decode argument tubeCount
  | .reset => .reset
  | .line d tubeCount => .line d tubeCount
  | .pdStartLbrace | .pdStartBang | .pdStartRbrace | .pdStartPrintable _ | .pdStartNonprintable _
  | .pdIdleLbrace | .pdIdleBang | .pdIdleRbrace | .pdIdlePrintable _ | .pdIdleNonprintable _
  | .pdTokenStartLbrace | .pdTokenStartBang | .pdTokenStartRbrace | .pdTokenStartPrintable _
  | .pdTokenStartNonprintable _
  | .pdTokenLbrace | .pdTokenBang | .pdTokenRbrace | .pdTokenPrintable _ | .pdTokenNonprintable _
  | .pdUnderlineLbrace | .pdUnderlineBang | .pdUnderlineRbrace | .pdUnderlinePrintable _
  | .pdUnderlineNonprintable _ => .pdRow rfl fun _ _ => exec_pdRow_transition rfl

/-- Fetching takes the instruction off the inbox and counts it. -/
theorem fetchNext_run_advance {s u : State} {i : Instr} (h : fetchNext s = .run i u) : ∃ rest, u = s.advance rest := by
  obtain ⟨_, _, -, ⟨rest, -, rfl⟩ | ⟨_, rest, -, -, rfl⟩⟩ := fetchNext_run h <;> exact ⟨rest, rfl⟩

section Exec

variable {i : Instr} {s t : State}

/-- No instruction writes the parameters, the inbox or the count of operations (R37). -/
theorem exec_frame (h : exec i s = .next t) : t.cfg = s.cfg ∧ t.inbox = s.inbox ∧ t.opCount = s.opCount := by
  cases instrEffect i with
  | pdRow _ hexec =>
    obtain ⟨c, rfl⟩ := hexec s t h
    obtain ⟨hcfg, -, hinbox, hcount⟩ := s.settle_frame (s.pd.transition s.cfg c)
    exact ⟨hcfg, hinbox, hcount⟩
  | append _ hexec | query _ hexec =>
    rw [hexec] at h
    cases h
    exact ⟨rfl, rfl, rfl⟩
  | extract | decode | reset | line =>
    cases h
    exact ⟨rfl, rfl, rfl⟩

/-- What an instruction does to the ring: nothing, an append, an extraction, or a reset (R27, R39). -/
theorem exec_ring_cases (h : exec i s = .next t) :
    t.cb = s.cb ∨
    (∃ bytes, chunkOf i = some bytes ∧ t.cb = (s.cb.append s.cfg.cap bytes).1) ∨
    (Extracts i ∧ chunkOf i = none ∧ ∃ d, t.cb = (s.cb.extract s.cfg.cap d).1) ∨
    (i = .reset ∧ t.cb = s.cb.clear) := by
  cases instrEffect i with
  | pdRow _ hexec =>
    obtain ⟨c, rfl⟩ := hexec s t h
    obtain ⟨-, hcb, -⟩ := s.settle_frame (s.pd.transition s.cfg c)
    exact .inl hcb
  | append hchunk hexec =>
    rw [hexec] at h
    cases h
    exact .inr (.inl ⟨_, hchunk, rfl⟩)
  | extract d | line d _ =>
    cases h
    exact .inr (.inr (.inl ⟨trivial, rfl, d, rfl⟩))
  | decode =>
    cases h
    exact .inl rfl
  | reset =>
    cases h
    exact .inr (.inr (.inr ⟨rfl, rfl⟩))
  | query _ hexec =>
    rw [hexec] at h
    cases h
    exact .inl rfl

/-- What an instruction does to the decoder's registers: nothing, one transition of a row of the state table, or, by
PD.DECODE and LINE, a whole scan, which leaves them at rest (R31, R39). -/
theorem exec_pd_cases (h : exec i s = .next t) :
    t.pd = s.pd ∨
    (i.cellState ≠ none ∧ ∃ c, t.pd = (s.settle (s.pd.transition s.cfg c)).pd) ∨
    (((∃ a n, i = .pdDecode a n) ∨ ∃ d n, i = .line d n) ∧ t.pd = PD.rest s.cfg) := by
  cases instrEffect i with
  | pdRow hcell hexec =>
    obtain ⟨c, rfl⟩ := hexec s t h
    exact .inr (.inl ⟨by simp [hcell], c, rfl⟩)
  | append _ hexec | query _ hexec =>
    rw [hexec] at h
    cases h
    exact .inl rfl
  | extract | reset =>
    cases h
    exact .inl rfl
  | decode a n =>
    cases h
    exact .inr (.inr ⟨.inl ⟨a, n, rfl⟩, rfl⟩)
  | line d n =>
    cases h
    rcases lineStages_pd s.cfg s.pd (s.cb.extract s.cfg.cap d).2 n with hpd | hpd
    · exact .inl hpd
    · exact .inr (.inr ⟨.inr ⟨d, n, rfl⟩, hpd⟩)

/-! ### What every instruction keeps -/

/-- Every instruction keeps the ring invariant (R26). -/
theorem exec_keeps_ringInv (hinv : s.cb.Inv s.cfg.cap) (h : exec i s = .next t) : t.cb.Inv s.cfg.cap := by
  rcases exec_ring_cases h with hcb | ⟨bytes, -, hcb⟩ | ⟨-, -, d, hcb⟩ | ⟨-, hcb⟩ <;> rw [hcb]
  · exact hinv
  · exact CB.append_inv hinv bytes
  · exact CB.extract_inv hinv d
  · exact CB.clear_inv hinv

theorem State.settle_pd_inv {out : CellOut} (hout : out.Keeps s.cfg.tokenMax) :
    (s.settle out).pd.Inv s.cfg.tokenMax := by
  cases out with
  | go pd => exact hout
  | raise | stop => exact PD.rest_inv s.cfg

/-- Every instruction keeps the decoder's registers in their ranges (R30). -/
theorem exec_keeps_pdInv (hinv : s.pd.Inv s.cfg.tokenMax) (h : exec i s = .next t) : t.pd.Inv s.cfg.tokenMax := by
  rcases exec_pd_cases h with hpd | ⟨-, c, hpd⟩ | ⟨-, hpd⟩ <;> rw [hpd]
  · exact hinv
  · exact State.settle_pd_inv (PD.transition_keeps hinv c)
  · exact PD.rest_inv s.cfg

theorem exec_keeps_inv (hinv : s.Inv) (h : exec i s = .next t) : t.Inv := by
  obtain ⟨hadm, hring, hpd⟩ := hinv
  obtain ⟨hcfg, -⟩ := exec_frame h
  rw [State.Inv, hcfg]
  exact ⟨hadm, exec_keeps_ringInv hring h, exec_keeps_pdInv hpd h⟩

end Exec

end Sys2Proof.Machine

namespace Sys2Proof.Proofs

open Sys2Proof.Machine Sys2Proof.Claims

/-- Settles O53: the device's table is admissible by construction, the ring is empty, the decoder at rest. -/
theorem resetHasTheInvariant : Obligations.ResetHasTheInvariant :=
  ⟨Config.device_admissible, CB.empty_inv (Nat.succ_pos _), PD.rest_inv Config.device⟩

/-- Settles O52: fetching writes the inbox and the count only, and the instruction fetched keeps the invariant. -/
theorem stepKeepsTheInvariant : Obligations.StepKeepsTheInvariant := by
  intro s t hinv hstep
  rcases step_next hstep with ⟨-, rfl⟩ | ⟨i, u, hfetch, hexec⟩
  · exact ⟨hinv, rfl⟩
  · obtain ⟨rest, rfl⟩ := fetchNext_run_advance hfetch
    obtain ⟨hcfg, -⟩ := exec_frame hexec
    exact ⟨exec_keeps_inv (s := s.advance rest) hinv hexec, hcfg⟩

/-- Settles O13: each of the three answers is a function of the lowest index of a terminator. -/
theorem noCommandIsReportedEarly : Obligations.NoCommandIsReportedEarly := by
  refine fun s => ⟨?_, ?_, ?_⟩
  · rintro d t cmd hexec hresp
    cases hexec
    have hcmd : (s.cb.extract s.cfg.cap d).2 = .ok (.command cmd) := Option.some.inj hresp
    rw [CB.extract_response] at hcmd
    obtain ⟨n, hidx, rfl⟩ := absExtract_command hcmd
    exact split_of_findIdx?_isTerm hidx
  · rintro t n hexec hresp
    cases hexec
    have hlen : s.cb.cmdLen s.cfg.cap = some n := by simpa using hresp
    exact split_of_findIdx?_isTerm ((CB.cmdLen_eq_findIdx? _ _).symm.trans hlen)
  · rintro t hexec hresp hnone
    cases hexec
    have hany : s.cb.hasCmd s.cfg.cap = true := by simpa using hresp
    rw [CB.hasCmd_eq_any] at hany
    obtain ⟨b, hb, hterm⟩ := List.any_eq_true.mp hany
    exact absurd hterm (by simp [isTerm_eq_false_iff.mpr (hnone b hb)])

/-- Settles O14, from the refinement lemma of each operation. -/
theorem commandBufferRefinesAByteList : Obligations.CommandBufferRefinesAByteList := by
  refine fun s hinv => ⟨fun bytes => ?_, fun d => ?_, ?_, ?_, ?_, ?_⟩
  · exact ⟨_, rfl, CB.append_inv hinv bytes, appendChunk_refines hinv bytes⟩
  · refine ⟨_, rfl, CB.extract_inv hinv d, ?_⟩
    rw [State.unread_respond, State.unread_setCb, CB.extract_unread hinv, State.respond_response, CB.extract_response]
    rfl
  · exact exec_cbPendLen s
  · exact exec_cbHasCmd s
  · exact exec_cbCmdLen s
  · exact ⟨_, rfl, CB.clear_inv hinv, CB.unread_clear _ _⟩

/-- Settles O56, from the cases of what an instruction does to the ring and to the decoder's registers. -/
theorem onlyTheirOperationsWriteTheRing : Obligations.OnlyTheirOperationsWriteTheRing := by
  intro i s t h
  have hpd : i.cellState = none → (∀ a n, i ≠ .pdDecode a n) → (∀ d n, i ≠ .line d n) → t.pd = s.pd := by
    intro hcell hdecode hline
    rcases exec_pd_cases h with hpd | ⟨hrow, -⟩ | ⟨⟨a, n, hi⟩ | ⟨d, n, hi⟩, -⟩
    · exact hpd
    · exact absurd hcell hrow
    · exact absurd hi (hdecode a n)
    · exact absurd hi (hline d n)
  rcases exec_ring_cases h with hcb | ⟨chunk, hchunk, hcb⟩ | ⟨hext, hchunk, d, hcb⟩ | ⟨rfl, hcb⟩ <;> rw [hcb]
  · exact ⟨fun _ => rfl, fun _ _ => rfl, fun _ _ _ => rfl, fun _ _ _ => rfl, hpd, exec_frame h⟩
  · have happend : chunkOf i ≠ none := by simp [hchunk]
    refine ⟨(absurd · happend), (absurd · happend), (absurd · happend), ?_, hpd, exec_frame h⟩
    intro bytes hbytes hfit
    obtain rfl : chunk = bytes := Option.some.inj (hchunk.symm.trans hbytes)
    exact CB.append_head hfit
  · obtain ⟨htail, hmem⟩ := CB.extract_frame s.cfg.cap s.cb d
    refine ⟨fun _ => hmem, fun _ _ => htail, fun _ _ hnot => absurd hext hnot, ?_, hpd, exec_frame h⟩
    intro bytes hbytes
    simp [hchunk] at hbytes
  · exact ⟨fun _ => rfl, fun _ hne => absurd rfl hne, fun _ hne => absurd rfl hne, fun _ hbytes => (nomatch hbytes),
      hpd, exec_frame h⟩

/-- Settles O57: what an instruction answers and what it leaves unread is computed from the parameters, the operands and the
unread bytes; a scan reads no cell that it did not write. -/
theorem hiddenStateNeverShows : Obligations.HiddenStateNeverShows := by
  rintro i s t ⟨-, hsring, hspd⟩ ⟨-, htring, htpd⟩ hcfg hunread hcell
  rw [← hcfg] at htpd
  cases instrEffect i with
  | pdRow hrow => exact absurd hcell (by simp [hrow])
  | @append _ bytes _ hexec =>
    refine ⟨_, _, hexec s, hexec t, ?_⟩
    have hs := appendChunk_refines hsring bytes
    rw [hcfg, hunread, ← appendChunk_refines htring bytes] at hs
    exact (Prod.mk.inj hs).symm
  | extract d =>
    obtain ⟨hresp, hleft⟩ := extract_congr hsring htring hunread d
    exact ⟨_, _, rfl, rfl, congrArg some hresp, hleft⟩
  | decode argument tubeCount =>
    refine ⟨_, _, rfl, rfl, ?_, hunread⟩
    rw [State.endScan_response, State.endScan_response, ← hcfg, PD.decode_congr hspd htpd]
  | reset => exact ⟨_, _, rfl, rfl, rfl, (CB.unread_clear _ _).trans (CB.unread_clear _ _).symm⟩
  | line d tubeCount =>
    obtain ⟨hresp, hleft⟩ := extract_congr hsring htring hunread d
    refine ⟨_, _, rfl, rfl, congrArg some ?_, hleft⟩
    rw [← hresp, ← hcfg]
    exact lineStages_congr hspd htpd _ _
  | query answer hexec => exact ⟨_, _, hexec s, hexec t, by simp [hcfg, hunread], hunread⟩

end Sys2Proof.Proofs

/-! ## 20_memory.md: a run of the ring, and its split where the storage ends

A run splits anywhere into a first part and a rest; a part that does not cross the end of the storage is a run of
consecutive cells, and one that starts at the end is one that starts at index 0. The statement of 20_memory.md follows. -/

namespace Sys2Proof.Machine

/-! ### Runs of the ring (R21) -/

theorem memRead_add (cap : Nat) (mem : List Host.Cell) (addr m n : Nat) :
    memRead cap mem addr (m + n) = memRead cap mem addr m ++ memRead cap mem (addr + m) n := by
  simp [memRead, List.range_add, Nat.add_assoc]

theorem memWrite_append (cap : Nat) (mem : List Host.Cell) (addr : Nat) (bs cs : List Byte) :
    memWrite cap mem addr (bs ++ cs) = memWrite cap (memWrite cap mem addr bs) (addr + bs.length) cs := by
  induction bs generalizing mem addr with
  | nil => rfl
  | cons b bs ih =>
    rw [List.cons_append, memWrite, ih, memWrite, List.length_cons, Nat.add_assoc, Nat.add_comm 1]

/-- The index behind the last cell is the first cell again. -/
theorem memRead_cap_add (cap : Nat) (mem : List Host.Cell) (a n : Nat) :
    memRead cap mem (cap + a) n = memRead cap mem a n := by
  simp [memRead, Nat.add_assoc]

theorem memWrite_cap_add (cap : Nat) (mem : List Host.Cell) (a : Nat) (bs : List Byte) :
    memWrite cap mem (cap + a) bs = memWrite cap mem a bs := by
  induction bs generalizing mem a with
  | nil => rfl
  | cons b bs ih => rw [memWrite, memWrite, Nat.add_mod_left, Nat.add_assoc, ih]

/-! ### Contiguous copies (R45) -/

/-- A run inside the storage is read as consecutive cells. -/
theorem memRead_eq_readRun {cap addr n : Nat} (mem : List Host.Cell) (h : addr + n ≤ cap) :
    memRead cap mem addr n = Cells.readRun mem addr n := by
  refine List.map_congr_left fun k hk => ?_
  rw [Nat.mod_eq_of_lt (by simp at hk; omega)]

/-- A run inside the storage is written to consecutive cells. -/
theorem memWrite_eq_writeRun {cap addr : Nat} (mem : List Host.Cell) {bs : List Byte} (h : addr + bs.length ≤ cap) :
    memWrite cap mem addr bs = Cells.writeRun mem addr bs := by
  induction bs generalizing mem addr with
  | nil => rfl
  | cons b bs ih =>
    rw [List.length_cons] at h
    rw [memWrite, Cells.writeRun, Nat.mod_eq_of_lt (by omega), ih _ (by omega)]

/-- Two copies read what one run reads: the second starts at the end of the storage, which is index 0, or is empty. -/
theorem memReadSplit_eq_memRead {cap addr n : Nat} (mem : List Host.Cell) (haddr : addr < cap) (hn : n ≤ cap) :
    memReadSplit cap mem addr n = memRead cap mem addr n := by
  unfold memReadSplit
  rcases Nat.le_total n (cap - addr) with hfit | hcross
  · rw [Nat.min_eq_left hfit, Nat.sub_self, memRead_eq_readRun mem (by omega)]
    exact List.append_nil _
  · obtain ⟨m, rfl⟩ := Nat.exists_eq_add_of_le hcross
    have hend : addr + (cap - addr) = cap + 0 := by omega
    rw [Nat.min_eq_right hcross, Nat.add_sub_cancel_left, memRead_add, hend, memRead_cap_add,
      memRead_eq_readRun mem (by omega), memRead_eq_readRun mem (by omega)]

/-- Two copies write what one run writes: the second starts at the end of the storage, which is index 0, or is empty. -/
theorem memWriteSplit_eq_memWrite {cap addr : Nat} (mem : List Host.Cell) {bs : List Byte} (haddr : addr < cap)
    (hlen : bs.length ≤ cap) : memWriteSplit cap mem addr bs = memWrite cap mem addr bs := by
  unfold memWriteSplit
  rcases Nat.le_total bs.length (cap - addr) with hfit | hcross
  · rw [List.take_of_length_le hfit, List.drop_eq_nil_of_le hfit, memWrite_eq_writeRun mem (by omega)]
    rfl
  · have htake : (bs.take (cap - addr)).length = cap - addr := List.length_take_of_le hcross
    have hdrop : (bs.drop (cap - addr)).length ≤ cap := by rw [List.length_drop]; omega
    have hend : addr + (cap - addr) = cap + 0 := by omega
    conv_rhs => rw [← List.take_append_drop (cap - addr) bs]
    rw [memWrite_append, htake, hend, memWrite_cap_add, memWrite_eq_writeRun mem (by omega),
      memWrite_eq_writeRun _ (by omega)]

end Sys2Proof.Machine

namespace Sys2Proof.Proofs

open Sys2Proof.Machine

/-- Settles O15: the two copies are the run split where it crosses the end of the storage. -/
theorem runsAreAtMostTwoCopies : Obligations.RunsAreAtMostTwoCopies :=
  fun _ _ mem haddr => ⟨fun _ hn => memReadSplit_eq_memRead mem haddr hn,
    fun _ hlen => memWriteSplit_eq_memWrite mem haddr hlen⟩

end Sys2Proof.Proofs

/-! ## 30_encoding.md: records, wire bytes and the sentinel

What each operand reader does with what the encoder writes for the operand, then the decoder at each port; what the arrival of
a chunk does to the ring; how a decode result stands on the response port. The statements of 30_encoding.md follow. -/

namespace Sys2Proof

open Sys2Proof.Machine

/-! ### Operands of a request record are read to their end (R67, log entry 5) -/

@[simp] theorem takeByte_byteNibbles_append (b : Byte) (rest : List Nibble) :
    takeByte (byteNibbles b ++ rest) = some (b, rest) := by
  have hjoin : b.extractLsb' 4 4 ++ b.extractLsb' 0 4 = b := BitVec.extractLsb'_append_extractLsb'
  simp [byteNibbles, takeByte, hjoin]

@[simp] theorem takeBitmap_bitmapNibbles_append (b : Bitmap) (rest : List Nibble) :
    takeBitmap (bitmapNibbles b ++ rest) = some (b, rest) := by
  have hjoin : b.extractLsb' 8 8 ++ b.extractLsb' 0 8 = b := BitVec.extractLsb'_append_extractLsb'
  simp [bitmapNibbles, takeBitmap, hjoin]

/-- A last digit, bit 3 clear, is the number (log entry 5). -/
theorem takeNat_last {d : Nat} (hd : d < 8) (rest : List Nibble) :
    takeNat (BitVec.ofNat 4 d :: rest) = some (d, rest) := by
  have hval : (BitVec.ofNat 4 d).toNat = d := Nat.mod_eq_of_lt (by omega)
  rw [takeNat, hval, if_pos hd]

/-- A digit with bit 3 set is followed by the number of the higher digits (log entry 5). -/
theorem takeNat_continued {d m : Nat} {ns rest : List Nibble} (hd : d < 8) (hns : takeNat ns = some (m, rest)) :
    takeNat (BitVec.ofNat 4 (d + 8) :: ns) = some (d + 8 * m, rest) := by
  have hval : (BitVec.ofNat 4 (d + 8)).toNat = d + 8 := Nat.mod_eq_of_lt (by omega)
  rw [takeNat, hval, if_neg (by omega), hns]
  simp

/-- With as much fuel as the number is large, the digits written are all of its digits. -/
theorem takeNat_natDigits_append {fuel n : Nat} (h : n ≤ fuel) (rest : List Nibble) :
    takeNat (natDigits fuel n ++ rest) = some (n, rest) := by
  induction fuel generalizing n with
  | zero =>
    obtain rfl : n = 0 := by omega
    exact takeNat_last (by omega) rest
  | succ fuel ih =>
    rw [natDigits]
    split_ifs with hn
    · exact takeNat_last hn rest
    · rw [List.cons_append, takeNat_continued (Nat.mod_lt n (by omega)) (ih (by omega)), Nat.mod_add_div]

@[simp] theorem takeNat_natNibbles_append (n : Nat) (rest : List Nibble) :
    takeNat (natNibbles n ++ rest) = some (n, rest) :=
  takeNat_natDigits_append le_rfl rest

@[simp] theorem takeBytes_bytesNibbles_append (bs : List Byte) (rest : List Nibble) :
    takeBytes bs.length (bytesNibbles bs ++ rest) = some (bs, rest) := by
  induction bs with
  | nil => rfl
  | cons b bs ih =>
    rw [bytesNibbles, List.flatMap_cons, List.append_assoc, ← bytesNibbles, List.length_cons, takeBytes,
      takeByte_byteNibbles_append]
    simp [ih]

@[simp] theorem takeString_stringNibbles_append (bs : List Byte) (rest : List Nibble) :
    takeString (stringNibbles bs ++ rest) = some (bs, rest) := by
  simp [stringNibbles, takeString]

@[simp] theorem Decoded.ofOperand_some {α : Type} (mk : α → Instr) (a : α) (rest : List Nibble) :
    Decoded.ofOperand mk (some (a, rest)) = .instr (mk a) rest := rfl

/-! ### The words of an instruction, at each port (R66 to R72) -/

section Encoded

variable {cfg : Config} {st : PdState} {i : Instr}

/-- HOST: a request record is read to its end, whatever follows it. -/
theorem decodeHost_encode_append {ns : List Nibble} (hwf : wellFormed cfg i = true) (h : encode i = .host ns)
    (rest : List Nibble) : decodeHost (ns ++ rest) = .instr i.core rest := by
  cases i with
  | reservedE | reservedF => cases hwf
  | cbPendLen | cbHasCmd | cbCmdLen | reset => cases h; rfl
  | seDecode | seIsPrint | seWithUl | seWithColon | seDecodeUl | cbAppend | cbAppendB | cbExtract | pdDecode
  | pdToken | cpParse =>
    cases h
    simp [decodeHost, Instr.core]
  | _ => cases h

/-- PD: a byte selects the row of the decoder's state whose words it is (R66, R88). -/
theorem decodePd_encode {c : Byte} (hwf : wellFormed cfg i = true) (hst : ∀ st', i.cellState = some st' → st = st')
    (h : encode i = .pd c) : decodePd cfg st c = i.core := by
  cases i with
  | pdStartLbrace | pdStartBang | pdStartRbrace | pdIdleLbrace | pdIdleBang | pdIdleRbrace
  | pdTokenStartLbrace | pdTokenStartBang | pdTokenStartRbrace | pdTokenLbrace | pdTokenBang | pdTokenRbrace
  | pdUnderlineLbrace | pdUnderlineBang | pdUnderlineRbrace =>
    cases h
    obtain rfl := hst _ rfl
    rfl
  | pdStartPrintable | pdStartNonprintable | pdIdlePrintable | pdIdleNonprintable
  | pdTokenStartPrintable | pdTokenStartNonprintable | pdTokenPrintable | pdTokenNonprintable
  | pdUnderlinePrintable | pdUnderlineNonprintable =>
    cases h
    obtain rfl := hst _ rfl
    have hclass := eq_of_beq hwf
    simp [decodePd, hclass, Instr.core]
  | _ => cases h

/-- TOKEN: the two bytes that open a token text select its row (R63). -/
theorem decodeToken_encode {text : List Byte} (h : encode i = .token text) : decodeToken text = i.core := by
  cases i with
  | tokenHexLower | tokenHexUpper | tokenBinLower | tokenBinUpper => cases h; rfl
  | _ => cases h

/-- WIRE: the three bytes with a role select their rows (R57, R124). -/
theorem decodeWire_encode {b : Byte} (h : encode i = .wire b) : decodeWire b = i.core := by
  cases i with
  | wireCr | wireLf | wireColon => cases h; rfl
  | _ => cases h

/-- PSEUDO: LINE is presented as it is (R72, R128). -/
theorem core_of_encode_line {d n : Nat} (h : encode i = .line d n) : i.core = .line d n := by
  cases i with
  | line => cases h; rfl
  | _ => cases h

end Encoded

end Sys2Proof

namespace Sys2Proof.Machine

open Sys2Proof.Claims

/-! ### The arrival of a chunk (R79, R130) -/

section Append

variable {s : State} {bytes : List Byte}

theorem appendChunk_sameButRing (bytes : List Byte) (s : State) : SameButRing s (appendChunk bytes s) :=
  ⟨rfl, rfl, rfl, rfl⟩

theorem appendChunk_of_overrun (h : bytes.length + s.cb.length > s.cfg.cap) :
    appendChunk bytes s = (s.setCb s.cb.clear).raise .bufferOverrun := by
  rcases CB.append_cases s.cfg.cap s.cb bytes with ⟨-, heq⟩ | ⟨hfit, -⟩
  · rw [appendChunk, heq]
    rfl
  · omega

theorem appendChunk_of_fits (h : bytes.length + s.cb.length ≤ s.cfg.cap) :
    appendChunk bytes s = (s.setCb (s.cb.store s.cfg.cap bytes)).succeed .done := by
  rcases CB.append_cases s.cfg.cap s.cb bytes with ⟨hover, -⟩ | ⟨-, heq⟩
  · omega
  · rw [appendChunk, heq]
    rfl

/-- A chunk that fits becomes the newest unread bytes (R79). -/
theorem unread_appendChunk_of_fits (hinv : s.cb.Inv s.cfg.cap) (h : bytes.length + s.cb.length ≤ s.cfg.cap) :
    (appendChunk bytes s).unread = s.unread ++ bytes := by
  rw [appendChunk_of_fits h, State.unread_succeed, State.unread_setCb, CB.unread_store hinv h, State.unread]

/-- After a byte that fits, a complete line waits iff one did before or the byte is a terminator (R57, R81). -/
theorem exec_cbHasCmd_appendChunk {b : Byte} (hinv : s.cb.Inv s.cfg.cap) (hroom : s.cb.length < s.cfg.cap) :
    exec .cbHasCmd (appendChunk [b] s) =
      .next ((appendChunk [b] s).succeed (.boolean (s.unread.any isTerm || isTerm b))) := by
  have hfit : [b].length + s.cb.length ≤ s.cfg.cap := by rw [List.length_singleton]; omega
  rw [exec_cbHasCmd, unread_appendChunk_of_fits hinv hfit]
  simp

end Append

/-! ### Decode results on the response port (R59, R77) -/

/-- A byte decodes to the code its table entry gives, if it has one (R60, R73). -/
theorem segDecode_eq_some_iff {cfg : Config} {c : Byte} {v : Code} : segDecode cfg c = some v ↔ HasCode cfg c v := by
  simp [segDecode, Config.segLookup, HasCode, Option.join_eq_some_iff, and_assoc]

theorem segDecode_eq_none_iff {cfg : Config} {c : Byte} : segDecode cfg c = none ↔ ∀ v, ¬HasCode cfg c v := by
  simp [Option.eq_none_iff_forall_ne_some, segDecode_eq_some_iff]

/-- R13 (c): no entry of an admissible table looks like the sentinel on the port. -/
theorem codeBitmap_ne_sentinel {cfg : Config} {c : Byte} {v : Code} (hadm : cfg.Admissible) (h : HasCode cfg c v) :
    codeBitmap v ≠ noCodeSentinel := by
  obtain ⟨-, -, -, hcodes, -⟩ := hadm
  obtain ⟨-, -, hentry⟩ := h
  have hv : v ≠ 0x3FFF := fun hv => hcodes _ (List.mem_of_getElem? hentry) (congrArg some hv)
  intro heq
  exact hv (by simpa [codeBitmap, noCodeSentinel] using congrArg (BitVec.setWidth 14) heq)

/-- An underlined bitmap has bit 14, which the sentinel has not (R61, R77). -/
theorem withUnderline_ne_sentinel (b : Bitmap) : withUnderline b ≠ noCodeSentinel := by
  intro heq
  have hbit := congrArg (BitVec.getLsbD · 14) heq
  simp [withUnderline, noCodeSentinel] at hbit

/-- SE.DECODE shows its result on the port behind the status OK (R59, R67). -/
theorem exec_seDecode_port (c : Byte) (s : State) : ∃ t, exec (.seDecode c) s = .next t ∧
    t.port = some (0, segPort ((segDecode s.cfg c).map codeBitmap)) :=
  ⟨_, rfl, rfl⟩

/-- SE.DECODEUL shows the same result underlined (R67, R77). -/
theorem exec_seDecodeUl_port (c : Byte) (s : State) : ∃ t, exec (.seDecodeUl c) s = .next t ∧
    t.port = some (0, segPort ((segDecode s.cfg c).map fun v => withUnderline (codeBitmap v))) :=
  ⟨_, rfl, rfl⟩

end Sys2Proof.Machine

namespace Sys2Proof.Proofs

open Sys2Proof.Machine Sys2Proof.Claims

/-- Settles O49: at each port the decoder gives back the instruction whose words it reads; at the host port nothing is left. -/
theorem encodedInstructionsDecodeToThemselves : Obligations.EncodedInstructionsDecodeToThemselves := by
  intro cfg st i hwf hst
  cases hport : encode i with
  | host ns => simpa [decode] using decodeHost_encode_append hwf hport []
  | line d n => rw [decode, core_of_encode_line hport]
  | pd c => rw [decode, decodePd_encode hwf hst hport]
  | token text => rw [decode, decodeToken_encode hport]
  | wire b => rw [decode, decodeWire_encode hport]

/-- Settles O50: each operand reader leaves what follows its operand. -/
theorem aRequestRecordIsReadToItsEnd : Obligations.ARequestRecordIsReadToItsEnd :=
  fun _ _ _ _ rest hwf h => decodeHost_encode_append hwf h rest

/-- Settles O45: every spelling is `appendChunk` of one byte, which overruns, or is stored behind the unread bytes. -/
theorem bytesOnTheWireArriveOneByOne : Obligations.BytesOnTheWireArriveOneByOne := by
  refine fun s => ⟨fun b => rfl, rfl, rfl, rfl, fun b hfull => ?_, fun hinv hroom => ⟨fun b => ?_, ?_, ?_, ?_⟩⟩
  · refine ⟨_, rfl, ?_, appendChunk_sameButRing [b] s, ?_⟩
    all_goals rw [appendChunk_of_overrun (by rw [List.length_singleton]; omega)]
    · rfl
    · exact ⟨CB.unread_clear _ _, rfl⟩
  · have hfit : [b].length + s.cb.length ≤ s.cfg.cap := by rw [List.length_singleton]; omega
    refine ⟨_, rfl, ?_, appendChunk_sameButRing [b] s, unread_appendChunk_of_fits hinv hfit, ?_⟩
    all_goals rw [appendChunk_of_fits hfit]
    · rfl
    · obtain ⟨-, -, -, -, hwf, -⟩ := hinv
      refine ⟨rfl, fun a ha => memWrite_read_other hwf _ _ _ _ ?_⟩
      simpa using ha
  · exact ⟨_, rfl, (exec_cbHasCmd_appendChunk hinv hroom).trans (by simp [isTerm])⟩
  · exact ⟨_, rfl, (exec_cbHasCmd_appendChunk hinv hroom).trans (by simp [isTerm])⟩
  · refine ⟨_, rfl, ?_⟩
    rw [exec_cbHasCmd_appendChunk hinv hroom, exec_cbHasCmd]
    simp [responseOf, isTerm]

/-- Settles O59, by whether the byte has a code: R13 (c) and bit 14 keep its bitmaps apart from the sentinel. -/
theorem sentinelMarksNoCodeOnThePort : Obligations.SentinelMarksNoCodeOnThePort := by
  intro s c hadm
  obtain ⟨t, hexec, hport⟩ := exec_seDecode_port c s
  obtain ⟨t', hexec', hport'⟩ := exec_seDecodeUl_port c s
  cases hcode : segDecode s.cfg c with
  | none =>
    rw [hcode] at hport hport'
    have hnone := segDecode_eq_none_iff.mp hcode
    exact ⟨true, true, noCodeSentinel, noCodeSentinel, t, t', hexec, hport, hexec', hport', iff_of_true rfl hnone, rfl,
      iff_of_true rfl rfl, iff_of_true rfl rfl, fun v hv => absurd hv (hnone v)⟩
  | some v =>
    rw [hcode] at hport hport'
    have hv := segDecode_eq_some_iff.mp hcode
    refine ⟨false, false, codeBitmap v, withUnderline (codeBitmap v), t, t', hexec, hport, hexec', hport',
      iff_of_false Bool.false_ne_true fun hnone => hnone v hv, rfl,
      iff_of_false (codeBitmap_ne_sentinel hadm hv) Bool.false_ne_true,
      iff_of_false (withUnderline_ne_sentinel _) Bool.false_ne_true, fun v' hv' => ?_⟩
    obtain rfl : v = v' := Option.some.inj (hcode.symm.trans (segDecode_eq_some_iff.mpr hv'))
    exact ⟨rfl, rfl⟩

/-- Settles O51: each word evaluates. -/
theorem writtenOutWordsDecode : Obligations.WrittenOutWordsDecode :=
  ⟨rfl, rfl, rfl, rfl, rfl, fun _ => ⟨rfl, rfl⟩, rfl, rfl⟩

end Sys2Proof.Proofs

/-! ## 40_segment_encoder.md: the five operations of the SegmentEncoder

Each operation is its pure function of the table and the operand, put into the response; so the layer below says what the
functions give: the table's entry and the consequences of R13, then the bits of the two modifiers. -/

namespace Sys2Proof.Machine

open Sys2Proof.Claims

/-! ### What the operations answer (R73 to R77) -/

theorem exec_seDecode (c : Byte) (s : State) :
    exec (.seDecode c) s = .next (s.succeed (.code (segDecode s.cfg c))) := rfl

theorem exec_seIsPrint (c : Byte) (s : State) :
    exec (.seIsPrint c) s = .next (s.succeed (.boolean (segDecode s.cfg c).isSome)) := rfl

theorem exec_seWithUl (b : Bitmap) (s : State) :
    exec (.seWithUl b) s = .next (s.succeed (.bitmap (withUnderline b))) := rfl

theorem exec_seWithColon (b : Bitmap) (s : State) :
    exec (.seWithColon b) s = .next (s.succeed (.bitmap (withColon b))) := rfl

theorem exec_seDecodeUl (c : Byte) (s : State) :
    exec (.seDecodeUl c) s = .next (s.succeed (.code16 (segDecodeUnderlined s.cfg c))) := rfl

/-- The response shows which code was read: two results are two outcomes. -/
theorem exec_seDecode_eq_iff {c : Byte} {s : State} {r : Option Code} :
    exec (.seDecode c) s = .next (s.succeed (.code r)) ↔ segDecode s.cfg c = r := by
  rw [exec_seDecode]
  refine ⟨fun h => ?_, fun h => by rw [h]⟩
  have hresponse := congrArg responseOf h
  simpa [responseOf] using hresponse

/-! ### The table under R13 and R60 -/

theorem segDecode_eq_none_of_outside {cfg : Config} {c : Byte} (h : c.toNat < 0x20 ∨ 0x7F < c.toNat) :
    segDecode cfg c = none :=
  if_neg (by omega)

theorem segDecode_eq_segLookup {cfg : Config} {c : Byte} (h1 : 0x20 ≤ c.toNat) (h2 : c.toNat ≤ 0x7F) :
    segDecode cfg c = cfg.segLookup c.toNat :=
  if_pos ⟨h1, h2⟩

section Admissible

variable {cfg : Config}

/-- R13 (c). -/
theorem segDecode_ne_allSegments (hadm : cfg.Admissible) (c : Byte) : segDecode cfg c ≠ some 0x3FFF := fun h =>
  codeBitmap_ne_sentinel hadm (segDecode_eq_some_iff.mp h) rfl

/-- R13 (b). -/
theorem segDecode_bang (hadm : cfg.Admissible) : segDecode cfg 0x21 = none := by
  obtain ⟨-, -, -, -, -, hbang, -⟩ := hadm
  rw [segDecode_eq_segLookup (by decide) (by decide)]
  exact hbang

/-- R13 (e), D27. -/
theorem segDecode_space_isSome (hadm : cfg.Admissible) : (segDecode cfg 0x20).isSome = true := by
  obtain ⟨-, -, -, -, -, -, hspace⟩ := hadm
  rw [segDecode_eq_segLookup (by decide) (by decide)]
  exact hspace

/-- R13 (a). -/
theorem segDecode_lowerCase (hadm : cfg.Admissible) {c : Byte} (h1 : 0x61 ≤ c.toNat) (h2 : c.toNat ≤ 0x7A) :
    segDecode cfg c = segDecode cfg (c - 0x20) := by
  obtain ⟨-, -, -, -, hcase, -⟩ := hadm
  have hupper : (c - 0x20).toNat = 0x41 + (c.toNat - 0x61) := by bv_omega
  have hlower : c.toNat = 0x61 + (c.toNat - 0x61) := by omega
  calc segDecode cfg c = cfg.segLookup c.toNat := segDecode_eq_segLookup (by omega) (by omega)
    _ = cfg.segLookup (0x61 + (c.toNat - 0x61)) := congrArg cfg.segLookup hlower
    _ = cfg.segLookup (0x41 + (c.toNat - 0x61)) := hcase _ (by omega)
    _ = cfg.segLookup (c - 0x20).toNat := congrArg cfg.segLookup hupper.symm
    _ = segDecode cfg (c - 0x20) := (segDecode_eq_segLookup (by omega) (by omega)).symm

end Admissible

/-! ### The bits of a bitmap (R58, R61) -/

theorem getLsbD_codeBitmap (v : Code) {i : Nat} (hi : i < 16) : (codeBitmap v).getLsbD i = v.getLsbD i := by
  simp [codeBitmap, hi]

/-- A mask of one bit sets that bit and keeps the others. -/
theorem getLsbD_or_twoPow (b : Bitmap) {k : Nat} (hk : k < 16) (i : Nat) :
    (b ||| BitVec.twoPow 16 k).getLsbD i = (decide (i = k) || b.getLsbD i) := by
  rw [BitVec.getLsbD_or, BitVec.getLsbD_twoPow, Bool.or_comm]
  simp [hk, eq_comm]

theorem getLsbD_withUnderline (b : Bitmap) (i : Nat) :
    (withUnderline b).getLsbD i = (decide (i = 14) || b.getLsbD i) :=
  getLsbD_or_twoPow b (k := 14) (by omega) i

theorem getLsbD_withColon (b : Bitmap) (i : Nat) :
    (withColon b).getLsbD i = (decide (i = 15) || b.getLsbD i) :=
  getLsbD_or_twoPow b (k := 15) (by omega) i

theorem withUnderline_withUnderline (b : Bitmap) : withUnderline (withUnderline b) = withUnderline b := by
  rw [withUnderline, withUnderline, BitVec.or_assoc, BitVec.or_self]

theorem withColon_withColon (b : Bitmap) : withColon (withColon b) = withColon b := by
  rw [withColon, withColon, BitVec.or_assoc, BitVec.or_self]

theorem withColon_withUnderline (b : Bitmap) : withColon (withUnderline b) = withUnderline (withColon b) := by
  rw [withColon, withUnderline, withColon, withUnderline, BitVec.or_assoc, BitVec.or_assoc, BitVec.or_comm 0x4000]

end Sys2Proof.Machine

namespace Sys2Proof.Proofs

open Sys2Proof.Machine Sys2Proof.Claims

/-- Settles O1: SE.DECODE answers `segDecode`, and each table fact is one constraint of R13. -/
theorem segDecodeReadsTheTable : Obligations.SegDecodeReadsTheTable := by
  refine fun s => ⟨fun c => exec_seDecode c s, fun hadm => ⟨fun c h => ?_, ?_, ?_, fun c h1 h2 => ?_⟩⟩
  · exact segDecode_ne_allSegments hadm c (exec_seDecode_eq_iff.mp h)
  · exact exec_seDecode_eq_iff.mpr (segDecode_bang hadm)
  · obtain ⟨v, hv⟩ := Option.isSome_iff_exists.mp (segDecode_space_isSome hadm)
    exact ⟨v, exec_seDecode_eq_iff.mpr hv⟩
  · rw [exec_seDecode, exec_seDecode, segDecode_lowerCase hadm h1 h2]

/-- Settles O2: the Boolean is whether `segDecode` gives a code. -/
theorem printableMeansHavingACode : Obligations.PrintableMeansHavingACode := by
  refine fun s c => ⟨(segDecode s.cfg c).isSome, exec_seIsPrint c s, fun rest => ?_, ?_, fun hout => ?_,
    fun hadm => ⟨?_, ?_⟩⟩
  · exact decodeHost_encode_append (cfg := s.cfg) (i := .seIsPrint c) rfl rfl rest
  · rw [Ne, exec_seDecode_eq_iff, ← Ne, Option.isSome_iff_ne_none]
  · rw [segDecode_eq_none_of_outside hout, Option.isSome_none]
  · rintro rfl
    rw [segDecode_bang hadm, Option.isSome_none]
  · rintro rfl
    exact segDecode_space_isSome hadm

/-- Settles O4, by whether the byte has a code: bits 14 and 15 of a code's bitmap are clear before bit 14 is set. -/
theorem decodeUnderlinedKeepsNoCode : Obligations.DecodeUnderlinedKeepsNoCode := by
  refine fun s c => ⟨_, _, exec_seDecode c s, exec_seDecodeUl c s, Option.map_eq_none_iff, fun v w hv hw => ?_⟩
  obtain rfl : withUnderline (codeBitmap v) = w := by simpa [segDecodeUnderlined, hv] using hw
  refine ⟨?_, ?_, fun i hi => ?_⟩
  all_goals rw [getLsbD_withUnderline, getLsbD_codeBitmap v (by omega)]
  · rfl
  · exact BitVec.getLsbD_of_ge v 15 (by omega)
  · rw [decide_eq_false (by omega), Bool.false_or]

/-- Settles O3: each modifier ors one bit into the value. -/
theorem modifiersSetTheirBit : Obligations.ModifiersSetTheirBit := by
  refine fun s b => ⟨withUnderline b, withColon b, exec_seWithUl b s, exec_seWithColon b s,
    fun i _ => ⟨getLsbD_withUnderline b i, getLsbD_withColon b i⟩, ?_, ?_, ?_⟩
  · rw [exec_seWithUl, exec_seWithUl, withUnderline_withUnderline]
  · rw [exec_seWithColon, exec_seWithColon, withColon_withColon]
  · rw [exec_seWithColon, exec_seWithUl, withColon_withUnderline]

end Sys2Proof.Proofs

/-! ## 41_command_buffer.md: the five operations of the CommandBuffer, and chunking

A line is found by splitting the unread bytes at the first terminator, so the layer below says first what each operation
answers for bytes without a terminator and for `cmd ++ b :: rest` with `b` the first one. Chunking invariance (R86 P1) then
compares both runs of the host's loop with one function of the bytes that have arrived. -/

namespace Sys2Proof.Machine

open Sys2Proof.Claims

/-! ### The first terminator of a list of bytes -/

section FirstTerminator

variable {u cmd rest : List Byte} {b : Byte} {d : Nat}

theorem findIdx?_isTerm_of_noTerminator (h : NoTerminator u) : u.findIdx? isTerm = none :=
  List.findIdx?_eq_none_iff.mpr fun b hb => isTerm_eq_false_iff.mpr (h b hb)

theorem findIdx?_isTerm_of_split (hcmd : NoTerminator cmd) (hb : Terminator b) :
    (cmd ++ b :: rest).findIdx? isTerm = some cmd.length := by
  rw [List.findIdx?_append, findIdx?_isTerm_of_noTerminator hcmd, List.findIdx?_cons, isTerm_iff.mpr hb]
  simp

theorem noTerminator_or_split (u : List Byte) :
    NoTerminator u ∨ ∃ cmd b rest, u = cmd ++ b :: rest ∧ NoTerminator cmd ∧ Terminator b := by
  cases h : u.findIdx? isTerm with
  | none => exact .inl fun b hb => isTerm_eq_false_iff.mp (List.findIdx?_eq_none_iff.mp h b hb)
  | some n =>
    obtain ⟨b, rest, hu, hb, hcmd⟩ := split_of_findIdx?_isTerm h
    exact .inr ⟨_, b, rest, hu, hcmd, hb⟩

theorem trimOne_of_terminator (hb : Terminator b) : trimOne (b :: rest) = rest := by
  rw [trimOne, if_pos (isTerm_iff.mpr hb)]

theorem trimOne_of_noTerminator_take (h : NoTerminator (u.take 1)) : trimOne u = u := by
  cases u with
  | nil => rfl
  | cons b bs => rw [trimOne, isTerm_eq_false_iff.mpr (h b List.mem_cons_self), if_neg Bool.false_ne_true]

theorem trimOne_length_le (u : List Byte) : (trimOne u).length ≤ u.length := by
  cases u with
  | nil => exact le_rfl
  | cons b bs =>
    rw [trimOne]
    split_ifs <;> simp

/-- `Trim()` behind a terminator still to be consumed takes it and at most one more (R84). -/
theorem trim2_of_terminator (hb : Terminator b) : trim2 (b :: rest) = trimOne rest := by
  rw [trim2, trimOne_of_terminator hb]

/-! ### The abstract CB.EXTRACT, case by case (R83) -/

theorem absExtract_of_noTerminator (h : NoTerminator u) (d : Nat) : absExtract u d = (u, .ok .notReady) := by
  rw [absExtract, findIdx?_isTerm_of_noTerminator h]

theorem absExtract_of_emptyLine (hb : Terminator b) (d : Nat) :
    absExtract (b :: rest) d = (trimOne rest, .err .noopCommand) := by
  have hidx : (b :: rest).findIdx? isTerm = some 0 := findIdx?_isTerm_of_split (cmd := []) (by simp [NoTerminator]) hb
  rw [absExtract, hidx, trim2_of_terminator hb]

theorem absExtract_of_command (hne : cmd ≠ []) (hcmd : NoTerminator cmd) (hb : Terminator b) (hd : cmd.length ≤ d) :
    absExtract (cmd ++ b :: rest) d = (trimOne rest, .ok (.command cmd)) := by
  obtain ⟨n, hn⟩ := Nat.exists_eq_add_one_of_ne_zero (mt List.length_eq_zero_iff.mp hne)
  have hidx : (cmd ++ b :: rest).findIdx? isTerm = some (n + 1) := by rw [findIdx?_isTerm_of_split hcmd hb, hn]
  rw [absExtract, hidx]
  simp only [← hn, Nat.not_lt.mpr hd, if_false, List.drop_left, List.take_left, trim2_of_terminator hb]

end FirstTerminator

/-! ### CB.EXTRACT on the registers (R83) -/

section Extract

variable {cap d : Nat} {cb : CB}

theorem CB.extract_of_noTerminator (h : NoTerminator (cb.unread cap)) : cb.extract cap d = (cb, .ok .notReady) := by
  have hlen : cb.cmdLen cap = none := by rw [CB.cmdLen_eq_findIdx?, findIdx?_isTerm_of_noTerminator h]
  rw [CB.extract, hlen]

theorem CB.extract_of_tooSmall {cmd rest : List Byte} {b : Byte} (h : cb.unread cap = cmd ++ b :: rest) (hne : cmd ≠ [])
    (hcmd : NoTerminator cmd) (hb : Terminator b) (hd : cmd.length > d) :
    cb.extract cap d = (cb, .err .bufOverrun) := by
  have hlen : cb.cmdLen cap = some cmd.length := by rw [CB.cmdLen_eq_findIdx?, h, findIdx?_isTerm_of_split hcmd hb]
  obtain ⟨n, hn⟩ := Nat.exists_eq_add_one_of_ne_zero (mt List.length_eq_zero_iff.mp hne)
  rw [hn] at hlen hd
  rw [CB.extract, hlen]
  exact if_pos hd

/-- With `tail` fixed, the ring invariant gives `head` from the number of bytes left (R26). -/
theorem CB.head_eq_of_tail_eq {cb' : CB} (hinv : cb.Inv cap) (hinv' : cb'.Inv cap) (htail : cb'.tail = cb.tail)
    (hle : cb'.length ≤ cb.length) : cb'.head = (cb.head + (cb.length - cb'.length)) % cap := by
  obtain ⟨-, -, -, heq, -⟩ := hinv
  obtain ⟨-, hhead', -, heq', -⟩ := hinv'
  have hmod : cb'.head + cb'.length ≡ cb.head + (cb.length - cb'.length) + cb'.length [MOD cap] := by
    rw [Nat.add_assoc, Nat.sub_add_cancel hle, Nat.ModEq, ← heq', ← heq, htail]
  rw [← Nat.mod_eq_of_lt hhead']
  exact Nat.ModEq.add_right_cancel' _ hmod

end Extract

/-! ### CB.EXTRACT as a transition of the state -/

/-- The state a CB.EXTRACT leaves, as `appendChunk` is the one a CB.APPEND leaves. -/
def extractLine (d : Nat) (s : State) : State :=
  (s.setCb (s.cb.extract s.cfg.cap d).1).respond (some (s.cb.extract s.cfg.cap d).2)

theorem exec_cbAppend (bytes : List Byte) (s : State) : exec (.cbAppend bytes) s = .next (appendChunk bytes s) := rfl

theorem exec_cbExtract (d : Nat) (s : State) : exec (.cbExtract d) s = .next (extractLine d s) := rfl

@[simp] theorem appendChunk_cfg (bytes : List Byte) (s : State) : (appendChunk bytes s).cfg = s.cfg := rfl

theorem extractLine_sameButRing (d : Nat) (s : State) : SameButRing s (extractLine d s) := ⟨rfl, rfl, rfl, rfl⟩

theorem State.unread_length (s : State) : s.unread.length = s.cb.length := CB.unread_length _ _

section ExtractLine

variable {s : State} {d : Nat} {cmd rest : List Byte} {b : Byte}

theorem extractLine_frame (d : Nat) (s : State) :
    (extractLine d s).cb.tail = s.cb.tail ∧ (extractLine d s).cb.mem = s.cb.mem :=
  CB.extract_frame s.cfg.cap s.cb d

theorem extractLine_inv (hinv : s.cb.Inv s.cfg.cap) (d : Nat) : (extractLine d s).cb.Inv s.cfg.cap :=
  CB.extract_inv hinv d

/-- CB.EXTRACT refines its abstract form (R28, R83). -/
theorem extractLine_refines (hinv : s.cb.Inv s.cfg.cap) (d : Nat) :
    (extractLine d s).unread = (absExtract s.unread d).1 ∧
    (extractLine d s).response = some (absExtract s.unread d).2 :=
  ⟨CB.extract_unread hinv d, congrArg some (CB.extract_response s.cfg.cap s.cb d)⟩

theorem extractLine_of_noTerminator (h : NoTerminator s.unread) : extractLine d s = s.succeed .notReady := by
  rw [extractLine, CB.extract_of_noTerminator h]
  rfl

theorem extractLine_of_tooSmall (h : s.unread = cmd ++ b :: rest) (hne : cmd ≠ []) (hcmd : NoTerminator cmd)
    (hb : Terminator b) (hd : cmd.length > d) : extractLine d s = s.raise .bufOverrun := by
  rw [extractLine, CB.extract_of_tooSmall h hne hcmd hb hd]
  rfl

theorem extractLine_of_emptyLine (hinv : s.cb.Inv s.cfg.cap) (h : s.unread = b :: rest) (hb : Terminator b) (d : Nat) :
    (extractLine d s).unread = trimOne rest ∧ (extractLine d s).response = some (.err .noopCommand) := by
  have href := extractLine_refines hinv d
  rwa [h, absExtract_of_emptyLine hb] at href

theorem extractLine_of_command (hinv : s.cb.Inv s.cfg.cap) (h : s.unread = cmd ++ b :: rest) (hne : cmd ≠ [])
    (hcmd : NoTerminator cmd) (hb : Terminator b) (hd : cmd.length ≤ d) :
    (extractLine d s).unread = trimOne rest ∧ (extractLine d s).response = some (.ok (.command cmd)) := by
  have href := extractLine_refines hinv d
  rwa [h, absExtract_of_command hne hcmd hb hd] at href

end ExtractLine

/-! ### What the port shows of a CB.CMDLEN (R82, U2) -/

theorem State.port_cmdLen_none (s : State) :
    (s.succeed (.cmdLen none)).port = some (0, [.bit false, .number (Config.freeOffset s.opCount)]) := rfl

theorem State.port_cmdLen_some (s : State) (n : Nat) :
    (s.succeed (.cmdLen (some n))).port = some (0, [.bit true, .number n]) := rfl

theorem exec_cbCmdLen_of_noTerminator {s : State} (h : NoTerminator s.unread) :
    exec .cbCmdLen s = .next (s.succeed (.cmdLen none)) := by
  rw [exec_cbCmdLen, findIdx?_isTerm_of_noTerminator h]

theorem exec_cbCmdLen_of_split {s : State} {cmd rest : List Byte} {b : Byte} (h : s.unread = cmd ++ b :: rest)
    (hcmd : NoTerminator cmd) (hb : Terminator b) :
    exec .cbCmdLen s = .next (s.succeed (.cmdLen (some cmd.length))) := by
  rw [exec_cbCmdLen, h, findIdx?_isTerm_of_split hcmd hb]

/-! ### The lines that a list of bytes closes (R86 P1)

A terminator closes the line before it. An empty line is no command, so neither the number of terminators behind a line nor
a chunk that ends between two of them matters to the commands. -/

/-- The commands that the bytes `u` complete when they arrive behind the open line `line`. -/
def closedLines (line : List Byte) : List Byte → List (List Byte)
  | [] => []
  | b :: bs =>
    if isTerm b then (if line = [] then closedLines [] bs else line :: closedLines [] bs)
    else closedLines (line ++ [b]) bs

/-- The line left open when the bytes `u` have arrived behind the open line `line`. -/
def openLine (line : List Byte) : List Byte → List Byte
  | [] => line
  | b :: bs => openLine (if isTerm b then [] else line ++ [b]) bs

section Lines

variable {cmd rest : List Byte} {b : Byte}

theorem closedLines_append (line u v : List Byte) :
    closedLines line (u ++ v) = closedLines line u ++ closedLines (openLine line u) v := by
  induction u generalizing line with
  | nil => rfl
  | cons b bs ih =>
    rw [List.cons_append, closedLines, closedLines, openLine]
    split_ifs <;> simp [ih]

theorem openLine_append (line u v : List Byte) : openLine line (u ++ v) = openLine (openLine line u) v := by
  induction u generalizing line with
  | nil => rfl
  | cons b bs ih => exact ih _

/-- Bytes without a terminator close no line and lengthen the open one. -/
theorem lines_of_noTerminator (hcmd : NoTerminator cmd) (line : List Byte) :
    closedLines line cmd = [] ∧ openLine line cmd = line ++ cmd := by
  induction cmd generalizing line with
  | nil => exact ⟨rfl, (List.append_nil line).symm⟩
  | cons c cs ih =>
    have hc : isTerm c = false := isTerm_eq_false_iff.mpr (hcmd c List.mem_cons_self)
    obtain ⟨hclosed, hopen⟩ := ih (fun x hx => hcmd x (List.mem_cons_of_mem c hx)) (line ++ [c])
    simp [closedLines, openLine, hc, hclosed, hopen]

theorem openLine_noTerminator {line : List Byte} (hline : NoTerminator line) (u : List Byte) :
    NoTerminator (openLine line u) := by
  induction u generalizing line with
  | nil => exact hline
  | cons b bs ih =>
    refine ih ?_
    split
    · simp [NoTerminator]
    · next hb =>
      have hb : b ≠ 0x0D ∧ b ≠ 0x0A := isTerm_eq_false_iff.mp (by simpa using hb)
      exact List.forall_mem_append.mpr ⟨hline, List.forall_mem_singleton.mpr hb⟩

theorem openLine_length_le (line u : List Byte) : (openLine line u).length ≤ line.length + u.length := by
  induction u generalizing line with
  | nil => exact le_rfl
  | cons b bs ih =>
    refine (ih _).trans ?_
    split <;> simp <;> omega

/-- Bytes behind an open line are bytes behind nothing that begin with it. -/
theorem closedLines_nil_append (hcmd : NoTerminator cmd) (v : List Byte) :
    closedLines [] (cmd ++ v) = closedLines cmd v := by
  obtain ⟨hclosed, hopen⟩ := lines_of_noTerminator hcmd []
  rw [closedLines_append, hclosed, hopen, List.nil_append, List.nil_append]

theorem openLine_nil_append (hcmd : NoTerminator cmd) (v : List Byte) : openLine [] (cmd ++ v) = openLine cmd v := by
  obtain ⟨-, hopen⟩ := lines_of_noTerminator hcmd []
  rw [openLine_append, hopen, List.nil_append]

/-- A terminator at the start closes no command. -/
theorem lines_trimOne (u : List Byte) :
    closedLines [] (trimOne u) = closedLines [] u ∧ openLine [] (trimOne u) = openLine [] u := by
  cases u with
  | nil => exact ⟨rfl, rfl⟩
  | cons b bs => cases hb : isTerm b <;> simp [trimOne, closedLines, openLine, hb]

theorem lines_of_emptyLine (hb : Terminator b) :
    closedLines [] (b :: rest) = closedLines [] (trimOne rest) ∧ openLine [] (b :: rest) = openLine [] (trimOne rest) := by
  obtain ⟨hclosed, hopen⟩ := lines_trimOne rest
  simp [closedLines, openLine, isTerm_iff.mpr hb, hclosed, hopen]

theorem lines_of_command (hne : cmd ≠ []) (hcmd : NoTerminator cmd) (hb : Terminator b) :
    closedLines [] (cmd ++ b :: rest) = cmd :: closedLines [] (trimOne rest) ∧
    openLine [] (cmd ++ b :: rest) = openLine [] (trimOne rest) := by
  obtain ⟨hclosed, hopen⟩ := lines_trimOne rest
  rw [closedLines_nil_append hcmd, openLine_nil_append hcmd, hclosed, hopen]
  simp [closedLines, openLine, isTerm_iff.mpr hb, hne]

end Lines

/-! ### The host's loop delivers the closed lines (R127) -/

section Drain

variable {s : State} {d : Nat} {cmd : List Byte}

theorem drain_of_noTerminator (h : NoTerminator s.unread) (fuel : Nat) :
    drain d (fuel + 1) s = ([], s.succeed .notReady) := by
  rw [drain, exec_cbExtract, extractLine_of_noTerminator h]
  rfl

theorem drain_of_emptyLine (h : (extractLine d s).response = some (.err .noopCommand)) (fuel : Nat) :
    drain d (fuel + 1) s = drain d fuel (extractLine d s) := by
  simp [drain, exec_cbExtract, h]

theorem drain_of_command (h : (extractLine d s).response = some (.ok (.command cmd))) (fuel : Nat) :
    drain d (fuel + 1) s = (cmd :: (drain d fuel (extractLine d s)).1, (drain d fuel (extractLine d s)).2) := by
  simp [drain, exec_cbExtract, h]

/-- What a drained ring has delivered and keeps, compared with the state before. -/
structure Drained (s : State) (result : List (List Byte) × State) : Prop where
  commands : result.1 = closedLines [] s.unread
  unread : result.2.unread = openLine [] s.unread
  cfg : result.2.cfg = s.cfg
  inv : result.2.cb.Inv s.cfg.cap

/-- A loop with one turn more than there are unread bytes drains the ring: each turn but the last takes a terminator. -/
theorem drain_drained {fuel : Nat} (hinv : s.cb.Inv s.cfg.cap) (hd : s.cfg.cap ≤ d) (hfuel : s.cb.length < fuel) :
    Drained s (drain d fuel s) := by
  induction fuel generalizing s with
  | zero => omega
  | succ fuel ih =>
    rcases noTerminator_or_split s.unread with hno | ⟨cmd, b, rest, hsplit, hcmd, hb⟩
    · obtain ⟨hclosed, hopen⟩ := lines_of_noTerminator hno []
      rw [drain_of_noTerminator hno]
      exact ⟨hclosed.symm, hopen.symm, rfl, hinv⟩
    · have hlen : cmd.length + (rest.length + 1) = s.cb.length := by
        rw [← State.unread_length, hsplit, List.length_append, List.length_cons]
      have hnext (hleft : (extractLine d s).unread = trimOne rest) :
          Drained (extractLine d s) (drain d fuel (extractLine d s)) := by
        refine ih (extractLine_inv hinv d) hd ?_
        rw [← State.unread_length, hleft]
        have := trimOne_length_le rest
        omega
      obtain rfl | hne := eq_or_ne cmd []
      · obtain ⟨hleft, hresp⟩ := extractLine_of_emptyLine hinv hsplit hb d
        obtain ⟨hclosed, hopen⟩ := lines_of_emptyLine (rest := rest) hb
        obtain ⟨hcommands, hunread, hcfg, hinv'⟩ := hnext hleft
        rw [drain_of_emptyLine hresp]
        exact ⟨by rw [hcommands, hleft, hsplit, List.nil_append, hclosed],
          by rw [hunread, hleft, hsplit, List.nil_append, hopen], hcfg, hinv'⟩
      · have hfit : cmd.length ≤ d := by
          obtain ⟨hcap, -⟩ := hinv
          omega
        obtain ⟨hleft, hresp⟩ := extractLine_of_command hinv hsplit hne hcmd hb hfit
        obtain ⟨hclosed, hopen⟩ := lines_of_command (rest := rest) hne hcmd hb
        obtain ⟨hcommands, hunread, hcfg, hinv'⟩ := hnext hleft
        rw [drain_of_command hresp]
        exact ⟨by rw [hcommands, hleft, hsplit, hclosed], by rw [hunread, hleft, hsplit, hopen], hcfg, hinv'⟩

theorem deliver_cons (d : Nat) (chunk : List Byte) (chunks : List (List Byte)) (s : State) :
    deliver d (chunk :: chunks) s =
      (drain d ((appendChunk chunk s).cb.length + 1) (appendChunk chunk s)).1 ++
      deliver d chunks (drain d ((appendChunk chunk s).cb.length + 1) (appendChunk chunk s)).2 := rfl

/-- The commands delivered are the lines that the arriving bytes close, in whatever chunks they arrive. -/
theorem deliver_eq_closedLines {chunks : List (List Byte)} (hinv : s.cb.Inv s.cfg.cap) (hd : s.cfg.cap ≤ d)
    (hno : NoTerminator s.unread) (hfit : chunks.flatten.length + s.cb.length ≤ s.cfg.cap) :
    deliver d chunks s = closedLines s.unread chunks.flatten := by
  induction chunks generalizing s with
  | nil => rfl
  | cons chunk chunks ih =>
    rw [List.flatten_cons, List.length_append] at hfit
    have hunread : (appendChunk chunk s).unread = s.unread ++ chunk := unread_appendChunk_of_fits hinv (by omega)
    obtain ⟨hcommands, hopen, hcfg, hinv'⟩ :=
      drain_drained (s := appendChunk chunk s) (CB.append_inv hinv chunk) hd (Nat.lt_succ_self _)
    rw [hunread, closedLines_nil_append hno] at hcommands
    rw [hunread, openLine_nil_append hno] at hopen
    rw [appendChunk_cfg] at hcfg hinv'
    rw [deliver_cons, hcommands, ih (hcfg ▸ hinv') (hcfg ▸ hd) (hopen ▸ openLine_noTerminator hno chunk) ?_, hopen,
      List.flatten_cons, closedLines_append]
    have hlen := openLine_length_le s.unread chunk
    rw [State.unread_length] at hlen
    rw [hcfg, ← State.unread_length, hopen]
    omega

end Drain

end Sys2Proof.Machine

namespace Sys2Proof.Proofs

open Sys2Proof.Machine Sys2Proof.Claims

/-- Settles O5: the chunk that fits is stored, and a store writes `tail`, `length` and the cells from `tail` on. -/
theorem appendStoresTheChunkAtTail : Obligations.AppendStoresTheChunkAtTail := by
  intro s bytes hinv hfit
  have hunread := unread_appendChunk_of_fits hinv hfit
  obtain ⟨-, -, -, -, hwf, -⟩ := hinv
  refine ⟨_, exec_cbAppend bytes s, ?_, appendChunk_sameButRing bytes s, hunread, ?_⟩
  all_goals rw [appendChunk_of_fits hfit]
  · rfl
  · exact ⟨rfl, rfl, rfl, memWrite_read_same hwf _ _ _ (by omega), memWrite_read_other hwf _ _ _⟩

/-- Settles O6: the chunk that does not fit clears the ring. -/
theorem appendThatOverflowsClearsTheRing : Obligations.AppendThatOverflowsClearsTheRing := by
  intro s bytes hover
  refine ⟨_, exec_cbAppend bytes s, ?_, appendChunk_sameButRing bytes s, ?_⟩
  all_goals rw [appendChunk_of_overrun hover]
  · rfl
  · have hunread : ((s.setCb s.cb.clear).raise .bufferOverrun).unread = [] := CB.unread_clear _ _
    refine ⟨hunread, rfl, ?_⟩
    rw [exec_cbPendLen, hunread, List.length_nil]

/-- Settles O7: both answers are functions of the unread bytes. -/
theorem pendLenAndHasCmdReadTheUnreadBytes : Obligations.PendLenAndHasCmdReadTheUnreadBytes := by
  refine fun s => ⟨fun _ => ⟨rfl, rfl⟩, ?_, (State.unread_length s).symm, fun ⟨hlen, _⟩ => hlen, _,
    exec_cbHasCmd s, ?_⟩
  · rw [exec_cbPendLen, State.unread_length]
  · simp [isTerm_iff]

/-- Settles O8: CB.CMDLEN searches the unread bytes from the first on. -/
theorem cmdLenIsTheFirstTerminator : Obligations.CmdLenIsTheFirstTerminator :=
  fun _ => ⟨fun _ _ _ hsplit hcmd hb => exec_cbCmdLen_of_split hsplit hcmd hb, exec_cbCmdLen_of_noTerminator⟩

/-- Settles O9, from the not-ready case of CB.EXTRACT as a state equation. -/
theorem extractNotReadyChangesNothing : Obligations.ExtractNotReadyChangesNothing := by
  intro s d hno
  rw [exec_cbExtract, extractLine_of_noTerminator hno]

/-- Settles O10: behind the first terminator at most one more byte is trimmed. -/
theorem extractOfAnEmptyLineTrims : Obligations.ExtractOfAnEmptyLineTrims := by
  intro s d b rest hinv hunread hb
  obtain ⟨hleft, hresp⟩ := extractLine_of_emptyLine hinv hunread hb d
  obtain ⟨htail, hmem⟩ := extractLine_frame d s
  refine ⟨_, exec_cbExtract d s, hresp, extractLine_sameButRing d s, htail, hmem, ?_, fun hno => ?_⟩
  · rintro b' rest' rfl hb'
    rw [hleft, trimOne_of_terminator hb']
  · rw [hleft, trimOne_of_noTerminator_take hno]

/-- Settles O11: the size is tested before anything is consumed, so the ring is the one before. -/
theorem extractIntoTooSmallChangesNothing : Obligations.ExtractIntoTooSmallChangesNothing := by
  intro s d cmd rest b hunread hne hcmd hb hd
  rw [exec_cbExtract, extractLine_of_tooSmall hunread hne hcmd hb hd]

/-- Settles O12: the unread bytes left are those of the abstract CB.EXTRACT, and `head` follows from them because `tail`
stays and the ring invariant holds again. -/
theorem extractDeliversTheFirstLine : Obligations.ExtractDeliversTheFirstLine := by
  intro s d cmd rest b hinv hunread hne hcmd hb hd
  obtain ⟨hleft, hresp⟩ := extractLine_of_command hinv hunread hne hcmd hb hd
  obtain ⟨htail, hmem⟩ := extractLine_frame d s
  have hle : (extractLine d s).cb.length ≤ s.cb.length := by
    rw [← State.unread_length, ← State.unread_length, hleft, hunread, List.length_append, List.length_cons]
    have := trimOne_length_le rest
    omega
  refine ⟨_, exec_cbExtract d s, hresp, extractLine_sameButRing d s, htail, hmem,
    CB.head_eq_of_tail_eq hinv (extractLine_inv hinv d) htail hle, ?_, fun hno => ?_⟩
  · rintro b' rest' rfl hb'
    rw [hleft, trimOne_of_terminator hb']
  · rw [hleft, trimOne_of_noTerminator_take hno]

/-- Settles O16: both runs deliver the lines that the same bytes close. -/
theorem deliveredCommandsAreChunkingInvariant : Obligations.DeliveredCommandsAreChunkingInvariant := by
  intro s d chunks hinv hno hfit hd
  have hone : [chunks.flatten].flatten = chunks.flatten := List.flatten_singleton
  rw [deliver_eq_closedLines hinv hd hno hfit, deliver_eq_closedLines hinv hd hno (by rwa [hone]), hone]

/-- Settles O60: the offset shown by a CB.CMDLEN that is not ready is the free value of its operation. -/
theorem notReadyPortShowsAFreeOffset : Obligations.NotReadyPortShowsAFreeOffset := by
  refine fun s => ⟨_, exec_cbCmdLen s, fun hno => ?_, fun cmd b rest hsplit hcmd hb => ?_⟩
  · rw [findIdx?_isTerm_of_noTerminator hno]
    exact ⟨_, State.port_cmdLen_none s⟩
  · rw [hsplit, findIdx?_isTerm_of_split hcmd hb, State.port_cmdLen_some]

end Sys2Proof.Proofs

/-! ## 42_print_decoder.md: the rows of the state table, whole arguments, tokens

A row run as an instruction is `State.settle` of the shared step it makes, so the layer below first says what `settle` makes
of each shared step. PD.DECODE is the scan of its argument; a piece of an argument (a text, a bracket, a run) is one equation
that carries the scan over the piece, and the statements about whole arguments chain these equations. -/

namespace Sys2Proof.Machine

open Sys2Proof.Claims

/-! ### What a row leaves of a state (R87 to R93) -/

section Settle

variable {s : State}

theorem State.settle_raise (s : State) (k : ErrKind) : s.settle (.raise k) = (atRest s).raise k := rfl

theorem State.settle_emit (s : State) (v : Bitmap) (next : PdState) :
    s.settle (s.pd.consume.emit v next) = emitted s v next := by
  rcases PD.emit_cases s.pd.consume v next with ⟨hfull, heq⟩ | ⟨hroom, heq⟩ <;> rw [heq, emitted]
  · rw [if_pos (show s.pd.n = s.pd.tubeCount from hfull), State.settle, PD.result, Cells.readRun]
    simp only [Nat.zero_add]
    rfl
  · exact (if_neg hroom).symm

theorem State.settle_buffer (s : State) (tlen : Nat) (c : Byte) :
    s.settle (PD.buffer s.cfg.tokenMax { s.pd.consume with tlen := tlen } c .token) = buffered s tlen c := by
  obtain ⟨hfull, heq⟩ | ⟨hroom, heq⟩ := PD.buffer_cases s.cfg.tokenMax { s.pd.consume with tlen := tlen } c .token
  all_goals rw [heq, buffered]
  · exact (if_pos hfull).symm
  · exact (if_neg hroom).symm

theorem PD.showChar_of_hasCode {cfg : Config} {c : Byte} {v : Code} (h : HasCode cfg c v) (pd : PD) (next : PdState) :
    pd.showChar cfg c next = pd.emit (v.setWidth 16) next := by
  rw [PD.showChar, segDecode_eq_some_iff.mpr h]
  rfl

theorem PD.showUnderlined_of_hasCode {cfg : Config} {c : Byte} {v : Code} (h : HasCode cfg c v) (pd : PD)
    (next : PdState) : pd.showUnderlined cfg c next = pd.emit (v.setWidth 16 ||| 0x4000) next := by
  rw [PD.showUnderlined, segDecodeUnderlined, segDecode_eq_some_iff.mpr h]
  rfl

theorem State.settle_showChar {c : Byte} {v : Code} (h : HasCode s.cfg c v) (next : PdState) :
    s.settle (s.pd.consume.showChar s.cfg c next) = emitted s (v.setWidth 16) next := by
  rw [PD.showChar_of_hasCode h, State.settle_emit]

theorem State.settle_showUnderlined {c : Byte} {v : Code} (h : HasCode s.cfg c v) (next : PdState) :
    s.settle (s.pd.consume.showUnderlined s.cfg c next) = emitted s (v.setWidth 16 ||| 0x4000) next := by
  rw [PD.showUnderlined_of_hasCode h, State.settle_emit]

theorem State.settle_showChar_noCode {c : Byte} (h : ∀ v, ¬HasCode s.cfg c v) (next : PdState) :
    s.settle (s.pd.consume.showChar s.cfg c next) = (atRest s).raise .parseError := by
  rw [PD.showChar, segDecode_eq_none_iff.mpr h]
  rfl

theorem State.settle_showUnderlined_noCode {c : Byte} (h : ∀ v, ¬HasCode s.cfg c v) (next : PdState) :
    s.settle (s.pd.consume.showUnderlined s.cfg c next) = (atRest s).raise .parseError := by
  rw [PD.showUnderlined, segDecodeUnderlined, segDecode_eq_none_iff.mpr h]
  rfl

/-- A selected row answers what `settle` makes of its cell. -/
theorem runCell_of_settle {st : PdState} {k : ByteClass} {c : Byte} (cell : Config → PD → CellOut) {t : State}
    (hs : s.pd.state = st) (hc : classOf s.cfg c = k) (h : s.settle (cell s.cfg s.pd.consume) = t) :
    runCell st k c cell s = .next t := by
  rw [runCell_selected hs hc, h]

end Settle

/-! ### The class of an ordinary byte (R66) -/

theorem classOf_of_hasCode {cfg : Config} {c : Byte} {v : Code} (hord : Ordinary c) (h : HasCode cfg c v) :
    classOf cfg c = .printable := by
  obtain ⟨hlbrace, hbang, hrbrace⟩ := hord
  rw [classOf, if_neg hlbrace, if_neg hbang, if_neg hrbrace, segDecode_eq_some_iff.mpr h]
  rfl

theorem classOf_of_noCode {cfg : Config} {c : Byte} (hord : Ordinary c) (h : ∀ v, ¬HasCode cfg c v) :
    classOf cfg c = .nonprintable := by
  obtain ⟨hlbrace, hbang, hrbrace⟩ := hord
  rw [classOf, if_neg hlbrace, if_neg hbang, if_neg hrbrace, segDecode_eq_none_iff.mpr h]
  rfl

/-! ### Rows of the state table as instructions -/

/-- The row that R88 selects makes the decoder's transition on the byte (R66, R88). -/
theorem exec_decodePd (s : State) (c : Byte) :
    exec (decodePd s.cfg s.pd.state c) s = .next (s.settle (s.pd.transition s.cfg c)) := by
  unfold decodePd PD.transition
  rcases classOf_cases s.cfg c with ⟨hc, rfl⟩ | ⟨hc, rfl⟩ | ⟨hc, rfl⟩ | ⟨hc, -⟩ | ⟨hc, -⟩ <;> rw [hc] <;>
    cases hst : s.pd.state <;> exact if_pos ⟨hst, hc⟩

/-- The rows one by one end in the response of the scan, the decoder at rest (R87, R90). -/
theorem runRows_eq_endScan (argument : List Byte) (s : State) :
    runRows argument s = .next (s.endScan (s.pd.scan s.cfg argument)) := by
  induction argument generalizing s with
  | nil => rfl
  | cons c cs ih =>
    rw [runRows, exec_decodePd, PD.scan]
    cases s.pd.transition s.cfg c with
    | go pd => exact ih (s.settle (.go pd))
    | raise k => rfl
    | stop pd => rfl

end Sys2Proof.Machine

namespace Sys2Proof.Proofs

open Sys2Proof.Machine Sys2Proof.Claims

/-- Settles O18: each of the four cells is one `goTo`. -/
theorem bracketRowsChangeTheMode : Obligations.BracketRowsChangeTheMode := by
  refine fun s => ⟨fun hs => ?_, fun hs => ?_, fun hs => ?_, fun hs => ?_⟩
  · exact runCell_of_settle cellStartLbrace hs (classOf_lbrace _) rfl
  · exact runCell_of_settle cellIdleLbrace hs (classOf_lbrace _) rfl
  · exact runCell_of_settle cellTokenStartBang hs (classOf_bang _) rfl
  · exact runCell_of_settle cellUnderlineRbrace hs (classOf_rbrace _) rfl

/-- Settles O22: both cells raise. -/
theorem bangWithNothingToUnderlineRaises : Obligations.BangWithNothingToUnderlineRaises := fun s =>
  ⟨fun hs => runCell_of_settle cellStartBang hs (classOf_bang _) (s.settle_raise _),
    fun hs => runCell_of_settle cellUnderlineBang hs (classOf_bang _) (s.settle_raise _)⟩

/-- Settles O19: the three cells show the byte, plain or underlined. -/
theorem printableRowsEmitTheCode : Obligations.PrintableRowsEmitTheCode := by
  intro s c v hord hcode
  have hclass := classOf_of_hasCode hord hcode
  refine ⟨fun hs => ?_, fun hs => ?_, fun hs => ?_⟩
  · exact runCell_of_settle (cellStartPrintable · c) hs hclass (State.settle_showChar hcode _)
  · exact runCell_of_settle (cellIdlePrintable · c) hs hclass (State.settle_showChar hcode _)
  · exact runCell_of_settle (cellUnderlinePrintable · c) hs hclass (State.settle_showUnderlined hcode _)

/-- Settles O20: the three cells show the bracket as they would show any byte. -/
theorem strayBracketsAreOrdinaryBytes : Obligations.StrayBracketsAreOrdinaryBytes := by
  refine fun s => ⟨fun hs => ⟨fun v hcode => ?_, fun hno => ?_⟩, fun hs => ⟨fun v hcode => ?_, fun hno => ?_⟩,
    fun hs => ⟨fun v hcode => ?_, fun hno => ?_⟩⟩
  · exact runCell_of_settle cellStartRbrace hs (classOf_rbrace _) (State.settle_showChar hcode _)
  · exact runCell_of_settle cellStartRbrace hs (classOf_rbrace _) (State.settle_showChar_noCode hno _)
  · exact runCell_of_settle cellIdleRbrace hs (classOf_rbrace _) (State.settle_showChar hcode _)
  · exact runCell_of_settle cellIdleRbrace hs (classOf_rbrace _) (State.settle_showChar_noCode hno _)
  · exact runCell_of_settle cellUnderlineLbrace hs (classOf_lbrace _) (State.settle_showUnderlined hcode _)
  · exact runCell_of_settle cellUnderlineLbrace hs (classOf_lbrace _) (State.settle_showUnderlined_noCode hno _)

/-- Settles O21: the three cells raise before anything is emitted. -/
theorem nonprintableRowsRaiseParseError : Obligations.NonprintableRowsRaiseParseError := by
  intro s c hord hno
  have hclass := classOf_of_noCode hord hno
  refine ⟨fun hs => ?_, fun hs => ?_, fun hs => ?_⟩
  · exact runCell_of_settle (cellStartNonprintable · c) hs hclass (s.settle_raise _)
  · exact runCell_of_settle (cellIdleNonprintable · c) hs hclass (s.settle_raise _)
  · exact runCell_of_settle (cellUnderlineNonprintable · c) hs hclass (s.settle_raise _)

/-- Settles O23, by the two cases of `underlineLast`: one cell is written, so every other reads as before. -/
theorem bangUnderlinesTheLastBitmapInPlace : Obligations.BangUnderlinesTheLastBitmapInPlace := by
  intro s hs hwf
  rcases PD.underlineLast_cases s.pd.consume with ⟨hzero, heq⟩ | ⟨hpos, heq⟩
  · refine ⟨fun _ => ?_, fun hn => absurd hzero (Nat.ne_of_gt hn)⟩
    exact runCell_of_settle cellIdleBang hs (classOf_bang _) (congrArg s.settle heq)
  · refine ⟨fun hn => absurd hn hpos, fun _ =>
      ⟨Cells.write s.pd.out (s.pd.n - 1) (withUnderline (Cells.read s.pd.out (s.pd.n - 1))), ?_, ?_, fun j hj => ?_⟩⟩
    · refine runCell_of_settle cellIdleBang hs (classOf_bang _) ?_
      rw [cellIdleBang, heq, ← hs]
      rfl
    · rw [Cells.read_write hwf, if_pos rfl, withUnderline]
    · rw [Cells.read_write hwf, if_neg hj]

/-- Settles O24: the cells buffer their byte, or close the token, with `pd.tlen` set to 0. -/
theorem tokenStartRowsOpenTheToken : Obligations.TokenStartRowsOpenTheToken := by
  refine fun s hs => ⟨?_, ?_, fun c v hord hcode => ?_, fun c hord hno => ?_⟩
  · exact runCell_of_settle cellTokenStartLbrace hs (classOf_lbrace _) (s.settle_buffer 0 _)
  · exact runCell_of_settle cellTokenStartRbrace hs (classOf_rbrace _) (s.settle_raise _)
  · exact runCell_of_settle (cellTokenStartPrintable · c) hs (classOf_of_hasCode hord hcode) (s.settle_buffer 0 c)
  · exact runCell_of_settle (cellTokenStartNonprintable · c) hs (classOf_of_noCode hord hno) (s.settle_buffer 0 c)

/-- Settles O25: the four cells buffer their byte behind the text so far. -/
theorem tokenTextRowsBuffer : Obligations.TokenTextRowsBuffer := by
  refine fun s hs => ⟨?_, ?_, fun c v hord hcode => ?_, fun c hord hno => ?_⟩
  · exact runCell_of_settle cellTokenLbrace hs (classOf_lbrace _) (s.settle_buffer s.pd.tlen _)
  · exact runCell_of_settle cellTokenBang hs (classOf_bang _) (s.settle_buffer s.pd.tlen _)
  · exact runCell_of_settle (cellTokenPrintable · c) hs (classOf_of_hasCode hord hcode) (s.settle_buffer s.pd.tlen c)
  · exact runCell_of_settle (cellTokenNonprintable · c) hs (classOf_of_noCode hord hno) (s.settle_buffer s.pd.tlen c)

/-- Settles O35: the cleared registers are those PD.DECODE begins with. -/
theorem rowsOneByOneMakePdDecode : Obligations.RowsOneByOneMakePdDecode := fun s argument tubeCount =>
  (runRows_eq_endScan argument ((s.setPd (s.pd.begin tubeCount)).respond none)).symm

end Sys2Proof.Proofs

namespace Sys2Proof.Machine

open Sys2Proof.Claims

/-! ### Token operations (R121 to R123) -/

section Tokens

variable (digits : List Byte) (s : State)

theorem exec_pdToken (text : List Byte) : exec (.pdToken text) s = .next (s.returnToken (tokenValue text)) := rfl

theorem exec_tokenHexLower : exec (.tokenHexLower digits) s = .next (s.returnToken (hexValue digits)) := rfl

theorem exec_tokenHexUpper : exec (.tokenHexUpper digits) s = .next (s.returnToken (hexValue digits)) := rfl

theorem exec_tokenBinLower : exec (.tokenBinLower digits) s = .next (s.returnToken (binValue digits)) := rfl

theorem exec_tokenBinUpper : exec (.tokenBinUpper digits) s = .next (s.returnToken (binValue digits)) := rfl

@[simp] theorem tokenValue_hexLower : tokenValue (0x30 :: 0x78 :: digits) = hexValue digits := rfl

@[simp] theorem tokenValue_hexUpper : tokenValue (0x30 :: 0x58 :: digits) = hexValue digits := rfl

@[simp] theorem tokenValue_binLower : tokenValue (0x30 :: 0x62 :: digits) = binValue digits := rfl

@[simp] theorem tokenValue_binUpper : tokenValue (0x30 :: 0x42 :: digits) = binValue digits := rfl

/-- A text without one of the four openings has no value. -/
theorem tokenValue_of_no_opening {text : List Byte}
    (h : ∀ base ∈ ([0x78, 0x58, 0x62, 0x42] : List Byte), text.take 2 ≠ [0x30, base]) : tokenValue text = none := by
  match text with
  | [] | [_] => rfl
  | z :: base :: digits =>
    have hno : ∀ b ∈ ([0x78, 0x58, 0x62, 0x42] : List Byte), ¬(z = 0x30 ∧ base = b) := by simpa using h
    rw [tokenValue, if_neg, if_neg]
    · rintro ⟨hz, hb | hb⟩
      exacts [hno 0x62 (by simp) ⟨hz, hb⟩, hno 0x42 (by simp) ⟨hz, hb⟩]
    · rintro ⟨hz, hb | hb⟩
      exacts [hno 0x78 (by simp) ⟨hz, hb⟩, hno 0x58 (by simp) ⟨hz, hb⟩]

/-- The response tells a token's value from a TokenError. -/
theorem responseOf_pdToken_eq_value {text : List Byte} {v : Bitmap} :
    responseOf (exec (.pdToken text) s) = some (.ok (.bitmap v)) ↔ tokenValue text = some v := by
  rw [exec_pdToken, responseOf, State.returnToken_eq, State.respond_response]
  cases tokenValue text <;> simp [tokenResponse]

theorem responseOf_pdToken_eq_tokenError {text : List Byte} :
    responseOf (exec (.pdToken text) s) = some (.err .tokenError) ↔ tokenValue text = none := by
  rw [exec_pdToken, responseOf, State.returnToken_eq, State.respond_response]
  cases tokenValue text <;> simp [tokenResponse]

end Tokens

/-! ### The value of a digit string (R64, R65) -/

theorem hexDigit_eq_lookup : ∀ d : Byte, hexDigit d = (hexDigitTable.lookup d).map (BitVec.ofNat 16) := by decide

theorem binDigit_eq_lookup : ∀ d : Byte, binDigit d = (binDigitTable.lookup d).map (BitVec.ofNat 16) := by decide

theorem hexDigitTable_lt : ∀ x ∈ hexDigitTable, x.2 < 2 ^ 4 := by decide

theorem binDigitTable_lt : ∀ x ∈ binDigitTable, x.2 < 2 ^ 1 := by decide

/-- A digit shifted in from the right is the next digit of the number: the bits do not overlap (R65). -/
theorem ofNat_shiftLeft_or {bits k : Nat} (hk : k < 2 ^ bits) (value : Nat) :
    ((BitVec.ofNat 16 value <<< bits) ||| BitVec.ofNat 16 k) = BitVec.ofNat 16 (value * 2 ^ bits + k) := by
  have hshift : BitVec.ofNat 16 value <<< bits = BitVec.ofNat 16 (value <<< bits) := by
    apply BitVec.eq_of_toNat_eq
    simp [Nat.shiftLeft_eq]
  rw [hshift, ← BitVec.ofNat_or, ← Nat.shiftLeft_add_eq_or_of_lt hk, Nat.shiftLeft_eq]

section Accumulate

variable {digit : Byte → Option Bitmap} {table : List (Byte × Nat)} {bits : Nat} {digits : List Byte}

/-- Digits of a table accumulate to the number they write, cut to 16 bits (R65). -/
theorem accumulate_eq_some (hdigit : ∀ d, digit d = (table.lookup d).map (BitVec.ofNat 16))
    (hlt : ∀ x ∈ table, x.2 < 2 ^ bits) (value : Nat) {ks : List Nat}
    (h : digits.map (fun d => table.lookup d) = ks.map some) :
    accumulate digit bits (BitVec.ofNat 16 value) digits =
      some (BitVec.ofNat 16 (ks.foldl (fun value k => value * 2 ^ bits + k) value)) := by
  induction digits generalizing value ks with
  | nil =>
    obtain rfl : ks = [] := by simpa using h.symm
    rfl
  | cons d ds ih =>
    obtain ⟨k, ks, rfl⟩ := List.exists_cons_of_ne_nil (l := ks) (by rintro rfl; simp at h)
    obtain ⟨hk, hks⟩ : table.lookup d = some k ∧ ds.map (fun d => table.lookup d) = ks.map some := by simpa using h
    obtain ⟨l₁, l₂, htable, -⟩ := List.lookup_eq_some_iff.mp hk
    have hklt : k < 2 ^ bits := hlt (d, k) (by simp [htable])
    rw [accumulate, hdigit, hk, Option.map_some]
    dsimp only
    rw [ofNat_shiftLeft_or hklt, ih _ hks, List.foldl_cons]

/-- One byte that is no digit rejects the text (R122, R123). -/
theorem accumulate_eq_none (h : ∃ d ∈ digits, digit d = none) (value : Bitmap) :
    accumulate digit bits value digits = none := by
  induction digits generalizing value with
  | nil => simp at h
  | cons d ds ih =>
    rw [accumulate]
    rcases hd : digit d with _ | k
    · rfl
    · exact ih (by simpa [hd] using h) _

theorem hexValue_eq_some {ks : List Nat} (h : digits.map (fun d => hexDigitTable.lookup d) = ks.map some) :
    hexValue digits = some (BitVec.ofNat 16 (valueOf 16 ks)) :=
  accumulate_eq_some hexDigit_eq_lookup hexDigitTable_lt 0 h

theorem binValue_eq_some {ks : List Nat} (h : digits.map (fun d => binDigitTable.lookup d) = ks.map some) :
    binValue digits = some (BitVec.ofNat 16 (valueOf 2 ks)) :=
  accumulate_eq_some binDigit_eq_lookup binDigitTable_lt 0 h

theorem hexValue_eq_none (h : ∃ d ∈ digits, hexDigitTable.lookup d = none) : hexValue digits = none :=
  accumulate_eq_none (by simpa [hexDigit_eq_lookup] using h) 0

theorem binValue_eq_none (h : ∃ d ∈ digits, binDigitTable.lookup d = none) : binValue digits = none :=
  accumulate_eq_none (by simpa [binDigit_eq_lookup] using h) 0

end Accumulate

end Sys2Proof.Machine

namespace Sys2Proof.Proofs

open Sys2Proof.Machine Sys2Proof.Claims

/-- Settles O36: PD.TOKEN and the four rows answer the same value function, which is undefined on every other text. -/
theorem tokenTextOpensWithItsBase : Obligations.TokenTextOpensWithItsBase := by
  refine fun s digits text => ⟨?_, ?_, ?_, ?_, fun hno => ?_⟩
  · rw [exec_pdToken, tokenValue_hexLower, exec_tokenHexLower]
  · rw [exec_pdToken, tokenValue_hexUpper, exec_tokenHexUpper]
  · rw [exec_pdToken, tokenValue_binLower, exec_tokenBinLower]
  · rw [exec_pdToken, tokenValue_binUpper, exec_tokenBinUpper]
  · rw [exec_pdToken, tokenValue_of_no_opening hno]
    rfl

/-- Settles O37, from the value of a digit string with four bits a digit. -/
theorem hexDigitsGiveTheirValueInSixteenBits : Obligations.HexDigitsGiveTheirValueInSixteenBits := by
  refine fun s digits => ⟨fun ks hks => ?_, fun hbad => ?_⟩
  · rw [exec_tokenHexLower, exec_tokenHexUpper, exec_pdToken, tokenValue_hexLower, hexValue_eq_some hks]
    exact ⟨rfl, rfl, rfl⟩
  · rw [exec_tokenHexLower, exec_tokenHexUpper, hexValue_eq_none hbad]
    exact ⟨rfl, rfl⟩

/-- Settles O38, from the value of a digit string with one bit a digit. -/
theorem binaryDigitsGiveTheirValueInSixteenBits : Obligations.BinaryDigitsGiveTheirValueInSixteenBits := by
  refine fun s digits => ⟨fun ks hks => ?_, fun hbad => ?_⟩
  · rw [exec_tokenBinLower, exec_tokenBinUpper, exec_pdToken, tokenValue_binLower, binValue_eq_some hks]
    exact ⟨rfl, rfl, rfl⟩
  · rw [exec_tokenBinLower, exec_tokenBinUpper, binValue_eq_none hbad]
    exact ⟨rfl, rfl⟩

/-- Settles O26: the text is the one PD.TOKEN is given, and `emit` is a next state either way. -/
theorem closingBraceEmitsTheTokenValue : Obligations.ClosingBraceEmitsTheTokenValue := by
  intro s text hs htext
  have htok : s.pd.consume.tokenText = text := by
    rw [htext, PD.tokenText, Cells.readRun]
    simp
  have hclass := classOf_rbrace s.cfg
  refine ⟨fun v hv => ?_, fun hno => ?_, _, runCell_of_settle cellTokenRbrace hs hclass rfl, ?_⟩
  · refine runCell_of_settle cellTokenRbrace hs hclass ?_
    rw [cellTokenRbrace, PD.closeToken, htok, (responseOf_pdToken_eq_value s).mp hv]
    exact s.settle_emit v .idle
  · refine runCell_of_settle cellTokenRbrace hs hclass ?_
    rw [cellTokenRbrace, PD.closeToken, htok, (responseOf_pdToken_eq_tokenError s).mp hno]
    rfl
  · obtain ⟨hcfg, hcb, -⟩ := s.settle_frame (cellTokenRbrace s.cfg s.pd.consume)
    exact ⟨hcb, hcfg⟩

end Sys2Proof.Proofs

namespace Sys2Proof.Machine

open Sys2Proof.Claims

/-! ### An array that lists values from index 0 on -/

/-- The first `n` cells are `vs`: the bitmaps emitted so far, or the token text so far. -/
structure Cells.Lists {w : Nat} (m : Cells w) (n : Nat) (vs : List (BitVec w)) : Prop where
  wf : Cells.Wf m
  run : Cells.readRun m 0 n = vs

section Lists

variable {w n : Nat} {m : Cells w} {us vs : List (BitVec w)}

theorem Cells.lists_nil (h : Cells.Wf m) : Cells.Lists m 0 [] := ⟨h, rfl⟩

theorem Cells.Lists.length_eq (h : Cells.Lists m n vs) : vs.length = n := by
  rw [← h.run, Cells.readRun_length]

/-- A run written behind the values listed is listed behind them. -/
theorem Cells.Lists.append (h : Cells.Lists m n us) (vs : List (BitVec w)) :
    Cells.Lists (Cells.writeRun m n vs) (n + vs.length) (us ++ vs) := by
  obtain ⟨hwf, rfl⟩ := h
  refine ⟨Cells.writeRun_wf hwf n vs, List.ext_getElem (by simp) fun i hi _ => ?_⟩
  rw [Cells.readRun_length] at hi
  rw [Cells.getElem_readRun, Nat.zero_add, Cells.read_writeRun hwf, List.getElem_append]
  split_ifs with hin hlt hlt
  · rw [Cells.readRun_length] at hlt
    omega
  · rw [List.getD_eq_getElem _ _ (by omega)]
    simp
  · rw [Cells.getElem_readRun, Nat.zero_add]
  · rw [Cells.readRun_length] at hlt
    omega

/-- The value listed last is the one at index `n - 1`. -/
theorem Cells.Lists.read_last {v : BitVec w} (h : Cells.Lists m n (vs ++ [v])) : Cells.read m (n - 1) = v := by
  have hlast : (Cells.readRun m 0 n)[n - 1]? = some v := by
    rw [h.run, ← h.length_eq]
    simp
  simpa [Cells.readRun] using (List.getElem?_eq_some_iff.mp hlast).2

/-- The value listed last replaced in place. -/
theorem Cells.Lists.write_last {v : BitVec w} (h : Cells.Lists m n (vs ++ [v])) (u : BitVec w) :
    Cells.Lists (Cells.write m (n - 1) u) n (vs ++ [u]) := by
  have hlen : vs.length + 1 = n := by simpa using h.length_eq
  refine ⟨Cells.write_wf h.wf _ u, List.ext_getElem (by simp [hlen]) fun i hi hi' => ?_⟩
  rw [Cells.getElem_readRun, Nat.zero_add, Cells.read_write h.wf]
  have hcell : Cells.read m i = (vs ++ [v])[i]'(by simpa using hi') := by simp [← h.run]
  by_cases hlast : i = n - 1
  · rw [if_pos hlast, List.getElem_append_right (by omega)]
    simp
  · have hlt : i < vs.length := by simp at hi; omega
    rw [if_neg hlast, hcell, List.getElem_append_left hlt, List.getElem_append_left hlt]

end Lists

/-! ### The array a scan delivers (R89, R91) -/

theorem spaceBitmap_eq_space (cfg : Config) : spaceBitmap cfg = space cfg := by
  rw [spaceBitmap, space, segDecode_eq_segLookup (by decide) (by decide), Config.segLookup, List.head?_eq_getElem?,
    show chSpace.toNat - 0x20 = 0 from rfl]
  rcases cfg.segTab[0]? with _ | _ | v <;> rfl

theorem space_of_hasCode {cfg : Config} {v : Code} (h : HasCode cfg 0x20 v) : space cfg = v.setWidth 16 := by
  rw [← spaceBitmap_eq_space, spaceBitmap, segDecode_eq_some_iff.mpr h]
  rfl

theorem padded_of_length_ge {tubeCount : Nat} {vs : List Bitmap} (cfg : Config) (h : tubeCount ≤ vs.length) :
    padded cfg tubeCount vs = vs.take tubeCount := by
  simp [padded, Nat.sub_eq_zero_of_le h]

section Delivered

variable {cfg : Config} {pd : PD} {vs : List Bitmap}

/-- At the end of input the rest of the array is filled with the space bitmap (R91). -/
theorem PD.finish_of_lists (hst : pd.state = .idle) (hout : Cells.Lists pd.out pd.n vs) (hn : pd.n ≤ pd.tubeCount) :
    pd.finish cfg = .ok (.bitmaps (padded cfg pd.tubeCount vs)) := by
  have hfill := hout.append (List.replicate (pd.tubeCount - pd.n) (spaceBitmap cfg))
  rw [List.length_replicate, Nat.add_sub_cancel' hn] at hfill
  rw [PD.finish, hst]
  dsimp only
  rw [PD.result, PD.fill_out, PD.fill_tubeCount, hfill.run, padded, hout.length_eq,
    List.take_of_length_le (hout.length_eq.trans_le hn), spaceBitmap_eq_space]

end Delivered

/-! ### One byte of a scan (R87) -/

section ScanStep

variable {cfg : Config} {pd : PD} {c : Byte}

theorem PD.scan_cons_of_go {pd' : PD} (h : pd.transition cfg c = .go pd') (cs : List Byte) :
    pd.scan cfg (c :: cs) = pd'.scan cfg cs := by
  rw [PD.scan, h]

theorem PD.scan_cons_of_raise {k : ErrKind} (h : pd.transition cfg c = .raise k) (cs : List Byte) :
    pd.scan cfg (c :: cs) = .err k := by
  rw [PD.scan, h]

theorem PD.scan_cons_of_stop {pd' : PD} (h : pd.transition cfg c = .stop pd') (cs : List Byte) :
    pd.scan cfg (c :: cs) = .ok (.bitmaps pd'.result) := by
  rw [PD.scan, h]

end ScanStep

/-! ### The cells a scan over a whole argument meets (R94 to R118) -/

section TableCells

variable {cfg : Config} {pd : PD} {c : Byte} {v : Code}

theorem PD.transition_idle_lbrace (hst : pd.state = .idle) :
    pd.transition cfg 0x7B = .go { pd.consume with state := .tokenStart } := by
  rw [PD.transition, hst, classOf_lbrace]
  rfl

theorem PD.transition_idle_bang (hst : pd.state = .idle) : pd.transition cfg 0x21 = pd.consume.underlineLast := by
  rw [PD.transition, hst, classOf_bang]
  rfl

theorem PD.transition_idle_hasCode (hst : pd.state = .idle) (hord : Ordinary c) (hcode : HasCode cfg c v) :
    pd.transition cfg c = pd.consume.emit (v.setWidth 16) .idle := by
  rw [PD.transition, hst, classOf_of_hasCode hord hcode]
  exact PD.showChar_of_hasCode hcode _ _

theorem PD.transition_tokenStart_bang (hst : pd.state = .tokenStart) :
    pd.transition cfg 0x21 = .go { pd.consume with state := .underline } := by
  rw [PD.transition, hst, classOf_bang]
  rfl

/-- Behind `{`, any byte but `!` does what it does in an empty token (R104, R106 to R108). -/
theorem PD.transition_tokenStart_eq_token (hst : pd.state = .tokenStart) (hc : c ≠ 0x21) :
    pd.transition cfg c = PD.transition cfg { pd with state := .token, tlen := 0 } c := by
  unfold PD.transition
  rw [hst]
  rcases classOf_cases cfg c with ⟨hk, -⟩ | ⟨-, hbang⟩ | ⟨hk, -⟩ | ⟨hk, -⟩ | ⟨hk, -⟩
  case inr.inl => exact absurd hbang hc
  all_goals
    rw [hk]
    rfl

theorem PD.transition_token_text (hst : pd.state = .token) (hc : c ≠ 0x7D) :
    pd.transition cfg c = pd.consume.buffer cfg.tokenMax c .token := by
  rw [PD.transition, hst]
  rcases classOf_cases cfg c with ⟨hk, rfl⟩ | ⟨hk, rfl⟩ | ⟨-, hrbrace⟩ | ⟨hk, -⟩ | ⟨hk, -⟩
  case inr.inr.inl => exact absurd hrbrace hc
  all_goals
    rw [hk]
    rfl

theorem PD.transition_token_rbrace (hst : pd.state = .token) : pd.transition cfg 0x7D = pd.consume.closeToken := by
  rw [PD.transition, hst, classOf_rbrace]
  rfl

theorem PD.transition_underline_rbrace (hst : pd.state = .underline) :
    pd.transition cfg 0x7D = .go { pd.consume with state := .idle } := by
  rw [PD.transition, hst, classOf_rbrace]
  rfl

theorem PD.transition_underline_hasCode (hst : pd.state = .underline) (hord : Ordinary c) (hcode : HasCode cfg c v) :
    pd.transition cfg c = pd.consume.emit (v.setWidth 16 ||| 0x4000) .underline := by
  rw [PD.transition, hst, classOf_of_hasCode hord hcode]
  exact PD.showUnderlined_of_hasCode hcode _ _

/-- In an underline run any byte but `}` is shown or is ParseError (R114, R115, R117, R118). -/
theorem PD.transition_underline_cases (hst : pd.state = .underline) (hc : c ≠ 0x7D) :
    pd.transition cfg c = .raise .parseError ∨ ∃ b, pd.transition cfg c = pd.consume.emit b .underline := by
  rw [PD.transition, hst]
  rcases classOf_cases cfg c with ⟨hk, rfl⟩ | ⟨hk, rfl⟩ | ⟨-, hrbrace⟩ | ⟨hk, -⟩ | ⟨hk, -⟩
  case inr.inr.inl => exact absurd hrbrace hc
  all_goals rw [hk]
  · obtain ⟨-, heq⟩ | ⟨b, -, heq⟩ := PD.showUnderlined_cases cfg pd.consume chLbrace .underline
    exacts [.inl heq, .inr ⟨_, heq⟩]
  · exact .inl rfl
  · obtain ⟨-, heq⟩ | ⟨b, -, heq⟩ := PD.showUnderlined_cases cfg pd.consume c .underline
    exacts [.inl heq, .inr ⟨_, heq⟩]
  · exact .inl rfl

end TableCells

/-! ### A run of characters (R97, R102, R117) -/

/-- In mode `st` the byte emits the bitmap and the mode stays. -/
def ShowsAs (cfg : Config) (st : PdState) (c : Byte) (v : Bitmap) : Prop :=
  ∀ pd : PD, pd.state = st → pd.transition cfg c = pd.consume.emit v st

/-- The registers after a run of bitmaps was emitted. -/
def PD.shown (pd : PD) (vs : List Bitmap) : PD :=
  { pd with pos := pd.pos + vs.length, n := pd.n + vs.length, out := Cells.writeRun pd.out pd.n vs }

@[simp] theorem PD.shown_n (pd : PD) (vs : List Bitmap) : (pd.shown vs).n = pd.n + vs.length := rfl
@[simp] theorem PD.shown_out (pd : PD) (vs : List Bitmap) : (pd.shown vs).out = Cells.writeRun pd.out pd.n vs := rfl
@[simp] theorem PD.shown_tubeCount (pd : PD) (vs : List Bitmap) : (pd.shown vs).tubeCount = pd.tubeCount := rfl

theorem PD.shown_nil (pd : PD) : pd.shown [] = pd := rfl

theorem PD.shown_cons (pd : PD) (v : Bitmap) (vs : List Bitmap) : (pd.shown [v]).shown vs = pd.shown (v :: vs) := by
  simp only [PD.shown, List.length_cons, List.length_nil, Nat.add_assoc, Nat.add_comm 1]
  rfl

section Run

variable {cfg : Config} {pd : PD} {st : PdState} {c : Byte} {v : Bitmap} {text : List (Byte × Code)}
  {val : Byte × Code → Bitmap}

theorem ShowsAs.scan_of_room (h : ShowsAs cfg st c v) (hst : pd.state = st) (hroom : pd.n ≠ pd.tubeCount)
    (cs : List Byte) : pd.scan cfg (c :: cs) = (pd.shown [v]).scan cfg cs := by
  obtain ⟨hfull, -⟩ | ⟨-, heq⟩ := PD.emit_cases pd.consume v st
  · exact absurd hfull hroom
  · rw [PD.scan_cons_of_go ((h pd hst).trans heq)]
    subst hst
    rfl

theorem ShowsAs.scan_of_full (h : ShowsAs cfg st c v) (hst : pd.state = st) (hfull : pd.n = pd.tubeCount)
    (cs : List Byte) : pd.scan cfg (c :: cs) = .ok (.bitmaps pd.result) := by
  obtain ⟨-, heq⟩ | ⟨hroom, -⟩ := PD.emit_cases pd.consume v st
  · exact PD.scan_cons_of_stop ((h pd hst).trans heq) cs
  · exact absurd hfull hroom

/-- A text that fits the array is emitted, and the scan goes on behind it. -/
theorem PD.scan_text_of_fits (hshow : ∀ x ∈ text, ShowsAs cfg st x.1 (val x)) (hst : pd.state = st)
    (hfit : pd.n + text.length ≤ pd.tubeCount) (rest : List Byte) :
    pd.scan cfg (text.map (·.1) ++ rest) = (pd.shown (text.map val)).scan cfg rest := by
  induction text generalizing pd with
  | nil => rfl
  | cons x xs ih =>
    obtain ⟨hx, hxs⟩ := List.forall_mem_cons.mp hshow
    rw [List.length_cons] at hfit
    rw [List.map_cons, List.cons_append, hx.scan_of_room hst (by omega), List.map_cons,
      ← PD.shown_cons pd (val x) (xs.map val)]
    exact ih (pd := pd.shown [val x]) hxs hst (by simp; omega)

/-- A text that does not fit stops the scan with the array full, whatever follows (R89, D14). -/
theorem PD.scan_text_of_overflow (hshow : ∀ x ∈ text, ShowsAs cfg st x.1 (val x)) (hst : pd.state = st)
    (hn : pd.n ≤ pd.tubeCount) (hover : pd.tubeCount < pd.n + text.length) (rest : List Byte) :
    pd.scan cfg (text.map (·.1) ++ rest) =
      .ok (.bitmaps (pd.shown ((text.map val).take (pd.tubeCount - pd.n))).result) := by
  induction text generalizing pd with
  | nil => exact absurd hover (Nat.not_lt.mpr hn)
  | cons x xs ih =>
    obtain ⟨hx, hxs⟩ := List.forall_mem_cons.mp hshow
    rw [List.length_cons] at hover
    rw [List.map_cons, List.cons_append]
    by_cases hfull : pd.n = pd.tubeCount
    · rw [hx.scan_of_full hst hfull, hfull, Nat.sub_self, List.take_zero, PD.shown_nil]
    · have hroom : pd.tubeCount - pd.n = (pd.tubeCount - (pd.n + 1)) + 1 := by omega
      rw [hx.scan_of_room hst hfull, hroom, List.map_cons, List.take_succ_cons, ← PD.shown_cons]
      exact ih (pd := pd.shown [val x]) hxs hst (by simp; omega) (by simp; omega)

/-- The array of a text cut off is its first `tubeCount` bitmaps (R89). -/
theorem PD.scan_text_cutOff (hshow : ∀ x ∈ text, ShowsAs cfg st x.1 (val x)) (hst : pd.state = st)
    (hout : Cells.Lists pd.out pd.n []) (hover : pd.tubeCount < text.length) (rest : List Byte) :
    pd.scan cfg (text.map (·.1) ++ rest) = .ok (.bitmaps ((text.map val).take pd.tubeCount)) := by
  have hn : pd.n = 0 := hout.length_eq.symm
  have hlists := hout.append ((text.map val).take pd.tubeCount)
  have hlen : ((text.map val).take pd.tubeCount).length = pd.tubeCount := by simp; omega
  rw [hlen, hn, Nat.zero_add, List.nil_append] at hlists
  rw [PD.scan_text_of_overflow hshow hst (by omega) (by omega), PD.result, hn, Nat.sub_zero, PD.shown_out,
    PD.shown_tubeCount, hn, hlists.run]

/-- The end of an argument that ends the run in mode `st`: the array is delivered. -/
def EndsRun (cfg : Config) (st : PdState) (rest : List Byte) : Prop :=
  ∀ (pd : PD) (vs : List Bitmap), pd.state = st → Cells.Lists pd.out pd.n vs → pd.n ≤ pd.tubeCount →
    pd.scan cfg rest = .ok (.bitmaps (padded cfg pd.tubeCount vs))

theorem endsRun_idle (cfg : Config) : EndsRun cfg .idle [] := fun _ _ => PD.finish_of_lists

theorem endsRun_underline (cfg : Config) : EndsRun cfg .underline [0x7D] := fun pd vs hst hout hn => by
  rw [PD.scan_cons_of_go (PD.transition_underline_rbrace hst)]
  exact endsRun_idle cfg { pd.consume with state := .idle } vs rfl hout hn

/-- A text of any length and the end of its run give its bitmaps, cut off or filled (R89, R91). -/
theorem PD.scan_text_padded {rest : List Byte} (hshow : ∀ x ∈ text, ShowsAs cfg st x.1 (val x))
    (hrest : EndsRun cfg st rest) (hst : pd.state = st) (hout : Cells.Lists pd.out pd.n []) :
    pd.scan cfg (text.map (·.1) ++ rest) = .ok (.bitmaps (padded cfg pd.tubeCount (text.map val))) := by
  by_cases hover : pd.tubeCount < text.length
  · rw [PD.scan_text_cutOff hshow hst hout hover, padded_of_length_ge cfg (by simp; omega)]
  · have hn : pd.n = 0 := hout.length_eq.symm
    rw [PD.scan_text_of_fits hshow hst (by omega)]
    exact hrest (pd.shown (text.map val)) _ hst (hout.append (text.map val)) (by simp; omega)

end Run

section Texts

variable {cfg : Config} {text : List (Byte × Code)}

theorem showsAs_idle (htext : ∀ x ∈ text, Ordinary x.1 ∧ HasCode cfg x.1 x.2) :
    ∀ x ∈ text, ShowsAs cfg .idle x.1 (x.2.setWidth 16) := fun x hx _ hst =>
  have ⟨hord, hcode⟩ := htext x hx
  PD.transition_idle_hasCode hst hord hcode

theorem showsAs_underline (htext : ∀ x ∈ text, Ordinary x.1 ∧ HasCode cfg x.1 x.2) :
    ∀ x ∈ text, ShowsAs cfg .underline x.1 (x.2.setWidth 16 ||| 0x4000) := fun x hx _ hst =>
  have ⟨hord, hcode⟩ := htext x hx
  PD.transition_underline_hasCode hst hord hcode

end Texts

/-! ### Underlining in place (R100) -/

section Bangs

variable {cfg : Config} {pd : PD} {vs : List Bitmap} {v : Bitmap}

theorem PD.scan_bang (hst : pd.state = .idle) (hout : Cells.Lists pd.out pd.n (vs ++ [v])) (cs : List Byte) :
    pd.scan cfg (0x21 :: cs) =
      PD.scan cfg { pd.consume with out := Cells.write pd.out (pd.n - 1) (withUnderline v), state := .idle } cs := by
  obtain ⟨hzero, -⟩ | ⟨-, heq⟩ := PD.underlineLast_cases pd.consume
  · have hlen := hout.length_eq
    rw [PD.consume_n] at hzero
    simp [hzero] at hlen
  · rw [PD.scan_cons_of_go ((PD.transition_idle_bang hst).trans heq), PD.consume_n, PD.consume_out, hout.read_last]
    rfl

/-- Each further `!` finds the bitmap underlined already. -/
theorem PD.scan_bangs (bangs : Nat) (hst : pd.state = .idle) (hout : Cells.Lists pd.out pd.n (vs ++ [v]))
    (hn : pd.n ≤ pd.tubeCount) :
    pd.scan cfg (List.replicate (bangs + 1) 0x21) =
      .ok (.bitmaps (padded cfg pd.tubeCount (vs ++ [withUnderline v]))) := by
  have hnext := hout.write_last (withUnderline v)
  induction bangs generalizing pd v with
  | zero =>
    rw [List.replicate_succ, PD.scan_bang hst hout]
    exact endsRun_idle cfg
      { pd.consume with out := Cells.write pd.out (pd.n - 1) (withUnderline v), state := .idle } _ rfl hnext hn
  | succ bangs ih =>
    rw [List.replicate_succ, PD.scan_bang hst hout]
    have hagain := ih (pd := { pd.consume with
      out := Cells.write pd.out (pd.n - 1) (withUnderline v), state := .idle }) rfl hnext hn (hnext.write_last _)
    rwa [withUnderline_withUnderline] at hagain

end Bangs

/-! ### Brackets (R93, R104 to R113) -/

/-- The registers after a run of token text was buffered. -/
def PD.stored (pd : PD) (text : List Byte) : PD :=
  { pd with pos := pd.pos + text.length, tlen := pd.tlen + text.length, tok := Cells.writeRun pd.tok pd.tlen text }

@[simp] theorem PD.stored_tlen (pd : PD) (text : List Byte) : (pd.stored text).tlen = pd.tlen + text.length := rfl

theorem PD.stored_cons (pd : PD) (c : Byte) (text : List Byte) : (pd.stored [c]).stored text = pd.stored (c :: text) := by
  simp only [PD.stored, List.length_cons, List.length_nil, Nat.add_assoc, Nat.add_comm 1]
  rfl

section Brackets

variable {cfg : Config} {pd : PD} {c : Byte} {text : List Byte}

/-- `{` before anything but `!` opens an empty token. -/
theorem PD.scan_openToken (hst : pd.state = .idle) {cs : List Byte} (hcs : cs.head? ≠ some 0x21) :
    pd.scan cfg (0x7B :: cs) = PD.scan cfg { pd.consume with state := .token, tlen := 0 } cs := by
  rw [PD.scan_cons_of_go (PD.transition_idle_lbrace hst)]
  cases cs with
  | nil => rfl
  | cons c cs =>
    rw [PD.scan, PD.scan, PD.transition_tokenStart_eq_token rfl (by simpa using hcs)]

theorem PD.scan_openUnderline (hst : pd.state = .idle) (cs : List Byte) :
    pd.scan cfg (0x7B :: 0x21 :: cs) = PD.scan cfg { pd.consume.consume with state := .underline } cs := by
  rw [PD.scan_cons_of_go (PD.transition_idle_lbrace hst), PD.scan_cons_of_go (PD.transition_tokenStart_bang rfl)]
  rfl

theorem PD.scan_token_of_room (hst : pd.state = .token) (hc : c ≠ 0x7D) (hroom : pd.tlen ≠ cfg.tokenMax)
    (cs : List Byte) : pd.scan cfg (c :: cs) = (pd.stored [c]).scan cfg cs := by
  obtain ⟨hfull, -⟩ | ⟨-, heq⟩ := PD.buffer_cases cfg.tokenMax pd.consume c .token
  · exact absurd hfull hroom
  · rw [PD.scan_cons_of_go ((PD.transition_token_text hst hc).trans heq), ← hst]
    rfl

theorem PD.scan_token_of_full (hst : pd.state = .token) (hc : c ≠ 0x7D) (hfull : pd.tlen = cfg.tokenMax)
    (cs : List Byte) : pd.scan cfg (c :: cs) = .err .parseError := by
  obtain ⟨-, heq⟩ | ⟨hroom, -⟩ := PD.buffer_cases cfg.tokenMax pd.consume c .token
  · exact PD.scan_cons_of_raise ((PD.transition_token_text hst hc).trans heq) cs
  · exact absurd hfull hroom

/-- A token text that fits is buffered, and the scan goes on behind it. -/
theorem PD.scan_token_of_fits (hst : pd.state = .token) (hno : ∀ c ∈ text, c ≠ 0x7D)
    (hfit : pd.tlen + text.length ≤ cfg.tokenMax) (rest : List Byte) :
    pd.scan cfg (text ++ rest) = (pd.stored text).scan cfg rest := by
  induction text generalizing pd with
  | nil => rfl
  | cons c cs ih =>
    obtain ⟨hc, hcs⟩ := List.forall_mem_cons.mp hno
    rw [List.length_cons] at hfit
    rw [List.cons_append, PD.scan_token_of_room hst hc (by omega), ← PD.stored_cons pd c cs]
    exact ih (pd := pd.stored [c]) hst hcs (by simp; omega)

/-- A token text that does not fit is ParseError, whatever follows (R93, D17). -/
theorem PD.scan_token_of_overlong (hst : pd.state = .token) (hno : ∀ c ∈ text, c ≠ 0x7D)
    (hle : pd.tlen ≤ cfg.tokenMax) (hover : cfg.tokenMax < pd.tlen + text.length) (rest : List Byte) :
    pd.scan cfg (text ++ rest) = .err .parseError := by
  induction text generalizing pd with
  | nil => exact absurd hover (Nat.not_lt.mpr hle)
  | cons c cs ih =>
    obtain ⟨hc, hcs⟩ := List.forall_mem_cons.mp hno
    rw [List.length_cons] at hover
    rw [List.cons_append]
    by_cases hfull : pd.tlen = cfg.tokenMax
    · exact PD.scan_token_of_full hst hc hfull _
    · rw [PD.scan_token_of_room hst hc hfull]
      exact ih (pd := pd.stored [c]) hst hcs (by simp; omega) (by simp; omega)

/-- The end of input inside a token, or a text too long before it, is ParseError (R90, R93). -/
theorem PD.scan_token_unclosed (hst : pd.state = .token) (hno : ∀ c ∈ text, c ≠ 0x7D) :
    pd.scan cfg text = .err .parseError := by
  induction text generalizing pd with
  | nil => rw [PD.scan, PD.finish, hst]
  | cons c cs ih =>
    obtain ⟨hc, hcs⟩ := List.forall_mem_cons.mp hno
    by_cases hfull : pd.tlen = cfg.tokenMax
    · exact PD.scan_token_of_full hst hc hfull _
    · rw [PD.scan_token_of_room hst hc hfull]
      exact ih hst hcs

/-- The end of input inside an underline run whose bytes the array can hold, or a byte before it that the run does not show,
is ParseError (R90, R115, R118). -/
theorem PD.scan_underline_unclosed (hst : pd.state = .underline) (hno : ∀ c ∈ text, c ≠ 0x7D)
    (hfit : pd.n + text.length ≤ pd.tubeCount) : pd.scan cfg text = .err .parseError := by
  induction text generalizing pd with
  | nil => rw [PD.scan, PD.finish, hst]
  | cons c cs ih =>
    obtain ⟨hc, hcs⟩ := List.forall_mem_cons.mp hno
    rw [List.length_cons] at hfit
    rcases PD.transition_underline_cases (cfg := cfg) hst hc with heq | ⟨b, heq⟩
    · exact PD.scan_cons_of_raise heq cs
    · obtain ⟨hfull, -⟩ | ⟨-, hemit⟩ := PD.emit_cases pd.consume b .underline
      · simp at hfull; omega
      · rw [PD.scan_cons_of_go (heq.trans hemit)]
        exact ih rfl hcs (by simp; omega)

/-- `}` behind a token text emits its value and ends the argument, or is TokenError (R91, R111). -/
theorem PD.scan_closeToken (hst : pd.state = .token) (htok : Cells.Lists pd.tok pd.tlen text)
    (hout : Cells.Lists pd.out pd.n []) (hroom : 1 ≤ pd.tubeCount) :
    pd.scan cfg [0x7D] =
      (tokenValue text).elim (.err .tokenError) fun v => .ok (.bitmaps (padded cfg pd.tubeCount [v])) := by
  have htext : pd.consume.tokenText = text := htok.run
  have hn : pd.n = 0 := hout.length_eq.symm
  obtain ⟨hval, heq⟩ | ⟨v, hval, heq⟩ := PD.closeToken_cases pd.consume <;> rw [htext] at hval <;> rw [hval]
  · exact PD.scan_cons_of_raise ((PD.transition_token_rbrace hst).trans heq) []
  · obtain ⟨hfull, -⟩ | ⟨-, hemit⟩ := PD.emit_cases pd.consume v .idle
    · simp at hfull; omega
    · rw [PD.scan_cons_of_go ((PD.transition_token_rbrace hst).trans (heq.trans hemit))]
      exact endsRun_idle cfg { pd.consume with out := Cells.write pd.out pd.n v, n := pd.n + 1, state := .idle } [v]
        rfl (hout.append [v]) (by simp; omega)

end Brackets

/-! ### PD.DECODE (R87) -/

/-- The cleared registers, in Idle: with nothing emitted Start and Idle take the same course. -/
def PD.cleared (pd : PD) (tubeCount : Nat) : PD := { pd.begin tubeCount with state := .idle }

@[simp] theorem PD.cleared_state (pd : PD) (tubeCount : Nat) : (pd.cleared tubeCount).state = .idle := rfl
@[simp] theorem PD.cleared_n (pd : PD) (tubeCount : Nat) : (pd.cleared tubeCount).n = 0 := rfl
@[simp] theorem PD.cleared_tubeCount (pd : PD) (tubeCount : Nat) : (pd.cleared tubeCount).tubeCount = tubeCount := rfl

/-- The two part only in the mode that a stop leaves behind, which no response shows. -/
theorem PD.transition_begin_cases (cfg : Config) (pd : PD) (tubeCount : Nat) (c : Byte) :
    (pd.begin tubeCount).transition cfg c = (pd.cleared tubeCount).transition cfg c ∨
    ((pd.begin tubeCount).transition cfg c = .stop (pd.begin tubeCount).consume ∧
      (pd.cleared tubeCount).transition cfg c = .stop (pd.cleared tubeCount).consume) := by
  have hshow (c : Byte) :
      (pd.begin tubeCount).consume.showChar cfg c .idle = (pd.cleared tubeCount).consume.showChar cfg c .idle ∨
      ((pd.begin tubeCount).consume.showChar cfg c .idle = .stop (pd.begin tubeCount).consume ∧
        (pd.cleared tubeCount).consume.showChar cfg c .idle = .stop (pd.cleared tubeCount).consume) := by
    unfold PD.showChar
    rcases segDecode cfg c with _ | v
    · exact .inl rfl
    · by_cases hfull : 0 = tubeCount
      · exact .inr ⟨if_pos hfull, if_pos hfull⟩
      · exact .inl ((if_neg hfull).trans (if_neg hfull).symm)
  unfold PD.transition
  rw [PD.begin_state, PD.cleared_state]
  cases classOf cfg c with
  | lbrace | bang | nonprintable => exact .inl rfl
  | rbrace => exact hshow chRbrace
  | printable => exact hshow c

theorem PD.decode_eq_scan_cleared (cfg : Config) (pd : PD) (argument : List Byte) (tubeCount : Nat) :
    pd.decode cfg argument tubeCount = (pd.cleared tubeCount).scan cfg argument := by
  rw [PD.decode]
  cases argument with
  | nil => rfl
  | cons c cs =>
    rw [PD.scan, PD.scan]
    obtain heq | ⟨hbegin, hcleared⟩ := PD.transition_begin_cases cfg pd tubeCount c
    · rw [heq]
    · rw [hbegin, hcleared]
      rfl

theorem exec_pdDecode (argument : List Byte) (tubeCount : Nat) (s : State) :
    exec (.pdDecode argument tubeCount) s = .next (s.endScan ((s.pd.cleared tubeCount).scan s.cfg argument)) := by
  rw [← PD.decode_eq_scan_cleared]
  rfl

theorem responseOf_pdDecode (argument : List Byte) (tubeCount : Nat) (s : State) :
    responseOf (exec (.pdDecode argument tubeCount) s) = some ((s.pd.cleared tubeCount).scan s.cfg argument) := by
  rw [exec_pdDecode]
  rfl

/-! ### What a scan can answer (R87, R92) -/

/-- The registers are for an array of `tubeCount` bitmaps, or the error is one of the two of PD.DECODE. -/
def CellOut.ForTubes (tubeCount : Nat) : CellOut → Prop
  | .go pd | .stop pd => pd.tubeCount = tubeCount
  | .raise k => k = .parseError ∨ k = .tokenError

section ForTubes

variable (cfg : Config) (pd : PD) (c : Byte) (next : PdState)

theorem PD.emit_forTubes (v : Bitmap) : (pd.emit v next).ForTubes pd.tubeCount := by
  obtain ⟨-, heq⟩ | ⟨-, heq⟩ := PD.emit_cases pd v next <;> rw [heq] <;> rfl

theorem PD.buffer_forTubes (tokenMax : Nat) : (pd.buffer tokenMax c next).ForTubes pd.tubeCount := by
  obtain ⟨-, heq⟩ | ⟨-, heq⟩ := PD.buffer_cases tokenMax pd c next <;> rw [heq]
  exacts [.inl rfl, rfl]

theorem PD.showChar_forTubes : (pd.showChar cfg c next).ForTubes pd.tubeCount := by
  obtain ⟨-, heq⟩ | ⟨v, -, heq⟩ := PD.showChar_cases cfg pd c next <;> rw [heq]
  exacts [.inl rfl, pd.emit_forTubes next _]

theorem PD.showUnderlined_forTubes : (pd.showUnderlined cfg c next).ForTubes pd.tubeCount := by
  obtain ⟨-, heq⟩ | ⟨v, -, heq⟩ := PD.showUnderlined_cases cfg pd c next <;> rw [heq]
  exacts [.inl rfl, pd.emit_forTubes next _]

theorem PD.closeToken_forTubes : pd.closeToken.ForTubes pd.tubeCount := by
  obtain ⟨-, heq⟩ | ⟨v, -, heq⟩ := PD.closeToken_cases pd <;> rw [heq]
  exacts [.inr rfl, pd.emit_forTubes _ _]

theorem PD.underlineLast_forTubes : pd.underlineLast.ForTubes pd.tubeCount := by
  obtain ⟨-, heq⟩ | ⟨-, heq⟩ := PD.underlineLast_cases pd <;> rw [heq]
  exacts [.inl rfl, rfl]

theorem PD.transition_forTubes : (pd.transition cfg c).ForTubes pd.tubeCount := by
  unfold PD.transition
  cases pd.state <;> cases classOf cfg c
  case start.lbrace | idle.lbrace | tokenStart.bang | underline.rbrace => rfl
  case start.bang | start.nonprintable | idle.nonprintable | underline.bang | underline.nonprintable => exact .inl rfl
  case idle.bang => exact pd.consume.underlineLast_forTubes
  case start.rbrace | idle.rbrace => exact pd.consume.showChar_forTubes cfg chRbrace _
  case start.printable | idle.printable => exact pd.consume.showChar_forTubes cfg c _
  case underline.lbrace => exact pd.consume.showUnderlined_forTubes cfg chLbrace _
  case underline.printable => exact pd.consume.showUnderlined_forTubes cfg c _
  case tokenStart.rbrace => exact PD.closeToken_forTubes { pd.consume with tlen := 0 }
  case token.rbrace => exact pd.consume.closeToken_forTubes
  case tokenStart.lbrace => exact PD.buffer_forTubes { pd.consume with tlen := 0 } chLbrace _ _
  case tokenStart.printable | tokenStart.nonprintable =>
    exact PD.buffer_forTubes { pd.consume with tlen := 0 } c _ _
  case token.lbrace => exact pd.consume.buffer_forTubes chLbrace _ _
  case token.bang => exact pd.consume.buffer_forTubes chBang _ _
  case token.printable | token.nonprintable => exact pd.consume.buffer_forTubes c _ _

/-- A scan answers an array of `tubeCount` bitmaps, ParseError or TokenError. -/
theorem PD.scan_cases (argument : List Byte) :
    (∃ out, pd.scan cfg argument = .ok (.bitmaps out) ∧ out.length = pd.tubeCount) ∨
      pd.scan cfg argument = .err .parseError ∨ pd.scan cfg argument = .err .tokenError := by
  induction argument generalizing pd with
  | nil =>
    rw [PD.scan]
    obtain ⟨-, heq⟩ | ⟨-, heq⟩ := PD.finish_cases cfg pd
    · exact .inr (.inl heq)
    · exact .inl ⟨_, heq, PD.result_length _⟩
  | cons c cs ih =>
    have hout := pd.transition_forTubes cfg c
    rw [PD.scan]
    generalize pd.transition cfg c = step at hout ⊢
    cases step with
    | go pd' =>
      rw [show pd.tubeCount = pd'.tubeCount from hout.symm]
      exact ih pd'
    | raise k =>
      obtain rfl | rfl : k = .parseError ∨ k = .tokenError := hout
      exacts [.inr (.inl rfl), .inr (.inr rfl)]
    | stop pd' => exact .inl ⟨_, rfl, (PD.result_length pd').trans hout⟩

end ForTubes

end Sys2Proof.Machine

namespace Sys2Proof.Proofs

open Sys2Proof.Machine Sys2Proof.Claims

/-- Settles O27: from the cleared registers the text is shown in Idle, and its end is the end of input. -/
theorem plainTextGivesItsCodesThenSpaces : Obligations.PlainTextGivesItsCodesThenSpaces := by
  intro s text tubeCount hwf htext
  have hscan := PD.scan_text_padded (pd := s.pd.cleared tubeCount) (showsAs_idle htext) (endsRun_idle s.cfg) rfl
    (Cells.lists_nil hwf)
  rw [List.append_nil, PD.cleared_tubeCount] at hscan
  refine ⟨_, exec_pdDecode _ tubeCount s, ?_, fun v hspace => ?_, rfl, rfl, rfl⟩
  · rw [State.endScan_response, hscan]
  · rw [State.endScan_response, hscan, padded, space_of_hasCode hspace, List.length_map]

/-- Settles O28, from the answers a scan can give. -/
theorem pdDecodeGivesTubeCountBitmapsOrAnError : Obligations.PdDecodeGivesTubeCountBitmapsOrAnError := by
  refine fun s argument tubeCount => ⟨_, exec_pdDecode argument tubeCount s, rfl, rfl, rfl, rfl, ?_⟩
  rw [State.endScan_response]
  simpa using PD.scan_cases s.cfg (s.pd.cleared tubeCount) argument

/-- Settles O29: the text is buffered, and `}` closes a token of that text. -/
theorem escapeTokenArgumentGivesItsValue : Obligations.EscapeTokenArgumentGivesItsValue := by
  intro s text tubeCount hout htok hno hbang hlen hroom
  have hhead : (text ++ [0x7D]).head? ≠ some 0x21 := by
    cases text with
    | nil => simp
    | cons c cs => exact hbang
  rw [responseOf_pdDecode, List.cons_append, PD.scan_openToken rfl hhead,
    PD.scan_token_of_fits rfl (List.forall_mem_ne'.mpr hno) (by simpa using hlen),
    PD.scan_closeToken rfl ((Cells.lists_nil htok).append text) (Cells.lists_nil hout) hroom,
    List.nil_append]
  refine ⟨fun v hv => ?_, fun hbad => ?_⟩
  · rw [(responseOf_pdToken_eq_value s).mp hv]
    rfl
  · rw [(responseOf_pdToken_eq_tokenError s).mp hbad]
    rfl

/-- Settles O30: the byte that does not fit raises before what follows it is looked at. -/
theorem overlongTokenRaisesParseError : Obligations.OverlongTokenRaisesParseError := by
  intro s text rest tubeCount hno hbang hover
  have hhead : (text ++ rest).head? ≠ some 0x21 := by
    cases text with
    | nil => simp at hover
    | cons c cs => exact hbang
  rw [responseOf_pdDecode, List.cons_append, PD.scan_openToken rfl hhead,
    PD.scan_token_of_overlong rfl (List.forall_mem_ne'.mpr hno) (Nat.zero_le _) (by simpa using hover)]

/-- Settles O31: behind `{!` the text is shown underlined, and `}` ends the run. -/
theorem underlineRunUnderlinesEveryCharacter : Obligations.UnderlineRunUnderlinesEveryCharacter := by
  intro s text tubeCount hwf htext
  rw [responseOf_pdDecode, List.append_assoc]
  refine congrArg some ((PD.scan_openUnderline rfl _).trans ?_)
  exact PD.scan_text_padded (showsAs_underline htext) (endsRun_underline s.cfg) rfl (Cells.lists_nil hwf)

/-- Settles O32: the text is emitted, then `!` finds its last bitmap. -/
theorem bangAfterATextUnderlinesItsLastCharacter : Obligations.BangAfterATextUnderlinesItsLastCharacter := by
  intro s text last bangs tubeCount hwf htext hlen
  have hshown := (Cells.lists_nil hwf).append ((text ++ [last]).map fun x => x.2.setWidth 16)
  rw [List.nil_append, List.map_append, List.map_singleton] at hshown
  rw [responseOf_pdDecode, PD.scan_text_of_fits (showsAs_idle htext) rfl (by simp; omega), List.map_append,
    List.map_singleton, PD.scan_bangs bangs rfl hshown (by simp; omega)]
  rfl

/-- Settles O33: neither a token nor an underline run that fits is left before the end of input. -/
theorem unclosedBracketRaisesParseError : Obligations.UnclosedBracketRaisesParseError := by
  intro s text body tubeCount htext hno hlen hroom
  rw [responseOf_pdDecode, PD.scan_text_of_fits (showsAs_idle htext) rfl (by simpa using hlen)]
  by_cases hbang : body.head? = some 0x21
  · obtain ⟨run, rfl⟩ := List.head?_eq_some_iff.mp hbang
    obtain ⟨-, hrun⟩ := List.forall_mem_cons.mp (List.forall_mem_ne'.mpr hno)
    rw [PD.scan_openUnderline rfl, PD.scan_underline_unclosed rfl hrun (by simpa using hroom hbang)]
  · rw [PD.scan_openToken rfl hbang, PD.scan_token_unclosed rfl (List.forall_mem_ne'.mpr hno)]

/-- Settles O34: the last character of the text finds the array full. -/
theorem bytesAfterAStopAreNotLookedAt : Obligations.BytesAfterAStopAreNotLookedAt := by
  intro s text rest hwf htext hne
  have hover : text.length - 1 < text.length := Nat.sub_lt (List.length_pos_iff.mpr hne) Nat.one_pos
  rw [responseOf_pdDecode, PD.scan_text_cutOff (showsAs_idle htext) rfl (Cells.lists_nil hwf) hover,
    PD.cleared_tubeCount]

end Sys2Proof.Proofs

/-! ## 43_command_parser.md: CP.PARSE

The three checks and the arguments all speak of the fields of the command, so the layer below says what the split gives (the
word before the first colon, and an argument behind every colon), and what CP.PARSE answers once the fields are named. -/

namespace Sys2Proof.Machine

/-! ### The fields of a command (R124) -/

theorem splitColon_colon_cons (bs : List Byte) : splitColon (chColon :: bs) = [] :: splitColon bs := by
  obtain ⟨field, fields, hfields, hcons⟩ := splitColon_cons chColon bs
  rw [hcons, if_pos rfl, hfields]

theorem splitColon_cons_of_ne {b : Byte} {bs word : List Byte} {args : List (List Byte)} (hb : b ≠ chColon)
    (h : splitColon bs = word :: args) : splitColon (b :: bs) = (b :: word) :: args := by
  obtain ⟨field, fields, hfields, hcons⟩ := splitColon_cons b bs
  obtain ⟨rfl, rfl⟩ := List.cons.inj (hfields.symm.trans h)
  rw [hcons, if_neg hb]

/-- The split is exact: the word ends at the first colon, every colon opens one argument, which holds none, and put together
again the fields are the command. -/
theorem splitColon_eq_word_cons (cmd : List Byte) :
    ∃ args, splitColon cmd = cmd.takeWhile (· ≠ chColon) :: args ∧ args.length = cmd.count chColon ∧
      (∀ a ∈ args, chColon ∉ a) ∧ cmd = cmd.takeWhile (· ≠ chColon) ++ args.flatMap (chColon :: ·) := by
  induction cmd with
  | nil => exact ⟨[], rfl, rfl, by simp, rfl⟩
  | cons b bs ih =>
    obtain ⟨args, hsplit, hlen, hno, hjoin⟩ := ih
    have hword : chColon ∉ bs.takeWhile (· ≠ chColon) := fun hmem => by simpa using List.mem_takeWhile_imp hmem
    by_cases hb : b = chColon
    · subst hb
      refine ⟨bs.takeWhile (· ≠ chColon) :: args, ?_, ?_, List.forall_mem_cons.mpr ⟨hword, hno⟩, ?_⟩
      · rw [splitColon_colon_cons, hsplit, List.takeWhile_cons_of_neg (by simp)]
      · rw [List.length_cons, hlen, List.count_cons_self]
      · rw [List.takeWhile_cons_of_neg (by simp), List.nil_append, List.flatMap_cons, List.cons_append, ← hjoin]
    · have htake : (b :: bs).takeWhile (· ≠ chColon) = b :: bs.takeWhile (· ≠ chColon) :=
        List.takeWhile_cons_of_pos (by simpa using hb)
      refine ⟨args, ?_, ?_, hno, ?_⟩
      · rw [splitColon_cons_of_ne hb hsplit, htake]
      · rw [hlen, List.count_cons_of_ne hb]
      · rw [htake, List.cons_append, ← hjoin]

/-! ### What CP.PARSE answers (R124) -/

theorem exec_cpParse (cmd : List Byte) (s : State) :
    exec (.cpParse cmd) s = .next (s.respond (some (parseCommand s.cfg.maxArgs cmd))) := rfl

section Fields

variable {maxArgs : Nat} {cmd word : List Byte} {args : List (List Byte)} (hfields : splitColon cmd = word :: args)
include hfields

theorem parseCommand_of_tooMany (hover : args.length > maxArgs) : parseCommand maxArgs cmd = .err .tooManyArgs := by
  simp only [parseCommand, hfields, if_pos hover]

theorem parseCommand_of_noArgs (hfit : args.length ≤ maxArgs) (hnone : args.length = 0) :
    parseCommand maxArgs cmd = .err .wrongNumArgs := by
  simp only [parseCommand, hfields, if_neg hfit.not_gt, if_pos hnone]

theorem parseCommand_of_otherWord (hfit : args.length ≤ maxArgs) (hsome : args.length ≠ 0) (hword : word ≠ printWord) :
    parseCommand maxArgs cmd = .err .badCommand := by
  simp only [parseCommand, hfields, if_neg hfit.not_gt, if_neg hsome, if_pos hword]

theorem parseCommand_of_print (hfit : args.length ≤ maxArgs) (hsome : args.length ≠ 0) (hword : word = printWord) :
    parseCommand maxArgs cmd = .ok (.print args) := by
  simp only [parseCommand, hfields, if_neg hfit.not_gt, if_neg hsome, if_neg (not_not_intro hword)]

end Fields

end Sys2Proof.Machine

namespace Sys2Proof.Proofs

open Sys2Proof.Machine

/-- Settles O39: the split gives as many arguments as there are colons, and the answer is read off them. -/
theorem parseSplitsAtEveryColon : Obligations.ParseSplitsAtEveryColon := by
  intro s cmd
  obtain ⟨args, hfields, hlen, hno, hjoin⟩ := splitColon_eq_word_cons cmd
  refine ⟨_, exec_cpParse cmd s, ?_⟩
  rw [← hlen]
  refine ⟨parseCommand_of_tooMany hfields, parseCommand_of_noArgs hfields, parseCommand_of_otherWord hfields,
    fun hfit hsome hword => ⟨args, parseCommand_of_print hfields hfit hsome hword, rfl, hno, ?_⟩⟩
  rwa [hword] at hjoin

end Sys2Proof.Proofs

/-! ## 44_system.md: RESET, the reserved codes and the line pipeline

LINE is the state CB.EXTRACT leaves, handed on to the dispatch step if it holds a command; so, after RESET and the reserved
codes, the layer below says what the dispatch step makes of each answer of CP.PARSE, then what LINE is, case by case of what
CB.EXTRACT answers. -/

namespace Sys2Proof.Machine

open Sys2Proof.Claims

/-! ### RESET and the reserved codes (R125, R126) -/

theorem exec_reset (s : State) : exec .reset s = .next ((s.setCb s.cb.clear).succeed .done) := rfl

/-- The hardware does nothing for a reserved code, whichever it is (R126). -/
theorem exec_reservedRow (op : Nibble) (s : State) : exec (reservedRow op) s = .next (s.respond none) := by
  unfold reservedRow
  split <;> rfl

/-- A request record that the decoder refuses as reserved is taken off the inbox and does nothing else (log entry 7). -/
theorem step_of_decodeHost_reserved {s : State} {ns rest : List Nibble} {op : Nibble} {items : List Fetch}
    (hin : s.inbox = .host ns :: items) (hd : decodeHost ns = .reserved op rest) :
    step s = .next ((s.advance rest).respond none) := by
  rw [step_of_decode_reserved hin hd, exec_reservedRow]

/-! ### What CP.PARSE can answer (R124) -/

theorem parseCommand_cases (maxArgs : Nat) (cmd : List Byte) :
    (∃ args, parseCommand maxArgs cmd = .ok (.print args)) ∨ parseCommand maxArgs cmd = .err .tooManyArgs ∨
      parseCommand maxArgs cmd = .err .wrongNumArgs ∨ parseCommand maxArgs cmd = .err .badCommand := by
  obtain ⟨args, hfields, -⟩ := splitColon_eq_word_cons cmd
  rcases Nat.lt_or_ge maxArgs args.length with hover | hfit
  · exact .inr (.inl (parseCommand_of_tooMany hfields hover))
  obtain hnone | hsome := eq_or_ne args.length 0
  · exact .inr (.inr (.inl (parseCommand_of_noArgs hfields hfit hnone)))
  obtain hword | hword := eq_or_ne (cmd.takeWhile (· ≠ chColon)) printWord
  · exact .inl ⟨args, parseCommand_of_print hfields hfit hsome hword⟩
  · exact .inr (.inr (.inr (parseCommand_of_otherWord hfields hfit hsome hword)))

/-! ### The dispatch step (R128, D20) -/

/-- The state the dispatch step leaves for what CP.PARSE answered. -/
def dispatchLine (tubeCount : Nat) (parsed : Response) (s : State) : State :=
  (s.setPd (dispatchPrint s.cfg s.pd parsed tubeCount).1).respond (some (dispatchPrint s.cfg s.pd parsed tubeCount).2)

theorem dispatchLine_err (tubeCount : Nat) (k : ErrKind) (s : State) :
    dispatchLine tubeCount (.err k) s = s.raise k := rfl

theorem dispatchLine_oneArg (tubeCount : Nat) (argument : List Byte) (s : State) :
    dispatchLine tubeCount (.ok (.print [argument])) s = s.endScan (s.pd.decode s.cfg argument tubeCount) := rfl

theorem dispatchLine_of_length_ne_one (tubeCount : Nat) {args : List (List Byte)} (h : args.length ≠ 1) (s : State) :
    dispatchLine tubeCount (.ok (.print args)) s = s.raise .wrongNumArgs := by
  match args, h with
  | [], _ | _ :: _ :: _, _ => rfl

/-- A parsed command ends in an array or in an error of CP.PARSE, of the dispatch step or of PD.DECODE. -/
theorem dispatchLine_parseCommand_response (maxArgs tubeCount : Nat) (cmd : List Byte) (s : State) :
    (∃ out, (dispatchLine tubeCount (parseCommand maxArgs cmd) s).response = some (.ok (.bitmaps out))) ∨
    ∃ k ∈ [ErrKind.badCommand, .tooManyArgs, .wrongNumArgs, .parseError, .tokenError],
      (dispatchLine tubeCount (parseCommand maxArgs cmd) s).response = some (.err k) := by
  rcases parseCommand_cases maxArgs cmd with ⟨args, heq⟩ | heq | heq | heq <;> rw [heq]
  · by_cases hone : args.length = 1
    · obtain ⟨argument, rfl⟩ := List.length_eq_one_iff.mp hone
      rw [dispatchLine_oneArg, State.endScan_response]
      rcases PD.scan_cases s.cfg (s.pd.begin tubeCount) argument with ⟨out, hscan, -⟩ | hscan | hscan
      · exact .inl ⟨out, congrArg some hscan⟩
      · exact .inr ⟨.parseError, by simp, congrArg some hscan⟩
      · exact .inr ⟨.tokenError, by simp, congrArg some hscan⟩
    · rw [dispatchLine_of_length_ne_one tubeCount hone]
      exact .inr ⟨.wrongNumArgs, by simp, rfl⟩
  · exact .inr ⟨.tooManyArgs, by simp, rfl⟩
  · exact .inr ⟨.wrongNumArgs, by simp, rfl⟩
  · exact .inr ⟨.badCommand, by simp, rfl⟩

/-! ### What a trimming step can do (R84) -/

/-- It leaves the bytes alone or takes one terminator. -/
theorem trimOne_eq_or_cons (u : List Byte) : trimOne u = u ∨ ∃ b, Terminator b ∧ u = b :: trimOne u := by
  rcases u with _ | ⟨b, bs⟩
  · exact .inl rfl
  by_cases hb : Terminator b
  · exact .inr ⟨b, hb, by rw [trimOne_of_terminator hb]⟩
  · exact .inl (if_neg (mt isTerm_iff.mp hb))

/-! ### LINE, by what its CB.EXTRACT answers (R128) -/

section Line

variable {s : State} {d : Nat} {cmd rest : List Byte} {b : Byte}

theorem exec_line (d tubeCount : Nat) (s : State) :
    exec (.line d tubeCount) s = .next (linePipeline d tubeCount s) := rfl

/-- The stages behind CB.EXTRACT do not touch the ring. -/
theorem linePipeline_unread (d tubeCount : Nat) (s : State) :
    (linePipeline d tubeCount s).unread = (extractLine d s).unread := rfl

theorem linePipeline_of_noCommand (h : ∀ cmd, (extractLine d s).response ≠ some (.ok (.command cmd)))
    (tubeCount : Nat) : linePipeline d tubeCount s = extractLine d s := by
  have hstages : lineStages s.cfg s.pd (s.cb.extract s.cfg.cap d).2 tubeCount = (s.pd, (s.cb.extract s.cfg.cap d).2) := by
    unfold lineStages
    split
    · next cmd heq => exact absurd (congrArg some heq) (h cmd)
    · rfl
  rw [linePipeline, hstages]
  rfl

theorem linePipeline_of_command (h : (extractLine d s).response = some (.ok (.command cmd))) (tubeCount : Nat) :
    linePipeline d tubeCount s = dispatchLine tubeCount (parseCommand s.cfg.maxArgs cmd) (extractLine d s) := by
  have hdelivered : (s.cb.extract s.cfg.cap d).2 = .ok (.command cmd) := Option.some.inj h
  rw [linePipeline, hdelivered]
  rfl

theorem linePipeline_of_noTerminator (h : NoTerminator s.unread) (tubeCount : Nat) :
    linePipeline d tubeCount s = s.succeed .notReady := by
  have hextract : extractLine d s = s.succeed .notReady := extractLine_of_noTerminator h
  rw [linePipeline_of_noCommand (by simp [hextract]), hextract]

theorem linePipeline_of_tooSmall (h : s.unread = cmd ++ b :: rest) (hcmd : NoTerminator cmd) (hb : Terminator b)
    (hd : cmd.length > d) (tubeCount : Nat) : linePipeline d tubeCount s = s.raise .bufOverrun := by
  have hne : cmd ≠ [] := List.ne_nil_of_length_pos (by omega)
  have hextract : extractLine d s = s.raise .bufOverrun := extractLine_of_tooSmall h hne hcmd hb hd
  rw [linePipeline_of_noCommand (by simp [hextract]), hextract]

/-- A line that the destination can hold, an empty one included, is consumed with its terminator, and LINE answers neither
NotReady nor BufOverrun. -/
theorem linePipeline_of_fits (hinv : s.cb.Inv s.cfg.cap) (h : s.unread = cmd ++ b :: rest) (hcmd : NoTerminator cmd)
    (hb : Terminator b) (hd : cmd.length ≤ d) (tubeCount : Nat) :
    (linePipeline d tubeCount s).unread = trimOne rest ∧ ∃ r, (linePipeline d tubeCount s).response = some r ∧
      r ≠ .ok .notReady ∧ r ≠ .err .bufOverrun := by
  rw [linePipeline_unread]
  obtain rfl | hne := eq_or_ne cmd []
  · obtain ⟨hleft, hresp⟩ := extractLine_of_emptyLine hinv h hb d
    rw [linePipeline_of_noCommand (by simp [hresp])]
    exact ⟨hleft, _, hresp, by simp, by simp⟩
  · obtain ⟨hleft, hresp⟩ := extractLine_of_command hinv h hne hcmd hb hd
    rw [linePipeline_of_command hresp]
    obtain ⟨out, hout⟩ | ⟨k, hk, herr⟩ :=
      dispatchLine_parseCommand_response s.cfg.maxArgs tubeCount cmd (extractLine d s)
    · exact ⟨hleft, _, hout, by simp, by simp⟩
    · exact ⟨hleft, _, herr, by simp, by rintro ⟨⟩; simp at hk⟩

end Line

end Sys2Proof.Machine

namespace Sys2Proof.Proofs

open Sys2Proof.Machine Sys2Proof.Claims

/-- Settles O40: RESET writes the three registers of the ring and the response. -/
theorem resetEmptiesTheRing : Obligations.ResetEmptiesTheRing :=
  fun s => ⟨_, exec_reset s, rfl, ⟨rfl, rfl, rfl, rfl⟩, CB.unread_clear _ _, rfl⟩

/-- Settles O42: the decoder names the code, and the row it names only clears the response. -/
theorem reservedCodesChangeNothing : Obligations.ReservedCodesChangeNothing :=
  fun s _ _ => ⟨rfl, rfl, exec_reservedRow 0xE s, exec_reservedRow 0xF s,
    fun hin => step_of_decodeHost_reserved hin rfl, fun hin => step_of_decodeHost_reserved hin rfl⟩

/-- Settles O43: LINE is CB.EXTRACT where that delivers no command, and else the dispatch step on what CP.PARSE answers. -/
theorem lineRunsItsStagesInOrder : Obligations.LineRunsItsStagesInOrder := by
  refine fun s d tubeCount => ⟨_, exec_cbExtract d s, fun hno => ?_, fun cmd hcmd => ⟨_, exec_cpParse cmd _, ?_⟩⟩
  · rw [exec_line, linePipeline_of_noCommand hno]
  · have hline : exec (.line d tubeCount) s =
        .next (dispatchLine tubeCount (parseCommand (extractLine d s).cfg.maxArgs cmd) (extractLine d s)) :=
      congrArg Host.Outcome.next (linePipeline_of_command hcmd tubeCount)
    rw [hline]
    generalize parseCommand (extractLine d s).cfg.maxArgs cmd = parsed
    refine ⟨fun k hparsed => ?_, fun args hparsed => ?_⟩ <;> obtain rfl := Option.some.inj hparsed
    · rw [dispatchLine_err]
      rfl
    · refine ⟨fun hlen => ?_, ?_⟩
      · rw [dispatchLine_of_length_ne_one tubeCount hlen]
        rfl
      · rintro argument rfl
        rw [dispatchLine_oneArg]
        rfl

/-- Settles O44, by the first terminator among the unread bytes and whether the destination can hold the line before it. -/
theorem lineConsumesItsLine : Obligations.LineConsumesItsLine := by
  intro s d tubeCount hinv
  rw [exec_line]
  rcases noTerminator_or_split s.unread with hno | ⟨cmd, b, rest, hsplit, hcmd, hb⟩
  · rw [linePipeline_of_noTerminator hno]
    exact ⟨_, _, rfl, rfl, rfl, rfl, fun _ => rfl, fun hready => absurd rfl hready⟩
  rcases Nat.lt_or_ge d cmd.length with hsmall | hfits
  · rw [linePipeline_of_tooSmall hsplit hcmd hb hsmall]
    exact ⟨_, _, rfl, rfl, rfl, rfl, fun _ => rfl, fun _ hoverrun => absurd rfl hoverrun⟩
  · obtain ⟨hleft, r, hresp, hready, hoverrun⟩ := linePipeline_of_fits hinv hsplit hcmd hb hfits tubeCount
    refine ⟨_, r, rfl, hresp, rfl, rfl, fun hr => absurd hr (not_or_intro hready hoverrun), fun _ _ => ?_⟩
    rw [hleft]
    exact ⟨cmd, b, rest, hsplit, hcmd, hb, trimOne_eq_or_cons rest⟩

end Sys2Proof.Proofs

/-! ## 60_exceptions.md: which operation raises which error, and what an error leaves of the ring

An error reaches the response from few places: the two CommandBuffer operations that can fail, the parser, a transition or a
scan of the decoder, and a token value. The layer below says of each which kinds it raises and, of a failing extraction, what
it did to the ring; LINE passes on what its stages raise. -/

namespace Sys2Proof.Machine

open Sys2Proof.Claims

/-! ### The kinds each operation raises (R129) -/

section Kinds

variable {s : State} {k : ErrKind}

theorem appendChunk_err {bytes : List Byte} (h : (appendChunk bytes s).response = some (.err k)) :
    k = .bufferOverrun := by
  have herr : (s.cb.append s.cfg.cap bytes).2 = .err k := Option.some.inj h
  rcases CB.append_cases s.cfg.cap s.cb bytes with ⟨-, heq⟩ | ⟨-, heq⟩ <;> rw [heq] at herr <;> cases herr
  rfl

/-- CB.EXTRACT fails on an empty line, which it trims, or on a destination too small, and then the ring stays (R131, R132). -/
theorem extractLine_err {d : Nat} (h : (extractLine d s).response = some (.err k)) :
    k = .noopCommand ∨ (k = .bufOverrun ∧ (extractLine d s).cb = s.cb) := by
  have herr : (s.cb.extract s.cfg.cap d).2 = .err k := Option.some.inj h
  have hcb : (extractLine d s).cb = (s.cb.extract s.cfg.cap d).1 := rfl
  rw [hcb]
  rcases CB.extract_cases s.cfg.cap s.cb d with ⟨-, heq⟩ | ⟨-, heq⟩ | ⟨_, -, -, heq⟩ | ⟨_, -, -, heq⟩ <;>
    rw [heq] at herr ⊢ <;> cases herr
  · exact .inl rfl
  · exact .inr ⟨rfl, rfl⟩

theorem parseCommand_err {maxArgs : Nat} {cmd : List Byte} (h : parseCommand maxArgs cmd = .err k) :
    k = .tooManyArgs ∨ k = .wrongNumArgs ∨ k = .badCommand := by
  rcases parseCommand_cases maxArgs cmd with ⟨args, heq⟩ | heq | heq | heq <;> rw [heq] at h <;> cases h
  exacts [.inl rfl, .inr (.inl rfl), .inr (.inr rfl)]

theorem PD.decode_err {cfg : Config} {pd : PD} {argument : List Byte} {tubeCount : Nat}
    (h : pd.decode cfg argument tubeCount = .err k) : k = .parseError ∨ k = .tokenError := by
  rw [PD.decode] at h
  rcases PD.scan_cases cfg (pd.begin tubeCount) argument with ⟨out, heq, -⟩ | heq | heq <;> rw [heq] at h <;> cases h
  exacts [.inl rfl, .inr rfl]

/-- A row of the state table fails with the kinds of PD.DECODE. -/
theorem settle_transition_err {c : Byte} (h : (s.settle (s.pd.transition s.cfg c)).response = some (.err k)) :
    k = .parseError ∨ k = .tokenError := by
  have hkinds := s.pd.transition_forTubes s.cfg c
  generalize s.pd.transition s.cfg c = out at h hkinds
  cases out with
  | go pd | stop pd => cases h
  | raise k' =>
    cases h
    exact hkinds

theorem returnToken_err {v : Option Bitmap} (h : (s.returnToken v).response = some (.err k)) : k = .tokenError := by
  rcases s.returnToken_cases v with ⟨-, heq⟩ | ⟨b, -, heq⟩ <;> rw [heq] at h <;> cases h
  rfl

/-- No stage of LINE appends to the ring (R128). -/
theorem linePipeline_err {d tubeCount : Nat} (h : (linePipeline d tubeCount s).response = some (.err k)) :
    k ≠ .bufferOverrun := by
  by_cases hcmd : ∃ cmd, (extractLine d s).response = some (.ok (.command cmd))
  · obtain ⟨cmd, hcmd⟩ := hcmd
    rw [linePipeline_of_command hcmd] at h
    obtain ⟨out, hout⟩ | ⟨k', hkinds, herr⟩ :=
      dispatchLine_parseCommand_response s.cfg.maxArgs tubeCount cmd (extractLine d s)
    · cases hout.symm.trans h
    · cases herr.symm.trans h
      rintro rfl
      simp at hkinds
  · rw [linePipeline_of_noCommand (not_exists.mp hcmd)] at h
    obtain rfl | ⟨rfl, -⟩ := extractLine_err h <;> exact nofun

end Kinds

/-! ### The column "raised by" (R129) -/

section RaisedBy

variable {i : Instr} {s t : State} {k : ErrKind}

/-- LINE passes on every kind but the one that only an append raises. -/
theorem mayRaise_line_iff {d tubeCount : Nat} : MayRaise (.line d tubeCount) k ↔ k ≠ .bufferOverrun := by
  cases k <;> simp [MayRaise, chunkOf, Extracts]

theorem mayRaise_of_append (hchunk : chunkOf i ≠ none) {bytes : List Byte}
    (herr : (appendChunk bytes s).response = some (.err k)) : MayRaise i k := by
  obtain rfl := appendChunk_err herr
  exact hchunk

theorem mayRaise_of_pdRow {st : PdState} (hcell : i.cellState = some st) (h : exec i s = .next t)
    (herr : t.response = some (.err k)) : MayRaise i k := by
  have hrow : i.cellState ≠ none := by simp [hcell]
  obtain ⟨c, rfl⟩ := exec_pdRow_transition hcell h
  obtain rfl | rfl := settle_transition_err herr <;> exact .inl hrow

/-- An error is one of those the taxonomy names for the instruction that raised it. -/
theorem exec_err_mayRaise (h : exec i s = .next t) (herr : t.response = some (.err k)) : MayRaise i k := by
  cases i with
  | seDecode | seIsPrint | seWithUl | seWithColon | seDecodeUl | cbPendLen | cbHasCmd | cbCmdLen | reset
  | reservedE | reservedF =>
    cases h
    cases herr
  | cbAppend | cbAppendB | wireCr | wireLf | wireColon =>
    cases h
    exact mayRaise_of_append nofun herr
  | cbExtract d =>
    cases h
    obtain rfl | ⟨rfl, -⟩ := extractLine_err herr <;> exact trivial
  | cpParse cmd =>
    cases h
    obtain rfl | rfl | rfl := parseCommand_err (Option.some.inj herr) <;> exact .inl ⟨cmd, rfl⟩
  | pdDecode argument tubeCount =>
    cases h
    obtain rfl | rfl := PD.decode_err (Option.some.inj herr) <;> exact .inr (.inl ⟨argument, tubeCount, rfl⟩)
  | pdToken | tokenHexLower | tokenHexUpper | tokenBinLower | tokenBinUpper =>
    cases h
    obtain rfl := returnToken_err herr
    simp [MayRaise]
  | line d tubeCount =>
    cases h
    exact mayRaise_line_iff.mpr (linePipeline_err herr)
  | _ => exact mayRaise_of_pdRow rfl h herr

end RaisedBy

/-! ### The numbers of the kinds (R129, D3) -/

theorem ErrKind.status_le (k : ErrKind) : k.status.toNat ≤ 8 := by
  cases k <;> decide

end Sys2Proof.Machine

namespace Sys2Proof.Proofs

open Sys2Proof.Machine

/-- Settles O58: a response has the status of its kind, or 0. -/
theorem statusCodesNumberTheTaxonomy : Obligations.StatusCodesNumberTheTaxonomy := by
  refine ⟨fun _ => rfl, fun r => ?_, rfl⟩
  cases r with
  | ok => exact Nat.zero_le 8
  | err k => exact k.status_le

/-- Settles O54, from the kinds each operation raises. -/
theorem errorsComeFromTheirOperations : Obligations.ErrorsComeFromTheirOperations :=
  fun _ _ _ _ => exec_err_mayRaise

/-- Settles O55, by what an instruction does: a failing append is BufferOverrun, a failing extraction NoopCommand or one that
leaves the ring; RESET does not fail, and the others but LINE do not write the ring. -/
theorem errorsLeaveTheRingAlone : Obligations.ErrorsLeaveTheRingAlone := by
  intro i s t k h herr hoverrun hnoop hline
  cases instrEffect i with
  | pdRow _ hexec =>
    obtain ⟨c, rfl⟩ := hexec s t h
    obtain ⟨-, hcb, -⟩ := s.settle_frame (s.pd.transition s.cfg c)
    exact hcb
  | append _ hexec =>
    cases (hexec s).symm.trans h
    exact absurd (appendChunk_err herr) hoverrun
  | extract d =>
    cases h
    obtain hk | ⟨-, hcb⟩ := extractLine_err herr
    · exact absurd hk hnoop
    · exact hcb
  | decode =>
    cases h
    rfl
  | reset =>
    cases h
    cases herr
  | line d tubeCount => exact absurd rfl (hline d tubeCount)
  | query _ hexec =>
    cases (hexec s).symm.trans h
    rfl

end Sys2Proof.Proofs

/-! ## 70_reset_and_hazards.md: the empty ring of reset and the full ring without a terminator

Two states of the ring at its ends. What the operations answer on each follows from its unread bytes: none at all, and as many
as `CAP` with no terminator among them. -/

namespace Sys2Proof.Machine

open Sys2Proof.Claims

/-! ### The ring as reset and RESET leave it (R125, R146) -/

theorem State.reset_unread : State.reset.unread = [] := rfl

theorem unread_of_exec_reset {s t : State} (h : exec .reset s = .next t) : t.unread = [] := by
  rw [exec_reset] at h
  cases h
  exact CB.unread_clear _ _

section EmptyRing

variable {s : State} (hempty : s.unread = [])

include hempty

theorem exec_cbPendLen_of_empty : exec .cbPendLen s = .next (s.succeed (.number 0)) := by
  rw [exec_cbPendLen, hempty, List.length_nil]

theorem exec_cbHasCmd_of_empty : exec .cbHasCmd s = .next (s.succeed (.boolean false)) := by
  rw [exec_cbHasCmd, hempty, List.any_nil]

theorem noTerminator_of_empty : NoTerminator s.unread := by
  rw [hempty]
  exact List.forall_mem_nil _

/-- An empty ring has room for `CAP` bytes (R79). -/
theorem exec_cbAppend_of_empty {bytes : List Byte} (hfit : bytes.length ≤ s.cfg.cap) :
    exec (.cbAppend bytes) s = .next ((s.setCb (s.cb.store s.cfg.cap bytes)).succeed .done) := by
  have hlen : s.cb.length = 0 := by rw [← State.unread_length, hempty, List.length_nil]
  rw [exec_cbAppend, appendChunk_of_fits (by rwa [hlen])]

end EmptyRing

end Sys2Proof.Machine

namespace Sys2Proof.Proofs

open Sys2Proof.Machine Sys2Proof.Claims

/-- Settles O17: an extraction finds no terminator, and a full ring has no room for even one byte. -/
theorem fullRingWithoutTerminatorIsStuck : Obligations.FullRingWithoutTerminatorIsStuck := by
  intro s _ hfull hno
  refine ⟨fun d => extractNotReadyChangesNothing s d hno, fun bytes hne => ?_⟩
  have hover : bytes.length + s.cb.length > s.cfg.cap := by
    have hpos : 0 < bytes.length := List.length_pos_iff.mpr hne
    omega
  obtain ⟨t, hexec, hresp, hsame, hunread, -⟩ := appendThatOverflowsClearsTheRing s bytes hover
  exact ⟨t, hexec, hresp, hunread, hsame⟩

/-- Settles O41: on both ways the ring has no unread byte, and each answer is the one on an empty ring. -/
theorem afterResetTheRingIsEmpty : Obligations.AfterResetTheRingIsEmpty := by
  refine ⟨rfl, rfl, rfl, fun s t hreset => ?_⟩
  have hempty : t.unread = [] := by
    obtain rfl | hexec := hreset
    · exact State.reset_unread
    · exact unread_of_exec_reset hexec
  have hno := noTerminator_of_empty hempty
  exact ⟨exec_cbPendLen_of_empty hempty, exec_cbHasCmd_of_empty hempty, exec_cbCmdLen_of_noTerminator hno,
    fun d => extractNotReadyChangesNothing t d hno,
    fun _ hfit => congrArg responseOf (exec_cbAppend_of_empty hempty hfit)⟩

end Sys2Proof.Proofs
